-- ==== Sys2Proof/Word.lean ====
section
/-! DEFINITION. The value types of IO-HRF: register widths, bit strings, coefficient pairs, symbol classes, decode-table
entries, fault codes. Types only: what is computed over them stands under Sys2Proof/Machine/. -/

namespace Sys2Proof

/-- A byte of the bitstream memory `BS` (R37). -/
abbrev Byte := BitVec 8

/-- A 32-bit register of the host map, `NBLK`, `BLK` (R23, R26, R27). -/
abbrev Word := BitVec 32

/-- A 64-bit register: the bit cursors `WPOS`, `RPOS` and the byte length `BSLEN` (R28 to R30). -/
abbrev Cursor := BitVec 64

/-- One coefficient register `CO[i]`, two's complement (R22). -/
abbrev Coef := BitVec 16

/-- A bit string, first stream bit first (R11). -/
abbrev Bits := List Bool

/-- A coefficient pair in zigzag order: element 0 is DC, elements 1 to 63 are AC (R22). -/
abbrev Pair := Vector Coef 64

/-- The four symbol classes, in the container's order (R14). -/
inductive SymClass where
  | dcLuma | acLuma | dcChroma | acChroma
  deriving DecidableEq, Repr

/-- One value per symbol class (the first index of `FREQ`, `ETAB`, `DTAB`). -/
structure PerClass (α : Type) where
  dcLuma : α
  acLuma : α
  dcChroma : α
  acChroma : α
  deriving DecidableEq, Repr

/-- An entry of a decode table (R35): the symbol index and its code. Its `len` is the length of `code`. -/
structure Entry where
  sym : Nat
  code : Bits
  deriving DecidableEq, Repr

/-- A frequency table of one class (R33): the symbols of nonzero frequency in rising order, each with its count. -/
abbrev FreqTable := List (Nat × Nat)

/-- An encode table of one class (R34): the symbols with a code, in rising order, each with its code. -/
abbrev CodeTable := List (Nat × Bits)

/-- The fault codes of R301. -/
inductive ErrCode where
  | eWidth | eShape | eIo | eHuffNomatch | eAcOverrun | eStreamEnd | eTable | eSeq | eCmd | eCap
  deriving DecidableEq, Repr

end Sys2Proof
end

