-- ==== Sys2Proof/Machine/Operands.lean ====
section
/-! DEFINITION. Operand forms: classes and symbol indices (R13, R14), the BitString codec (R130 to R136), the run-length
symbol coder (R170 to R179), the numbers of the fault codes (R301). Pure functions; they read no state. -/

namespace Sys2Proof

/-! ## Classes and symbols -/

/-- The entry of a per-class table. -/
def PerClass.get {α : Type} (t : PerClass α) : SymClass → α
  | .dcLuma => t.dcLuma
  | .acLuma => t.acLuma
  | .dcChroma => t.dcChroma
  | .acChroma => t.acChroma

/-- Replace the entry of one class. -/
def PerClass.set {α : Type} (t : PerClass α) (c : SymClass) (x : α) : PerClass α :=
  match c with
  | .dcLuma => { t with dcLuma := x }
  | .acLuma => { t with acLuma := x }
  | .dcChroma => { t with dcChroma := x }
  | .acChroma => { t with acChroma := x }

/-- The table that holds `f c` for each class. -/
def PerClass.of {α : Type} (f : SymClass → α) : PerClass α :=
  ⟨f .dcLuma, f .acLuma, f .dcChroma, f .acChroma⟩

/-- The DC classes are 0 and 2 (R14). -/
def SymClass.isDc : SymClass → Bool
  | .dcLuma | .dcChroma => true
  | .acLuma | .acChroma => false

/-- `dcclass(ch)` of R14. -/
def dcClass (ch : BitVec 2) : SymClass := if ch = 0 then .dcLuma else .dcChroma

/-- `acclass(ch)` of R14. -/
def acClass (ch : BitVec 2) : SymClass := if ch = 0 then .acLuma else .acChroma

/-- The symbol index of an AC symbol: `16·run + size` (R13, R99). -/
def symIndex (run size : Nat) : Nat := 16 * run + size

/-- The run of an AC symbol index (R205: `s div 16`). -/
def symRun (s : Nat) : Nat := s / 16

/-- The size of an AC symbol index (R205: `s mod 16`). -/
def symSize (s : Nat) : Nat := s % 16

/-- The number of a fault code, as `ERR` holds it (R301). -/
def ErrCode.code : ErrCode → BitVec 8
  | .eWidth => 0x01
  | .eShape => 0x02
  | .eIo => 0x03
  | .eHuffNomatch => 0x04
  | .eAcOverrun => 0x05
  | .eStreamEnd => 0x06
  | .eTable => 0x07
  | .eSeq => 0x08
  | .eCmd => 0x09
  | .eCap => 0x0A

/-! ## The BitString codec -/

/-- `U(b)`, the unsigned reading of a bit string, also `read_uint` (R11, R133). -/
def uval : Bits → Nat
  | [] => 0
  | b :: bs => b.toNat * 2 ^ bs.length + uval bs

/-- `cpl(b)`: every bit inverted (R11). -/
def cpl (b : Bits) : Bits := b.map (!·)

/-- The bits of `v` of weight `2^(w-1)` down to `2^0` (R131, for a value that fits). -/
def ubits (v : Nat) : Nat → Bits
  | 0 => []
  | w + 1 => v.testBit w :: ubits v w

/-- `ubits(v, w)` with its precondition: a value that does not fit raises `E_WIDTH` (R131). -/
def ubitsChecked (v w : Nat) : Except ErrCode Bits :=
  if v < 2 ^ w then .ok (ubits v w) else .error .eWidth

/-- `bits_required(v)`, the category of `v` (R130). -/
def bitsRequired (v : Int) : Nat := if v = 0 then 0 else v.natAbs.log2 + 1

/-- `ibits(v)`: the magnitude in `bits_required(v)` bits, complemented when `v` is negative (R132). -/
def ibits (v : Int) : Bits :=
  if 0 ≤ v then ubits v.natAbs (bitsRequired v) else cpl (ubits v.natAbs (bitsRequired v))

/-- `read_int(b)`, the inverse of `ibits` (R134). -/
def readInt : Bits → Int
  | [] => 0
  | true :: bs => (uval (true :: bs) : Int)
  | false :: bs => -(uval (cpl (false :: bs)) : Int)

/-! ## The run-length symbol coder -/

/-- An item of `RLE` (R170): a `(run, size)` symbol and its value bits. -/
structure RunItem where
  run : Nat
  size : Nat
  val : Bits
  deriving DecidableEq, Repr

/-- One more than the index of the last nonzero element, 0 if there is none (`last + 1` of R171). -/
def nonzeroEnd : List Int → Nat
  | [] => 0
  | a :: as => if nonzeroEnd as ≠ 0 then nonzeroEnd as + 1 else if a ≠ 0 then 1 else 0

/-- The scan of R172 from element `i` on, with `stop = last + 1` and the zero-run counter `run`. -/
def rleScan (stop : Nat) : Nat → Nat → List Int → List RunItem
  | _, _, [] => []
  | i, run, a :: as =>
    if stop ≤ i then [⟨0, 0, []⟩]
    else if a = 0 ∧ run < 15 then rleScan stop (i + 1) (run + 1) as
    else ⟨run, bitsRequired a, ibits a⟩ :: rleScan stop (i + 1) 0 as

/-- `RLE(ac)` (R170 to R174). -/
def rle (ac : List Int) : List RunItem := rleScan (nonzeroEnd ac) 0 0 ac

/-- The number of AC slots of a pair (R8: `NAC`). -/
def nac : Nat := 63

/-- `RLD` on a given sequence of symbols with their value bits, from slot `k` on (R177): the slots `k` to 62, or `none` if
the sequence ends early or overruns slot 62 (R178). -/
def rldFrom (k : Nat) : List RunItem → Option (List Int)
  | [] => if k < nac then none else some []
  | it :: its =>
    if nac ≤ k then none
    else if it.run = 0 ∧ it.size = 0 then
      if its = [] then some (List.replicate (nac - k) 0) else none
    else if nac < k + it.run + 1 then none
    else (rldFrom (k + it.run + 1) its).map
      (List.replicate it.run 0 ++ readInt it.val :: ·)

/-- `RLD` of a whole pair (R177): all items are consumed and 63 slots are filled. -/
def rld (its : List RunItem) : Option (List Int) := rldFrom 0 its

end Sys2Proof
end

