-- ==== Sys2Proof/Machine/Huffman.lean ====
section
/-! DEFINITION. The Huffman coder: frequency tables (R190), the construction `HuffBuild` (R192 to R195), the encode lookup
(R199) and the prefix matcher (R205). Pure functions. -/

namespace Sys2Proof

/-! ## Frequencies -/

/-- The AC values `pair[1..63]` as integers (R170). -/
def Pair.ac (p : Pair) : List Int := (p.toList.drop 1).map BitVec.toInt

/-- The DC value `pair[0]` as an integer. -/
def Pair.dc (p : Pair) : Int := p[0].toInt

/-- The symbols that the pair at position `i` of `CBUF` adds to class `c`: one category to the DC class of its channel
`i mod 3`, one `16·run + size` for each run-length item to the AC class (R190). -/
def pairSymbols (c : SymClass) (i : Nat) (p : Pair) : List Nat :=
  let ch := BitVec.ofNat 2 (i % 3)
  if c = dcClass ch then [bitsRequired (Pair.dc p)]
  else if c = acClass ch then (rle (Pair.ac p)).map fun it => symIndex it.run it.size
  else []

/-- All symbols of class `c` of a sequence of pairs, the first of which has position `i`. -/
def classSymbols (c : SymClass) : Nat → List Pair → List Nat
  | _, [] => []
  | i, p :: ps => pairSymbols c i p ++ classSymbols c (i + 1) ps

/-- The frequency table of a list of symbols, in rising symbol order. -/
def countSymbols (syms : List Nat) : FreqTable :=
  (List.range 256).filterMap fun s => if 0 < syms.count s then some (s, syms.count s) else none

/-- `FREQ[c][s]` of a table (R33): 0 for a symbol it does not list. -/
def FreqTable.at (t : FreqTable) (s : Nat) : Nat := (t.lookup s).getD 0

/-- The four frequency tables of the image (R190). -/
def frequencies (ps : List Pair) : PerClass FreqTable :=
  PerClass.of fun c => countSymbols (classSymbols c 0 ps)

/-! ## Construction -/

/-- A tree of R192: a leaf has a symbol, an inner node has none. -/
inductive HuffTree where
  | leaf (sym : Nat)
  | node (left right : HuffTree)
  deriving DecidableEq, Repr

/-- A node of the queue `Q` of R192, with its weight and its place in the insertion order. -/
structure HuffNode where
  tree : HuffTree
  w : Nat
  ord : Nat
  deriving DecidableEq, Repr

/-- Is `a` before `b` by `(w, ord)`, compared first by `w`, then by `ord` (R192)? -/
def HuffNode.before (a b : HuffNode) : Bool := a.w < b.w || (a.w == b.w && a.ord < b.ord)

/-- The node of least `(w, ord)` of `a :: q`, and the rest of the queue. -/
def takeLeast (a : HuffNode) : List HuffNode → HuffNode × List HuffNode
  | [] => (a, [])
  | b :: q =>
    let r := takeLeast b q
    if r.1.before a then (r.1, a :: r.2) else (a, b :: q)

/-- The merge loop of R192: at most `n` merges, the next node made getting the order number `next`. The first node taken
is the left child. -/
def mergeLoop : Nat → Nat → List HuffNode → List HuffNode
  | 0, _, q => q
  | n + 1, next, a :: b :: q =>
    let x := takeLeast a (b :: q)
    match x.2 with
    | [] => [x.1]
    | c :: q' =>
      let y := takeLeast c q'
      mergeLoop n (next + 1) (⟨.node x.1.tree y.1.tree, x.1.w + y.1.w, next⟩ :: y.2)
  | _ + 1, _, q => q

/-- `Assign` of R192: the code of a leaf is its path from the root, 0 for left, 1 for right (R193). -/
def HuffTree.codes : HuffTree → Bits → CodeTable
  | .leaf s, p => [(s, p)]
  | .node l r, p => l.codes (p ++ [false]) ++ r.codes (p ++ [true])

/-- The leaves of R192, in rising symbol order, `ord` counting from `j`. -/
def leaves : Nat → FreqTable → List HuffNode
  | _, [] => []
  | j, (s, w) :: t => ⟨.leaf s, w, j⟩ :: leaves (j + 1) t

/-- `HuffBuild` (R192): no code for an empty alphabet (R195), the code `'0'` for one symbol (R194), tree paths otherwise. The
table lists its symbols in rising order. -/
def huffBuild (t : FreqTable) : CodeTable :=
  match t with
  | [] => []
  | [(s, _)] => [(s, [false])]
  | _ =>
    match mergeLoop (t.length - 1) t.length (leaves 0 t) with
    | root :: _ => t.filterMap fun e => ((root.tree.codes []).lookup e.1).map fun h => (e.1, h)
    | [] => []

/-- The four encode tables of the four frequency tables (R265). -/
def buildTables (f : PerClass FreqTable) : PerClass CodeTable := PerClass.of fun c => huffBuild (f.get c)

/-! ## Encode lookup and prefix matcher -/

/-- `code(c, s)` (R199): the code of a symbol, `none` for an absent one. -/
def CodeTable.code (t : CodeTable) (s : Nat) : Option Bits := t.lookup s

/-- The entry of a decode table with a given code (R35: there is at most one). -/
def entryWith (tab : List Entry) (code : Bits) : Option Entry := tab.find? fun e => e.code = code

/-- The prefix matcher `HuffRead` (R205) on the bits that remain, with the accumulator `acc`: the first entry whose code
equals the bits read so far, and the bits after it; `none` when the stream ends first (R207). -/
def huffMatch (tab : List Entry) : Bits → Bits → Option (Entry × Bits)
  | _, [] => none
  | acc, b :: bs =>
    match entryWith tab (acc ++ [b]) with
    | some e => some (e, bs)
    | none => huffMatch tab (acc ++ [b]) bs

end Sys2Proof
end

