-- ==== Sys2Proof/Syntax.lean ====
section
/-! DEFINITION. The instructions of IO-HRF: every row of spec/opcode_table.json, eleven host commands (R110) and six stream
formats (R92 to R97). -/

namespace Sys2Proof

/-- An instruction. A command has no operand field (R105). A stream element carries the fields of its format; a code
length field `l` is the length of `h`, and a symbol's category, run and size are what the current table gives for `h`. -/
inductive Instr where
  /-- NOP, code 0x00 (R261). -/
  | nop
  /-- RESET, code 0x01 (R262). -/
  | reset
  /-- ENC_START, code 0x10 (R263). -/
  | encStart
  /-- ENC_PUSH, code 0x11 (R264). -/
  | encPush
  /-- ENC_BUILD, code 0x12 (R265). -/
  | encBuild
  /-- ENC_WRITE_HDR, code 0x13 (R266). -/
  | encWriteHdr
  /-- ENC_WRITE_PAIR, code 0x14 (R267). -/
  | encWritePair
  /-- ENC_FINISH, code 0x15 (R268). -/
  | encFinish
  /-- DEC_START, code 0x20 (R269). -/
  | decStart
  /-- DEC_READ_HDR, code 0x21 (R270). -/
  | decReadHdr
  /-- DEC_READ_PAIR, code 0x22 (R271). -/
  | decReadPair
  /-- TCOUNT: the number of entries of a table section (R92). -/
  | tcount (n : BitVec 16)
  /-- DCENT: an entry of a DC table: category and code (R93). -/
  | dcent (c : BitVec 4) (h : Bits)
  /-- ACENT: an entry of an AC table: run, size and code (R94). -/
  | acent (r s : BitVec 4) (h : Bits)
  /-- BCOUNT: the block count (R95). -/
  | bcount (n : Word)
  /-- DCSYM: the code of a DC category and the value bits (R96). -/
  | dcsym (h v : Bits)
  /-- ACSYM: the code of a `(run, size)` symbol and the value bits (R97). -/
  | acsym (h v : Bits)
  deriving DecidableEq, Repr

end Sys2Proof
end

