-- ==== Sys2Proof/WellFormed.lean ====
section
/-! DEFINITION. Which instructions the formats of R92 to R97 can carry: the bounds of the code-length fields and of the
value fields. -/

namespace Sys2Proof

/-- A code of a DC class: 1 to 15 bits (R93, R96). -/
def dcCodeFits (h : Bits) : Bool := 1 ≤ h.length && h.length ≤ 15

/-- A code of an AC class: 1 to 255 bits (R94, R97). -/
def acCodeFits (h : Bits) : Bool := 1 ≤ h.length && h.length ≤ 255

/-- A value field: 0 to 15 bits (R96, R97). -/
def valueFits (v : Bits) : Bool := v.length ≤ 15

/-- An instruction is well formed if its fields fit its format; a code length of 0 is illegal (R104). -/
def Instr.wf : Instr → Bool
  | .nop | .reset => true
  | .encStart | .encPush | .encBuild | .encWriteHdr | .encWritePair | .encFinish => true
  | .decStart | .decReadHdr | .decReadPair => true
  | .tcount _ => true
  | .dcent _ h => dcCodeFits h
  | .acent _ _ h => acCodeFits h
  | .bcount _ => true
  | .dcsym h v => dcCodeFits h && valueFits v
  | .acsym h v => acCodeFits h && valueFits v

end Sys2Proof
end

