-- ==== Sys2Proof/Decode.lean ====
section
/-! DEFINITION. The decoder: total on any bits, rejecting by name, and after it the encoder. What stands at a place of the
stream is decided by position alone (R91, R101), so the decoder is told the position. -/

namespace Sys2Proof

/-- Why a word or a stretch of stream is no instruction. -/
inductive DecodeError where
  /-- A code in CMD[7:0] that is none of the eleven (R111): the block raises `E_CMD`. Safe. -/
  | undefinedCommand
  /-- A field extends past the end of the stream (R67): the block raises `E_STREAM_END`. Safe. -/
  | streamEnd
  /-- A table entry with code length 0 (R104): the block raises `E_TABLE`. Safe. -/
  | zeroLength
  /-- The stream ends before a code of the table matches (R205): the block raises `E_HUFF_NOMATCH`. Safe. -/
  | noMatch
  /-- An AC symbol that would pass slot 62 (R178): the block raises `E_AC_OVERRUN`. Safe. -/
  | acOverrun
  deriving DecidableEq, Repr

/-- The fault code the block raises for a rejected encoding (R104, R111). -/
def DecodeError.errCode : DecodeError → ErrCode
  | .undefinedCommand => .eCmd
  | .streamEnd => .eStreamEnd
  | .zeroLength => .eTable
  | .noMatch => .eHuffNomatch
  | .acOverrun => .eAcOverrun

/-- Where an instruction stands: a word written to CMD, or a place of the stream grammar (R91). The two symbol places name
the table that applies (R101); the AC place also says which slot is filled next, since the overrun test comes before the
value bits are read (R178). -/
inductive Position where
  | command
  | tableCount
  | dcEntry
  | acEntry
  | blockCount
  | dcSymbol (tab : List Entry)
  | acSymbol (tab : List Entry) (k : Nat)
  deriving DecidableEq, Repr

/-- The command of a word written to CMD: bits [7:0] are the code, bits [31:8] are ignored (R105, R110). -/
def decodeCommand (w : Word) : Except DecodeError Instr :=
  match (w.extractLsb' 0 8).toNat with
  | 0x00 => .ok .nop
  | 0x01 => .ok .reset
  | 0x10 => .ok .encStart
  | 0x11 => .ok .encPush
  | 0x12 => .ok .encBuild
  | 0x13 => .ok .encWriteHdr
  | 0x14 => .ok .encWritePair
  | 0x15 => .ok .encFinish
  | 0x20 => .ok .decStart
  | 0x21 => .ok .decReadHdr
  | 0x22 => .ok .decReadPair
  | _ => .error .undefinedCommand

/-- The first `n` bits and the rest, if there are `n` (R67: `ReadBits`). -/
def splitBits : Nat → Bits → Except DecodeError (Bits × Bits)
  | 0, b => .ok ([], b)
  | _ + 1, [] => .error .streamEnd
  | n + 1, x :: b => (splitBits n b).map fun r => (x :: r.1, r.2)

/-- An unsigned field of `n` bits and the rest (R67: `ReadUInt`, R98). -/
def readField (n : Nat) (b : Bits) : Except DecodeError (Nat × Bits) :=
  (splitBits n b).map fun r => (uval r.1, r.2)

/-- The code bits of a table entry, after its length `l` (R225, R226). -/
def readCode (l : Nat) (b : Bits) : Except DecodeError (Bits × Bits) :=
  if l = 0 then .error .zeroLength else splitBits l b

/-- TCOUNT (R92). -/
def decodeTcount (b : Bits) : Except DecodeError (Instr × Bits) := do
  let (n, b) ← readField 16 b
  return (.tcount (BitVec.ofNat 16 n), b)

/-- DCENT (R93). -/
def decodeDcent (b : Bits) : Except DecodeError (Instr × Bits) := do
  let (c, b) ← readField 4 b
  let (l, b) ← readField 4 b
  let (h, b) ← readCode l b
  return (.dcent (BitVec.ofNat 4 c) h, b)

/-- ACENT (R94): run first, size second. -/
def decodeAcent (b : Bits) : Except DecodeError (Instr × Bits) := do
  let (r, b) ← readField 4 b
  let (s, b) ← readField 4 b
  let (l, b) ← readField 8 b
  let (h, b) ← readCode l b
  return (.acent (BitVec.ofNat 4 r) (BitVec.ofNat 4 s) h, b)

/-- BCOUNT (R95). -/
def decodeBcount (b : Bits) : Except DecodeError (Instr × Bits) := do
  let (n, b) ← readField 32 b
  return (.bcount (BitVec.ofNat 32 n), b)

/-- DCSYM (R96, R228): the code of a category, then as many value bits. -/
def decodeDcsym (tab : List Entry) (b : Bits) : Except DecodeError (Instr × Bits) :=
  match huffMatch tab [] b with
  | none => .error .noMatch
  | some (e, b) => do
    let (v, b) ← splitBits e.sym b
    return (.dcsym e.code v, b)

/-- Would an AC symbol, other than end of block, pass slot 62 from slot `k` (R178)? -/
def overruns (k sym : Nat) : Bool := sym ≠ 0 && nac < k + symRun sym + 1

/-- ACSYM (R97, R177): the code of `(run, size)`, the overrun test, then `size` value bits. -/
def decodeAcsym (tab : List Entry) (k : Nat) (b : Bits) : Except DecodeError (Instr × Bits) :=
  match huffMatch tab [] b with
  | none => .error .noMatch
  | some (e, b) =>
    if overruns k e.sym then .error .acOverrun
    else do
      let (v, b) ← splitBits (symSize e.sym) b
      return (.acsym e.code v, b)

/-- The instruction at a position, and the bits after it. -/
def decode : Position → Bits → Except DecodeError (Instr × Bits)
  | .command, b => do
    let (w, b) ← readField 32 b
    let i ← decodeCommand (BitVec.ofNat 32 w)
    return (i, b)
  | .tableCount, b => decodeTcount b
  | .dcEntry, b => decodeDcent b
  | .acEntry, b => decodeAcent b
  | .blockCount, b => decodeBcount b
  | .dcSymbol tab, b => decodeDcsym tab b
  | .acSymbol tab k, b => decodeAcsym tab k b

/-! ## The encoder -/

/-- The word of a command (R110, R112: `0x000000cc`). -/
def commandBits (code : Nat) : Bits := ubits code 32

/-- The bits of an instruction, first bit first: fields in the order and widths of R92 to R97, codes of R110. -/
def encode : Instr → Bits
  | .nop => commandBits 0x00
  | .reset => commandBits 0x01
  | .encStart => commandBits 0x10
  | .encPush => commandBits 0x11
  | .encBuild => commandBits 0x12
  | .encWriteHdr => commandBits 0x13
  | .encWritePair => commandBits 0x14
  | .encFinish => commandBits 0x15
  | .decStart => commandBits 0x20
  | .decReadHdr => commandBits 0x21
  | .decReadPair => commandBits 0x22
  | .tcount n => ubits n.toNat 16
  | .dcent c h => ubits c.toNat 4 ++ ubits h.length 4 ++ h
  | .acent r s h => ubits r.toNat 4 ++ ubits s.toNat 4 ++ ubits h.length 8 ++ h
  | .bcount n => ubits n.toNat 32
  | .dcsym h v => h ++ v
  | .acsym h v => h ++ v

/-- May `i` stand at a position (R91)? A symbol stands where its code is a code of the table that no shorter code hides
(R206), with as many value bits as the symbol says, and, for AC, where it does not overrun (R178). -/
def Position.admits : Position → Instr → Bool
  | .command, .nop | .command, .reset => true
  | .command, .encStart | .command, .encPush | .command, .encBuild => true
  | .command, .encWriteHdr | .command, .encWritePair | .command, .encFinish => true
  | .command, .decStart | .command, .decReadHdr | .command, .decReadPair => true
  | .tableCount, .tcount _ => true
  | .dcEntry, .dcent _ _ => true
  | .acEntry, .acent _ _ _ => true
  | .blockCount, .bcount _ => true
  | .dcSymbol tab, .dcsym h v =>
    match huffMatch tab [] h with
    | some (e, []) => v.length = e.sym
    | _ => false
  | .acSymbol tab k, .acsym h v =>
    match huffMatch tab [] h with
    | some (e, []) => v.length = symSize e.sym && !overruns k e.sym
    | _ => false
  | _, _ => false

/-! ## Words numbered as the opcode table numbers them -/

/-- How many bits are laid out for a table word: the longest element, 15 + 255 bits, in whole bytes, and some. -/
def tableWordBytes : Nat := 40

/-- The stream bits of a table row's word: its `n` bits, the pattern's first letter being the most significant (R113), then
zeros. -/
def tableWordBits (n w : Nat) : Bits := ubits w n ++ List.replicate (8 * tableWordBytes - n) false

/-- The pattern length of a table row that fills `nbits` bits in whole bytes: ACSYM's 270 letters fill 272 bits. -/
def patternBits (nbits : Nat) : Nat := if nbits = 272 then 270 else nbits

/-- The decode table under which the maximum-extent pattern of a symbol row is one symbol: its first `l` bits are the code of
the symbol of size 15 (log 15). -/
def patternTable (l : Nat) (b : Bits) : List Entry := [⟨15, b.take l⟩]

/-- Where a table word stands (log 15): the table gives TCOUNT and ACENT 16 bits and BCOUNT and the commands 32, and
position alone tells them apart (R101). A 32-bit word with a command's code is a command, any other a BCOUNT; a 16-bit word
whose low byte is 0 cannot be an entry (R104) and is a TCOUNT, any other an ACENT. -/
def tablePosition (nbits w : Nat) : Option Position :=
  let n := patternBits nbits
  if n = 8 then some .dcEntry
  else if n = 16 then if w % 256 = 0 then some .tableCount else some .acEntry
  else if n = 32 then
    match decodeCommand (BitVec.ofNat 32 w) with
    | .ok _ => some .command
    | .error _ => some .blockCount
  else if n = 30 then some (.dcSymbol (patternTable 15 (tableWordBits n w)))
  else if n = 270 then some (.acSymbol (patternTable 255 (tableWordBits n w)) 0)
  else none

/-- The instruction of a table row's word, `none` where the decoder refuses it. -/
def decodeTableWord (nbits w : Nat) : Option Instr :=
  match tablePosition nbits w with
  | none => none
  | some p =>
    match decode p (tableWordBits (patternBits nbits) w) with
    | .ok r => some r.1
    | .error _ => none

end Sys2Proof
end

