-- ==== Sys2Proof/Config.lean ====
section
/-! DEFINITION. What the spec leaves open, as constants without a body: the values of the state elements after a fault
(R310, U1, U2), indexed by the machine's draw counter, and the parameters of the glue (R155, R157). Nothing can be proved of
their values. -/

namespace Sys2Proof.Config

/-- `NBLK` after a fault (R310, log 7). -/
opaque anyNblk : Nat → Word
/-- `BLK` after a fault (R310, log 7). -/
opaque anyBlk : Nat → Word
/-- `CH` after a fault (R310, log 7). -/
opaque anyCh : Nat → BitVec 2
/-- `WPOS` after a fault (R310, log 7). -/
opaque anyWpos : Nat → Cursor
/-- `RPOS` after a fault (R310, log 7). -/
opaque anyRpos : Nat → Cursor
/-- `BSLEN` after a fault (R310, log 7). -/
opaque anyBslen : Nat → Cursor
/-- `CO` after a fault (R310, log 7). -/
opaque anyCo : Nat → Pair
/-- `CBUF` after a fault (R310, log 7). -/
opaque anyCbuf : Nat → List Pair
/-- `FREQ` after a fault (R310, log 7). -/
opaque anyFreq : Nat → SymClass → FreqTable
/-- `ETAB` after a fault (R310, log 7). -/
opaque anyEtab : Nat → SymClass → CodeTable
/-- `DTAB` after a fault (R310, log 7). -/
opaque anyDtab : Nat → SymClass → List Entry
/-- `OUT` after a fault (R310, log 7). -/
opaque anyOut : Nat → Bits
/-- The bytes of `BS` that the faulting operation may have written, by address (R310, U2, log 8). -/
opaque anyByte : Nat → Nat → Byte

/-- `QT_LUMA`, the quantization table of channel 0: 8×8 positive integers (R9, R155, R157) whose values are in no document
(log 16). -/
opaque qtLuma : Vector (Vector PNat 8) 8
/-- `QT_CHROMA`, the quantization table of channels 1 and 2: 8×8 positive integers (R9, R155, R157, log 16). -/
opaque qtChroma : Vector (Vector PNat 8) 8
/-- What `dequantize` gives for a block and a table of different shapes: R156 states no fault and no result (log 26). -/
opaque dequantizeMismatch : List (List Int) → List (List Int) → List (List Int)
/-- `ROUND_TIES` (R155, D28): whether a quotient exactly between `n` and `n + 1` rounds up to `n + 1` (log 16). -/
opaque tieRoundsUp : Int → Bool

end Sys2Proof.Config
end

