-- ==== Sys2Proof/Machine/State.lean ====
section
/-! DEFINITION. The state of IO-HRF as plain data (R20), the host's accesses, where a running command stands in the
stream, the reasons a step stops, and the state after reset (R41). -/

namespace Sys2Proof.Machine

/-- The sequencer's phases (R24). Values 7 to 14 are never taken and have no name. -/
inductive Phase where
  | idle | encCollect | encReady | encBlocks | decHdr | decBlocks | done | fault
  deriving DecidableEq, Repr

/-- One access of the host (log 1): a 32-bit read or write of the register map, whose offsets are below 0x200 (R23, log
24); a read or write of a byte of `BS` (R72); the hardware reset input (R340, log 21). -/
inductive HostAccess where
  | regRead (offset : BitVec 9)
  | regWrite (offset : BitVec 9) (v : Word)
  | bsRead (addr : Nat)
  | bsWrite (addr : Nat) (b : Byte)
  | hwReset
  deriving DecidableEq, Repr

/-- Where the reader stands inside `DEC_READ_HDR` or `DEC_READ_PAIR`: the loop variables of R225, R228 and R177 (log 3). -/
inductive ReadPos where
  /-- The count of table `c` comes next. -/
  | tableCount (c : SymClass)
  /-- An entry of table `c` comes next, `left` entries being left. -/
  | tableEntry (c : SymClass) (left : Nat)
  | blockCount
  /-- The DC symbol of a pair of channel `ch` comes next. -/
  | dcSymbol (ch : BitVec 2)
  /-- An AC symbol of a pair of channel `ch` comes next; slot `k` is filled next. -/
  | acSymbol (ch : BitVec 2) (k : Nat)
  deriving DecidableEq, Repr

/-- Where a running command stands in the stream (log 3): nowhere between commands; reading at a place of the grammar;
writing, with the next element and those after it. -/
inductive Framer where
  | rest
  | reading (p : ReadPos)
  | writing (next : Instr) (pending : List Instr)
  deriving DecidableEq, Repr

/-- The reasons the model stops where the spec gives the machine nothing to do. -/
inductive Fault where
  /-- A host access to `BS` at or above `BS_CAP`: no such byte (R37, log 11). Safe. -/
  | noSuchByte
  /-- `ENC_WRITE_PAIR` met a symbol without a code: excluded by R199 in every run (log 13). Safe. -/
  | missingCode
  /-- `ENC_WRITE_PAIR` found no pair at the cursor: excluded by R32 in every run (log 13). Safe. -/
  | missingPair
  /-- An element loop outlived its bound: excluded by R260, R356 (log 13). Safe. -/
  | loopBound
  deriving DecidableEq, Repr

/-- The reasons the model gives no meaning. -/
inductive Refusal where
  /-- An instruction without a meaning yet. Raised by its arm of the dispatch only. Safe. -/
  | notModelled (mnemonic : String)
  /-- A stream element where no command is at a place of the grammar for it: the block executes no element by itself (R90,
  R101, log 4). Raised by the meanings of the six stream formats. Safe. -/
  | elementOutOfPlace
  /-- A host access to `BS` outside phases IDLE and DONE: the model gives the host no such move (R72, U4, log 10). Safe. -/
  | bsNotHosts
  deriving DecidableEq, Repr

/-- The state. The first block is the tuple of R20; `STATUS` and `CMD` are views (R23). -/
structure State where
  phase : Phase
  err : BitVec 8
  nblk : Word
  blk : Word
  ch : BitVec 2
  wpos : Cursor
  rpos : Cursor
  bslen : Cursor
  co : Pair
  cbuf : List Pair
  freq : PerClass FreqTable
  etab : PerClass CodeTable
  dtab : PerClass (List Entry)
  out : Bits
  /-- `BS` in canonical form: addresses rise, no entry equals what an unlisted address reads as. -/
  bs : List Host.Cell
  /-- `CBUF_BLOCKS`, an argument of the model (R9, log 5). No step writes it. -/
  cbufBlocks : Nat
  /-- `BS_CAP`, an argument of the model (R9, R71, log 5). No step writes it. -/
  bsCap : Nat
  /-- The loop variables of a running command (log 3). -/
  framer : Framer
  /-- What the host does next, oldest first (log 1). -/
  bus : List HostAccess
  /-- What the host's last read returned (log 18). -/
  rdata : Word
  /-- How many times unspecified values were drawn (R310, log 7). -/
  draws : Nat
  deriving DecidableEq, Repr

/-- The state after reset (R41, R340); capacities as log 5, `BS` as log 6 says. -/
def State.reset : State where
  phase := .idle
  err := 0
  nblk := 0
  blk := 0
  ch := 0
  wpos := 0
  rpos := 0
  bslen := 0
  co := Vector.replicate 64 0
  cbuf := []
  freq := ⟨[], [], [], []⟩
  etab := ⟨[], [], [], []⟩
  dtab := ⟨[], [], [], []⟩
  out := []
  bs := []
  cbufBlocks := 2 ^ 32 - 1
  bsCap := 2 ^ 61 - 1
  framer := .rest
  bus := []
  rdata := 0
  draws := 0

/-- What a meaning answers. -/
abbrev Result := Host.Outcome State Fault Refusal

end Sys2Proof.Machine
end

