-- ==== Sys2Proof/Machine/Ops.lean ====
section
/-! DEFINITION. The named operations over memory and registers: the bitstream memory (R37, R61), the bit cursors (R66,
R67), the pair cursor (R27), the coefficient registers (R22), reset (R41), taking a fault (R310) and the phase test that every
command begins with (R272, R274). -/

namespace Sys2Proof.Machine

/-! ## The bitstream memory -/

/-- What a byte of `BS` reads as when nothing has written it. The spec leaves it open (R340, U2). DESIGN CHOICE, unsafe: log 6. -/
def Memory.unlisted : Byte := 0

/-- Read one byte of `BS`. -/
def Memory.read : List Host.Cell → Nat → Byte
  | [], _ => Memory.unlisted
  | (k, v) :: m, a => if k = a then v else Memory.read m a

/-- Write one byte of `BS`, keeping the canonical form. -/
def Memory.write : List Host.Cell → Nat → Byte → List Host.Cell
  | [], a, b => if b = Memory.unlisted then [] else [(a, b)]
  | (k, v) :: m, a, b =>
    if a < k then if b = Memory.unlisted then (k, v) :: m else (a, b) :: (k, v) :: m
    else if a = k then if b = Memory.unlisted then m else (a, b) :: m
    else (k, v) :: Memory.write m a b

/-- The canonical form: addresses strictly rise and no entry equals what an unlisted address reads as. -/
def Memory.wf : List Host.Cell → Bool
  | [] => true
  | (k, v) :: m => v ≠ Memory.unlisted && m.all (fun c => k < c.1) && Memory.wf m

/-- Write bytes at rising addresses from `a`. -/
def Memory.store (m : List Host.Cell) (a : Nat) : List Byte → List Host.Cell
  | [] => m
  | b :: bs => Memory.store (Memory.write m a b) (a + 1) bs

/-- `MemRead` (R12): the big-endian number of the `n` bytes from `a`. -/
def Memory.readBig (m : List Host.Cell) (a : Nat) : Nat → Nat
  | 0 => 0
  | n + 1 => 256 ^ n * (Memory.read m a).toNat + Memory.readBig m (a + 1) n

/-- Bytes 0 to `n - 1` of `BS` take unspecified values, those of draw `d` (R310, U2, log 8). -/
def Memory.scramble (d : Nat) (m : List Host.Cell) : Nat → List Host.Cell
  | 0 => m
  | n + 1 => Memory.write (Memory.scramble d m n) n (Config.anyByte d n)

/-- `BSbit(i)`: bit `7 - (i mod 8)` of byte `i div 8` (R61). -/
def Memory.bit (m : List Host.Cell) (i : Nat) : Bool := (Memory.read m (i / 8)).getLsbD (7 - i % 8)

/-- Stream bits `i` to `i + n - 1`. -/
def Memory.bits (m : List Host.Cell) (i : Nat) : Nat → Bits
  | 0 => []
  | n + 1 => Memory.bit m i :: Memory.bits m (i + 1) n

/-- The first `n` bytes of a bit string, eight bits to a byte, first bit most significant (R61, R268). -/
def packBytes : Nat → Bits → List Byte
  | 0, _ => []
  | n + 1, b => BitVec.ofNat 8 (uval (b.take 8)) :: packBytes n (b.drop 8)

/-! ## The bit cursors -/

/-- `WriteBits(b)` (R66). -/
def writeBits (b : Bits) (s : State) : State :=
  { s with out := s.out ++ b, wpos := s.wpos + BitVec.ofNat 64 b.length }

/-- The zero bits that fill the last byte (R65). -/
def padding (wpos : Nat) : Bits := List.replicate ((8 - wpos % 8) % 8) false

/-- `END = 8·BSLEN` (R67). -/
def State.streamEnd (s : State) : Nat := 8 * s.bslen.toNat

/-- How many bits the reader has not taken yet. -/
def State.unreadCount (s : State) : Nat := s.streamEnd - s.rpos.toNat

/-- The bits the reader has not taken yet, `s(RPOS)` to `s(END - 1)`. -/
def State.unread (s : State) : Bits := Memory.bits s.bs s.rpos.toNat s.unreadCount

/-- The read cursor moves over `n` bits (R67). -/
def skipBits (n : Nat) (s : State) : State := { s with rpos := s.rpos + BitVec.ofNat 64 n }

/-! ## The pair cursor and the coefficient registers -/

/-- `advance()` (R27). -/
def advance (s : State) : State :=
  if s.ch.toNat < 2 then { s with ch := s.ch + 1 } else { s with ch := 0, blk := s.blk + 1 }

/-- The cursor is at the end (R27). -/
def State.atEnd (s : State) : Bool := s.blk = s.nblk

/-- The number of pairs handled so far (R27), the place in `CBUF` of the next one (R32). -/
def State.pairIndex (s : State) : Nat := 3 * s.blk.toNat + s.ch.toNat

/-- The pair cursor back to `(0, 0)`. -/
def rewind (s : State) : State := { s with blk := 0, ch := 0 }

/-- Registers `i` to `i + n - 1` of `CO` become 0. -/
def zeroCo (co : Pair) (i : Nat) : Nat → Pair
  | 0 => co
  | n + 1 => zeroCo (co.setIfInBounds i 0) (i + 1) n

/-- AC slot `k` is `CO[k + 1]` (R22): `run` zeros from slot `k`, then the value (R177). -/
def putRun (co : Pair) (k run : Nat) (v : Int) : Pair :=
  (zeroCo co (k + 1) run).setIfInBounds (k + run + 1) (BitVec.ofInt 16 v)

/-! ## Reset and faults -/

/-- Reset, by the command or by the reset input: every element of R20 but `BS` takes its reset value (R262, R340, R41). The
capacities and the model's own `bus`, `rdata` and `draws` stay. -/
def resetState (s : State) : State :=
  { State.reset with
    bs := s.bs, cbufBlocks := s.cbufBlocks, bsCap := s.bsCap, bus := s.bus, rdata := s.rdata, draws := s.draws }

/-- Every element of R20 but `PHASE`, `ERR` and `BS` takes an unspecified value, a new draw of the free values (R310, U1). -/
def scramble (s : State) : State :=
  { s with
    nblk := Config.anyNblk s.draws, blk := Config.anyBlk s.draws, ch := Config.anyCh s.draws,
    wpos := Config.anyWpos s.draws, rpos := Config.anyRpos s.draws, bslen := Config.anyBslen s.draws,
    co := Config.anyCo s.draws, cbuf := Config.anyCbuf s.draws,
    freq := PerClass.of (Config.anyFreq s.draws), etab := PerClass.of (Config.anyEtab s.draws),
    dtab := PerClass.of (Config.anyDtab s.draws), out := Config.anyOut s.draws,
    draws := s.draws + 1 }

/-- `raise Fault(code)` (R310), `n` being the number of bytes of `BS` the operation may have written. -/
def raiseOver (n : Nat) (e : ErrCode) (s : State) : State :=
  { scramble s with phase := .fault, err := e.code, framer := .rest, bs := Memory.scramble s.draws s.bs n }

/-- The bytes of `BS` that the operation in progress may have written before this command: those of the container once
`ENC_FINISH` has stored it, none before it and none on decode (R72, R276, log 8). Only an encode has bits in `OUT`. -/
def State.bytesWritten (s : State) : Nat :=
  if s.phase = .done ∧ s.out ≠ [] then s.bslen.toNat else 0

/-- `raise Fault(code)` (R310). -/
def raise (e : ErrCode) (s : State) : State := raiseOver s.bytesWritten e s

/-- A command with its phase test: ignored in FAULT (R274), `E_SEQ` where it is not legal (R272), its effect otherwise. -/
def whenLegal (legal : Bool) (s : State) (effect : State → Result) : Result :=
  if s.phase = .fault then .next s
  else if legal then effect s
  else .next (raise .eSeq s)

/-- Go on after a part of a command: only from a next state that is not in FAULT (R310: "the command ends"). -/
def andThen (r : Result) (k : State → State) : Result :=
  match r with
  | .next s => if s.phase = .fault then .next s else .next (k s)
  | .fault f => .fault f
  | .refused f => .refused f

end Sys2Proof.Machine
end

