-- ==== Sys2Proof/Machine/Control.lean ====
section
/-! DEFINITION. The commands common to both directions (R261, R262). -/

namespace Sys2Proof.Machine

/-- NOP (R261). -/
def execNop (s : State) : Result := .next s

/-- RESET (R262): legal in every phase, the only way out of FAULT. -/
def execReset (s : State) : Result := .next (resetState s)

end Sys2Proof.Machine
end

