-- ==== Sys2Proof/Machine/Stream.lean ====
section
/-! DEFINITION. The six stream formats: what writing and reading each of them does (R221 to R228), and the loop in which
the commands `ENC_WRITE_HDR`, `ENC_WRITE_PAIR`, `DEC_READ_HDR` and `DEC_READ_PAIR` run them. -/

namespace Sys2Proof.Machine

/-! ## Shared operations -/

/-- The writer emits the element it stands at (R66) and moves to the next one. -/
def emit (i : Instr) (pending : List Instr) (s : State) : State :=
  { writeBits (encode i) s with
    framer := match pending with
      | [] => .rest
      | j :: js => .writing j js }

/-- The reader has taken the element `i` (R67) and stands at `f`. -/
def take (i : Instr) (f : Framer) (s : State) : State := { skipBits (encode i).length s with framer := f }

/-- A stream element: written if it is the one the writer stands at, read by `read` if a reader is in the stream; out of
place otherwise (log 4). -/
def element (i : Instr) (s : State) (read : ReadPos → Result) : Result :=
  match s.framer with
  | .writing j pending => if j = i then .next (emit i pending s) else .refused .elementOutOfPlace
  | .reading p => read p
  | .rest => .refused .elementOutOfPlace

/-- After table `c` comes the next table's count, after the last the block count (R220). -/
def afterTable : SymClass → ReadPos
  | .dcLuma => .tableCount .acLuma
  | .acLuma => .tableCount .dcChroma
  | .dcChroma => .tableCount .acChroma
  | .acChroma => .blockCount

/-- The place after a count or an entry of table `c`, `left` entries being left (R225). -/
def afterEntry (c : SymClass) (left : Nat) : ReadPos :=
  if left = 0 then afterTable c else .tableEntry c left

/-- The reader's part of a table entry (R225, R226): a zero length, then a repeated code, is refused with `E_TABLE`; else the
entry is appended to `DTAB[c]`. -/
def readEntry (i : Instr) (c : SymClass) (left : Nat) (e : Entry) (s : State) : Result :=
  if e.code = [] then .next (raise .eTable s)
  else if (entryWith (s.dtab.get c) e.code).isSome then .next (raise .eTable s)
  else .next { take i (.reading (afterEntry c (left - 1))) s with dtab := s.dtab.set c (s.dtab.get c ++ [e]) }

/-! ## The meanings -/

/-- TCOUNT (R92): written as 16 bits (R221); read, it empties the table and announces its entries (R225). -/
def execTcount (n : BitVec 16) (s : State) : Result :=
  element (.tcount n) s fun
    | .tableCount c =>
      .next { take (.tcount n) (.reading (afterEntry c n.toNat)) s with dtab := s.dtab.set c [] }
    | _ => .refused .elementOutOfPlace

/-- DCENT (R93): an entry of a DC table. -/
def execDcent (c : BitVec 4) (h : Bits) (s : State) : Result :=
  element (.dcent c h) s fun
    | .tableEntry k left =>
      if k.isDc then readEntry (.dcent c h) k left ⟨c.toNat, h⟩ s else .refused .elementOutOfPlace
    | _ => .refused .elementOutOfPlace

/-- ACENT (R94): an entry of an AC table; its symbol index is `16·run + size` (R99). -/
def execAcent (r z : BitVec 4) (h : Bits) (s : State) : Result :=
  element (.acent r z h) s fun
    | .tableEntry k left =>
      if k.isDc then .refused .elementOutOfPlace
      else readEntry (.acent r z h) k left ⟨symIndex r.toNat z.toNat, h⟩ s
    | _ => .refused .elementOutOfPlace

/-- BCOUNT (R95): written as 32 bits (R223); read, it sets `NBLK` and ends the header (R227). -/
def execBcount (n : Word) (s : State) : Result :=
  element (.bcount n) s fun
    | .blockCount => .next { take (.bcount n) .rest s with nblk := n }
    | _ => .refused .elementOutOfPlace

/-- DCSYM (R96): read, the value goes to `CO[0]` (R228, R271). -/
def execDcsym (h v : Bits) (s : State) : Result :=
  element (.dcsym h v) s fun
    | .dcSymbol ch =>
      match entryWith (s.dtab.get (dcClass ch)) h with
      | some e =>
        if v.length = e.sym then
          .next { take (.dcsym h v) (.reading (.acSymbol ch 0)) s with
            co := s.co.setIfInBounds 0 (BitVec.ofInt 16 (readInt v)) }
        else .refused .elementOutOfPlace
      | none => .refused .elementOutOfPlace
    | _ => .refused .elementOutOfPlace

/-- The place after an AC symbol, slot `k` being filled next: the pair is complete at slot 63 (R177). -/
def afterSlot (ch : BitVec 2) (k : Nat) : Framer :=
  if k < nac then .reading (.acSymbol ch k) else .rest

/-- ACSYM (R97): read at slot `k`, end of block fills the slots that are left with zeros; any other symbol fills `run` zeros and
one value, or overruns (R177, R178). -/
def execAcsym (h v : Bits) (s : State) : Result :=
  element (.acsym h v) s fun
    | .acSymbol ch k =>
      match entryWith (s.dtab.get (acClass ch)) h with
      | some e =>
        if e.sym = 0 then
          if v = [] then
            .next { take (.acsym h v) .rest s with co := zeroCo s.co (k + 1) (nac - k) }
          else .refused .elementOutOfPlace
        else if overruns k e.sym then .next (raise .eAcOverrun s)
        else if v.length = symSize e.sym then
          .next { take (.acsym h v) (afterSlot ch (k + symRun e.sym + 1)) s with
            co := putRun s.co k (symRun e.sym) (readInt v) }
        else .refused .elementOutOfPlace
      | none => .refused .elementOutOfPlace
    | _ => .refused .elementOutOfPlace

/-! ## Running elements inside a command -/

/-- The position of the element the reader takes next: what the decoder must know (R91, R101). -/
def ReadPos.position (dtab : PerClass (List Entry)) : ReadPos → Position
  | .tableCount _ => .tableCount
  | .tableEntry c _ => if c.isDc then .dcEntry else .acEntry
  | .blockCount => .blockCount
  | .dcSymbol ch => .dcSymbol (dtab.get (dcClass ch))
  | .acSymbol ch k => .acSymbol (dtab.get (acClass ch)) k

/-- The next element in the stream of the running command: decoded from the unread bits, or the writer's next. -/
def nextElement (s : State) : Option (Except DecodeError Instr) :=
  match s.framer with
  | .rest => none
  | .writing i _ => some (.ok i)
  | .reading p => some ((decode (p.position s.dtab) s.unread).map Prod.fst)

/-- The meaning of a stream element; no command is one. -/
def runElement (i : Instr) (s : State) : Result :=
  match i with
  | .tcount n => execTcount n s
  | .dcent c h => execDcent c h s
  | .acent r z h => execAcent r z h s
  | .bcount n => execBcount n s
  | .dcsym h v => execDcsym h v s
  | .acsym h v => execAcsym h v s
  | .nop | .reset | .encStart | .encPush | .encBuild | .encWriteHdr | .encWritePair | .encFinish
  | .decStart | .decReadHdr | .decReadPair => .refused .elementOutOfPlace

/-- Run stream elements, at most `n`, until the framer is at rest. An element the decoder rejects raises its fault. -/
def runElements : Nat → State → Result
  | 0, s => if s.framer = .rest then .next s else .fault .loopBound
  | n + 1, s =>
    match nextElement s with
    | none => .next s
    | some (.error e) => .next (raise e.errCode s)
    | some (.ok i) =>
      match runElement i s with
      | .next t => runElements n t
      | .fault f => .fault f
      | .refused f => .refused f

/-- Write a list of elements (R66), the first of which is `i`. -/
def writeElements (i : Instr) (is : List Instr) (s : State) : Result :=
  runElements (is.length + 1) { s with framer := .writing i is }

/-- Read elements from a place of the grammar on. Every element takes at least one bit, so there are at most as many as
unread bits (R260). -/
def readElements (p : ReadPos) (s : State) : Result :=
  runElements (s.unreadCount + 1) { s with framer := .reading p }

end Sys2Proof.Machine
end

