-- ==== Sys2Proof/Machine/Decoding.lean ====
section
/-! DEFINITION. The decode commands (R269 to R271). -/

namespace Sys2Proof.Machine

/-- The state in which a decode begins (R269). -/
def beginDecode (s : State) : State :=
  { s with dtab := ⟨[], [], [], []⟩, rpos := 0, blk := 0, ch := 0, phase := .decHdr }

/-- DEC_START (R269). -/
def execDecStart (s : State) : Result :=
  whenLegal (s.phase = .idle) s fun s =>
    if s.bsCap < s.bslen.toNat then .next (raise .eIo s) else .next (beginDecode s)

/-- The header is read (R270). -/
def endHeader (s : State) : State :=
  { rewind s with phase := if s.nblk = 0 then .done else .decBlocks }

/-- DEC_READ_HDR (R270). -/
def execDecReadHdr (s : State) : Result :=
  whenLegal (s.phase = .decHdr) s fun s => andThen (readElements (.tableCount .dcLuma) s) endHeader

/-- A pair is read (R271): the cursor advances; after the last pair the operation is over. -/
def endPair (s : State) : State :=
  let t := advance s
  if t.atEnd then { t with phase := .done } else t

/-- DEC_READ_PAIR (R271). -/
def execDecReadPair (s : State) : Result :=
  whenLegal (s.phase = .decBlocks) s fun s => andThen (readElements (.dcSymbol s.ch) s) endPair

end Sys2Proof.Machine
end

