-- ==== Sys2Proof/Machine/Container.lean ====
section
/-! DEFINITION. The framer's writer: which stream elements `WriteTable` (R221), `WriteBlockCount` (R223) and `WritePair`
(R224) emit, in order. Pure functions. -/

namespace Sys2Proof.Machine

/-- The element of one table entry (R221). The `ubits` of a field that is too wide raises `E_WIDTH` (R131); no table that
`ENC_BUILD` makes has one (R196, log 14). -/
def entryElement (c : SymClass) (e : Nat × Bits) : Except ErrCode Instr :=
  if c.isDc then
    if e.1 < 16 ∧ e.2.length < 16 then .ok (.dcent (BitVec.ofNat 4 e.1) e.2) else .error .eWidth
  else
    if symRun e.1 < 16 ∧ e.2.length < 256 then
      .ok (.acent (BitVec.ofNat 4 (symRun e.1)) (BitVec.ofNat 4 (symSize e.1)) e.2)
    else .error .eWidth

/-- The elements of the entries of a table, in its order: rising symbols (R222). -/
def entryElements (c : SymClass) : CodeTable → Except ErrCode (List Instr)
  | [] => .ok []
  | e :: t =>
    match entryElement c e, entryElements c t with
    | .ok i, .ok is => .ok (i :: is)
    | .error x, _ => .error x
    | .ok _, .error x => .error x

/-- `WriteTable(c)` (R221). -/
def tableElements (c : SymClass) (t : CodeTable) : Except ErrCode (List Instr) :=
  if t.length < 2 ^ 16 then
    (entryElements c t).map fun is => .tcount (BitVec.ofNat 16 t.length) :: is
  else .error .eWidth

/-- The four table sections in the fixed order, then the block count (R220, R266). -/
def headerElements (etab : PerClass CodeTable) (nblk : Word) : Except ErrCode (List Instr) := do
  let t0 ← tableElements .dcLuma etab.dcLuma
  let t1 ← tableElements .acLuma etab.acLuma
  let t2 ← tableElements .dcChroma etab.dcChroma
  let t3 ← tableElements .acChroma etab.acChroma
  return t0 ++ t1 ++ t2 ++ t3 ++ [.bcount nblk]

/-- The elements of run-length items (R224): each symbol's code and its value bits; `none` if a symbol has no code. -/
def acElements (t : CodeTable) : List RunItem → Option (List Instr)
  | [] => some []
  | it :: its =>
    match t.code (symIndex it.run it.size), acElements t its with
    | some h, some is => some (.acsym h it.val :: is)
    | _, _ => none

/-- `WritePair(p, ch)` (R224): the DC symbol and the AC symbols after it. -/
def pairElements (etab : PerClass CodeTable) (ch : BitVec 2) (p : Pair) : Option (Instr × List Instr) :=
  match (etab.get (dcClass ch)).code (bitsRequired (Pair.dc p)),
    acElements (etab.get (acClass ch)) (rle (Pair.ac p)) with
  | some h, some is => some (.dcsym h (ibits (Pair.dc p)), is)
  | _, _ => none

end Sys2Proof.Machine
end

