-- ==== Sys2Proof/Machine/Encode.lean ====
section
/-! DEFINITION. The encode commands (R263 to R268). -/

namespace Sys2Proof.Machine

/-- The state in which an encode begins (R263). -/
def beginEncode (s : State) : State :=
  { s with
    cbuf := [], freq := ⟨[], [], [], []⟩, etab := ⟨[], [], [], []⟩, out := [], wpos := 0, blk := 0, ch := 0,
    phase := .encCollect }

/-- ENC_START (R263). -/
def execEncStart (s : State) : Result :=
  whenLegal (s.phase = .idle) s fun s =>
    if s.cbufBlocks < s.nblk.toNat then .next (raise .eCap s) else .next (beginEncode s)

/-- Every coefficient is one the format can hold: none is -32768 (R22, R264). -/
def legalPair (p : Pair) : Bool := p.toList.all fun v => v ≠ 0x8000

/-- ENC_PUSH (R264). -/
def execEncPush (s : State) : Result :=
  whenLegal (s.phase = .encCollect && !s.atEnd) s fun s =>
    if legalPair s.co then .next (advance { s with cbuf := s.cbuf ++ [s.co] })
    else .next (raise .eWidth s)

/-- The pairs of the image: `CBUF[0]` to `CBUF[3·NBLK - 1]` (R190). -/
def State.imagePairs (s : State) : List Pair := s.cbuf.take (3 * s.nblk.toNat)

/-- ENC_BUILD (R265). -/
def execEncBuild (s : State) : Result :=
  whenLegal (s.phase = .encCollect && s.atEnd) s fun s =>
    let f := frequencies s.imagePairs
    .next { rewind s with freq := f, etab := buildTables f, phase := .encReady }

/-- ENC_WRITE_HDR (R266). -/
def execEncWriteHdr (s : State) : Result :=
  whenLegal (s.phase = .encReady) s fun s =>
    match headerElements s.etab s.nblk with
    | .ok (i :: is) => andThen (writeElements i is s) fun t => { t with phase := .encBlocks }
    | .ok [] => .next { s with phase := .encBlocks }
    | .error e => .next (raise e s)

/-- ENC_WRITE_PAIR (R267). -/
def execEncWritePair (s : State) : Result :=
  whenLegal (s.phase = .encBlocks && !s.atEnd) s fun s =>
    match s.cbuf[s.pairIndex]? with
    | none => .fault .missingPair
    | some p =>
      match pairElements s.etab s.ch p with
      | none => .fault .missingCode
      | some (i, is) => andThen (writeElements i is s) advance

/-- The container is stored in `BS`, its length in `BSLEN` (R268). -/
def storeContainer (s : State) : State :=
  let n := s.wpos.toNat / 8
  { s with
    bslen := BitVec.ofNat 64 n, bs := Memory.store s.bs 0 (packBytes n s.out), phase := .done }

/-- ENC_FINISH (R268): when the padded container does not fit, any byte of `BS` may have been written (U2, log 8). -/
def execEncFinish (s : State) : Result :=
  whenLegal (s.phase = .encBlocks && s.atEnd) s fun s =>
    let t := writeBits (padding s.wpos.toNat) s
    if t.bsCap < t.wpos.toNat / 8 then .next (raiseOver t.bsCap .eIo t) else .next (storeContainer t)

end Sys2Proof.Machine
end

