-- ==== Sys2Proof/Machine/Dispatch.lean ====
section
/-! DEFINITION. One arm per instruction. -/

namespace Sys2Proof.Machine

def exec (i : Instr) (s : State) : Host.Outcome State Fault Refusal :=
  match i with
  -- the commands (R110)
  | .nop => Sys2Proof.Machine.execNop s
  | .reset => Sys2Proof.Machine.execReset s
  | .encStart => Sys2Proof.Machine.execEncStart s
  | .encPush => Sys2Proof.Machine.execEncPush s
  | .encBuild => Sys2Proof.Machine.execEncBuild s
  | .encWriteHdr => Sys2Proof.Machine.execEncWriteHdr s
  | .encWritePair => Sys2Proof.Machine.execEncWritePair s
  | .encFinish => Sys2Proof.Machine.execEncFinish s
  | .decStart => Sys2Proof.Machine.execDecStart s
  | .decReadHdr => Sys2Proof.Machine.execDecReadHdr s
  | .decReadPair => Sys2Proof.Machine.execDecReadPair s
  -- the stream formats (R92 to R97)
  | .tcount n => Sys2Proof.Machine.execTcount n s
  | .dcent c h => Sys2Proof.Machine.execDcent c h s
  | .acent r z h => Sys2Proof.Machine.execAcent r z h s
  | .bcount n => Sys2Proof.Machine.execBcount n s
  | .dcsym h v => Sys2Proof.Machine.execDcsym h v s
  | .acsym h v => Sys2Proof.Machine.execAcsym h v s

end Sys2Proof.Machine
end

