-- ==== Sys2Proof/Machine/Flags.lean ====
section
/-! DEFINITION. The status flags and the register `STATUS`, all of them views of `PHASE` (R23, R31). -/

namespace Sys2Proof.Machine

/-- The number of a phase (R24). -/
def Phase.bits : Phase → BitVec 4
  | .idle => 0
  | .encCollect => 1
  | .encReady => 2
  | .encBlocks => 3
  | .decHdr => 4
  | .decBlocks => 5
  | .done => 6
  | .fault => 15

/-- `STATUS.FAULT` (R23). -/
def State.faultFlag (s : State) : Bool := s.phase.bits = 15

/-- `STATUS.DONE` (R23). -/
def State.doneFlag (s : State) : Bool := s.phase.bits = 6

/-- `STATUS.BUSY`: reads 0 in a model whose commands are atomic (R31, D22). -/
def State.busyFlag (_ : State) : Bool := false

/-- `STATUS` (R23): `PHASE` in bits 3 to 0, `FAULT`, `DONE`, `BUSY` above it, zeros above them. -/
def State.status (s : State) : Word :=
  (0 : BitVec 25) ++ BitVec.ofBool s.busyFlag ++ BitVec.ofBool s.doneFlag ++ BitVec.ofBool s.faultFlag ++ s.phase.bits

end Sys2Proof.Machine
end

