-- ==== Sys2Proof/Machine/Bus.lean ====
section
/-! DEFINITION. The host's side: the register map (R23), host accesses to `BS` (R72), and which instruction the machine runs
next. -/

namespace Sys2Proof.Machine

/-! ## The register map -/

/-- The index of the coefficient register at an offset: `0x100 + 4·i` (R23). -/
def coIndex (offset : BitVec 9) : Option Nat :=
  if 0x100 ≤ offset.toNat ∧ offset.toNat % 4 = 0 then some ((offset.toNat - 0x100) / 4) else none

/-- What a host read at an offset returns (R23): `CMD` and unmapped offsets read 0, `CO[i]` is sign-extended. -/
def readReg (offset : BitVec 9) (s : State) : Word :=
  match coIndex offset with
  | some i => (s.co.toList.getD i 0).signExtend 32
  | none =>
    match offset.toNat with
    | 0x004 => s.status
    | 0x008 => s.err.setWidth 32
    | 0x00C => s.nblk
    | 0x010 => s.blk
    | 0x014 => s.ch.setWidth 32
    | 0x018 => s.wpos.extractLsb' 0 32
    | 0x01C => s.wpos.extractLsb' 32 32
    | 0x020 => s.rpos.extractLsb' 0 32
    | 0x024 => s.rpos.extractLsb' 32 32
    | 0x028 => s.bslen.extractLsb' 0 32
    | 0x02C => s.bslen.extractLsb' 32 32
    | _ => 0

/-- The offset of `CMD` (R23). -/
def cmdOffset : BitVec 9 := 0x000

/-- A host write at an offset other than that of `CMD` (R23): `NBLK` and `BSLEN` take it in phase IDLE, `CO[i]` takes its low
16 bits at any time; every other write is ignored (D26). -/
def writeReg (offset : BitVec 9) (v : Word) (s : State) : State :=
  match coIndex offset with
  | some i => { s with co := s.co.setIfInBounds i (v.extractLsb' 0 16) }
  | none =>
    if s.phase = .idle then
      match offset.toNat with
      | 0x00C => { s with nblk := v }
      | 0x028 => { s with bslen := s.bslen.extractLsb' 32 32 ++ v }
      | 0x02C => { s with bslen := v ++ s.bslen.extractLsb' 0 32 }
      | _ => s
    else s

/-- A host read. In FAULT every element but `PHASE` and `ERR` reads as any value: a new draw (R310, log 9). -/
def hostRead (offset : BitVec 9) (s : State) : State :=
  let t := if s.phase = .fault then scramble s else s
  { t with rdata := readReg offset t }

/-! ## Host accesses to `BS` -/

/-- The host owns `BS` in IDLE and DONE (R72). -/
def State.hostOwnsBs (s : State) : Bool := s.phase = .idle || s.phase = .done

/-- An access to byte `addr` of `BS`, if the host may make it now and there is such a byte (log 10, 11). -/
def hostBs (addr : Nat) (s : State) (access : State → State) : Result :=
  if !s.hostOwnsBs then .refused .bsNotHosts
  else if s.bsCap ≤ addr then .fault .noSuchByte
  else .next (access s)

/-! ## Fetching -/

/-- What a step does: run an instruction in a state, or nothing more than an outcome already settled. -/
inductive Fetched where
  | run (i : Instr) (s : State)
  | settled (r : Result)

/-- A word written to `CMD` (R105): a command to run; an undefined code raises `E_CMD`, but is ignored in FAULT (R273, R274). -/
def fetchCommand (w : Word) (s : State) : Fetched :=
  match decodeCommand w with
  | .ok i => .run i s
  | .error e => if s.phase = .fault then .settled (.next s) else .settled (.next (raise e.errCode s))

/-- One host access (log 1). -/
def fetchAccess (a : HostAccess) (s : State) : Fetched :=
  match a with
  | .regWrite offset v => if offset = cmdOffset then fetchCommand v s else .settled (.next (writeReg offset v s))
  | .regRead offset => .settled (.next (hostRead offset s))
  | .bsRead addr => .settled (hostBs addr s fun s => { s with rdata := (Memory.read s.bs addr).setWidth 32 })
  | .bsWrite addr b => .settled (hostBs addr s fun s => { s with bs := Memory.write s.bs addr b })
  | .hwReset => .settled (.next (resetState s))

end Sys2Proof.Machine
end

