-- ==== Sys2Proof/Machine/Fetch.lean ====
section
/-! DEFINITION. Where the next instruction comes from, and how a word of the opcode table is placed there. -/

namespace Sys2Proof.Machine

/-- What a step does next. While a command's framer stands in the stream, its next element; between commands, which is
where every command leaves it (log 3), the host's next access; with none, the block waits (R41). -/
def fetch (s : State) : Fetched :=
  match nextElement s with
  | some (.ok i) => .run i s
  | some (.error e) => .settled (.next (raise e.errCode s))
  | none =>
    match s.bus with
    | [] => .settled (.next s)
    | a :: rest => fetchAccess a { s with bus := rest }

/-- A state in which a reader stands at `p`, in phase `ph` with the tables `d`, before the bits `b` in `BS` (log 15). -/
def placeInStream (p : ReadPos) (ph : Phase) (d : PerClass (List Entry)) (b : Bits) (s : State) : State :=
  { s with
    phase := ph, framer := .reading p, dtab := d, rpos := 0, bslen := BitVec.ofNat 64 tableWordBytes,
    bs := Memory.store s.bs 0 (packBytes tableWordBytes b) }

/-- Place a table row's word where the next step takes its instruction (log 15): a command as the host's next write to
`CMD`; a stream element before a reader that stands at its place of the grammar. -/
def placeTableWord (nbits w : Nat) (s : State) : State :=
  let b := tableWordBits (patternBits nbits) w
  match tablePosition nbits w with
  | some .command => { s with framer := .rest, bus := .regWrite cmdOffset (BitVec.ofNat 32 w) :: s.bus }
  | some .tableCount => placeInStream (.tableCount .dcLuma) .decHdr s.dtab b s
  | some .dcEntry => placeInStream (.tableEntry .dcLuma 1) .decHdr ⟨[], [], [], []⟩ b s
  | some .acEntry => placeInStream (.tableEntry .acLuma 1) .decHdr ⟨[], [], [], []⟩ b s
  | some .blockCount => placeInStream .blockCount .decHdr s.dtab b s
  | some (.dcSymbol tab) => placeInStream (.dcSymbol 0) .decBlocks ⟨tab, [], [], []⟩ b s
  | some (.acSymbol tab k) => placeInStream (.acSymbol 0 k) .decBlocks ⟨[], tab, [], []⟩ b s
  | none => s

end Sys2Proof.Machine
end

