-- ==== Sys2Proof/Machine/Step.lean ====
section
/-! DEFINITION. One step, and placing a word where the next step takes its instruction. -/

namespace Sys2Proof.Machine

/-- One step: one host access with the whole of the command it issues (R12: atomic), or, in a state whose framer is not at
rest, one stream element. -/
def step (s : State) : Host.Outcome State Fault Refusal :=
  match fetch s with
  | .run i t => exec i t
  | .settled r => r

/-- `s` with the instruction of a table row's word placed so that the next step runs it (log 15). -/
def State.withFetchWord (s : State) (nbits w : Nat) : State := placeTableWord nbits w s

end Sys2Proof.Machine
end

