-- ==== Sys2Proof/Machine/Glue.lean ====
section
/-! DEFINITION. The glue around the block (R6, R150): the zigzag mapper (R151 to R154) and the quantizer (R155 to R157), as
pure functions. No command uses them (log 16, 23). -/

namespace Sys2Proof.Machine

/-- A matrix by rows. -/
abbrev Block := List (List Int)

/-- `block[r][c]`, 0 outside the matrix. -/
def Block.at (m : Block) (p : Nat × Nat) : Int := (m.getD p.1 []).getD p.2 0

/-! ## Zigzag mapper -/

/-- The positions of an anti-diagonal, in rising row order (R151). -/
def diagonal (rows cols s : Nat) : List (Nat × Nat) :=
  (List.range rows).filterMap fun r => if r ≤ s ∧ s - r < cols then some (r, s - r) else none

/-- `zigzag_points(rows, cols)` (R151): even diagonals run up and right. PRESUMED, the JPEG order that D27 takes: log 17. -/
def zigzagPoints (rows cols : Nat) : List (Nat × Nat) :=
  (List.range (rows + cols - 1)).flatMap fun s =>
    if s % 2 = 0 then (diagonal rows cols s).reverse else diagonal rows cols s

/-- The 8×8 order `ZZ`, as `8·row + col` (R152). -/
def zz : List Nat :=
  [0, 1, 8, 16, 9, 2, 3, 10, 17, 24, 32, 25, 18, 11, 4, 5] ++
  [12, 19, 26, 33, 40, 48, 41, 34, 27, 20, 13, 6, 7, 14, 21, 28] ++
  [35, 42, 49, 56, 57, 50, 43, 36, 29, 22, 15, 23, 30, 37, 44, 51] ++
  [58, 59, 52, 45, 38, 31, 39, 46, 53, 60, 61, 54, 47, 55, 62, 63]

/-- `block_to_zigzag` (R153). -/
def blockToZigzag (m : Block) : List Int :=
  (zigzagPoints m.length (m.getD 0 []).length).map m.at

/-- The side of a square of `n` elements, if `n` is a perfect square. -/
def squareSide (n : Nat) : Option Nat := (List.range (n + 1)).find? fun k => k * k = n

/-- `zigzag_to_block` (R154): `E_SHAPE` for a length that is not a perfect square, answered to the caller (log 28). -/
def zigzagToBlock (seq : List Int) : Except ErrCode Block :=
  match squareSide seq.length with
  | none => .error .eShape
  | some n => .ok ((List.range n).map fun r => (List.range n).map fun c =>
      seq.getD ((zigzagPoints n n).idxOf (r, c)) 0)

/-! ## Quantizer -/

/-- `round` (R155): the nearest integer; at an exact half the open parameter `ROUND_TIES` decides (D28, log 16). -/
def roundQuotient (q : Rat) : Int :=
  if q - q.floor < 1 / 2 then q.floor
  else if 1 / 2 < q - q.floor then q.floor + 1
  else if Config.tieRoundsUp q.floor then q.floor + 1 else q.floor

/-- `block.shape == table.shape` (R155). -/
def sameShape {α : Type} (block : List (List α)) (table : Block) : Bool :=
  block.map List.length = table.map List.length

/-- `quantize(block, table)` (R155): real division, then `round`, element by element; `E_SHAPE` on a shape mismatch,
answered to the caller (log 28). -/
def quantize (block : List (List Rat)) (table : Block) : Except ErrCode Block :=
  if sameShape block table then
    .ok (List.zipWith (List.zipWith fun (x : Rat) (q : Int) => roundQuotient (x / q)) block table)
  else .error .eShape

/-- `dequantize(block, table)` (R156): the exact product, element by element. DESIGN CHOICE: for a block and a table of
different shapes R156 states no fault and no result, and the result is a free value (log 26). -/
def dequantize (block table : Block) : Block :=
  if sameShape block table then List.zipWith (List.zipWith (· * ·)) block table
  else Config.dequantizeMismatch block table

/-- An 8×8 table of positive integers (R157) as a matrix by rows. -/
def tableRows (t : Vector (Vector PNat 8) 8) : Block := t.toList.map fun r => r.toList.map fun q => (q.val : Int)

/-- The quantization table of a channel's role (R157). -/
def quantTable (ch : BitVec 2) : Block := tableRows (if ch = 0 then Config.qtLuma else Config.qtChroma)

/-! ## Between the glue and the coefficient port -/

/-- The 64 registers `CO` after the values of a zigzag sequence are written to them, element 0 being DC and elements 1 to 63 AC
(R150, R22; the split is `Pair.dc`, `Pair.ac`). A write keeps bits [15:0] (R23); that the values lie in the port's range is
the host's duty (R155, log 27). -/
def pairOfZigzag (seq : List Int) : Pair := Vector.ofFn fun i => BitVec.ofInt 16 (seq.getD i.val 0)

/-- The values of a pair in zigzag order, DC first (R22, R150). -/
def zigzagOfPair (p : Pair) : List Int := p.toList.map BitVec.toInt

/-- The glue on encode (R150): quantize with the channel's table, read out in zigzag order, as the pair to be pushed. -/
def encodeGlue (ch : BitVec 2) (coeffs : List (List Rat)) : Except ErrCode Pair :=
  (quantize coeffs (quantTable ch)).map fun b => pairOfZigzag (blockToZigzag b)

/-- The glue on decode (R150): a pair back from zigzag order, dequantized with the channel's table. -/
def decodeGlue (ch : BitVec 2) (p : Pair) : Except ErrCode Block :=
  (zigzagToBlock (zigzagOfPair p)).map fun b => dequantize b (quantTable ch)

end Sys2Proof.Machine
end

