-- ==== Sys2Proof/Machine/Macros.lean ====
section
/-! DEFINITION. The pseudo-commands of R114: the encode and the decode of one image, each an expansion into commands and host
accesses; and the path of one block through the glue to the port and back (R150). -/

namespace Sys2Proof.Machine

/-- Go on in the next state. -/
def Result.bind (r : Result) (k : State → Result) : Result :=
  match r with
  | .next s => k s
  | .fault f => .fault f
  | .refused f => .refused f

/-- The same command `n` times. -/
def repeatExec (i : Instr) : Nat → State → Result
  | 0, s => .next s
  | n + 1, s => Result.bind (exec i s) (repeatExec i n)

/-- `CO <- p; ENC_PUSH` for each pair. -/
def pushPairs : List Pair → State → Result
  | [], s => .next s
  | p :: ps, s => Result.bind (exec .encPush { s with co := p }) (pushPairs ps)

/-- `ENCODE_IMAGE(pairs)` (R114): three pairs to a block. -/
def encodeImage (ps : List Pair) (s : State) : Result :=
  Result.bind (exec .reset s) fun s =>
  Result.bind (exec .encStart { s with nblk := BitVec.ofNat 32 (ps.length / 3) }) fun s =>
  Result.bind (pushPairs ps s) fun s =>
  Result.bind (exec .encBuild s) fun s =>
  Result.bind (exec .encWriteHdr s) fun s =>
  Result.bind (repeatExec .encWritePair ps.length s) fun s =>
  exec .encFinish s

/-- The container in `BS[0..BSLEN-1]` (R276). -/
def State.container (s : State) : List Byte := (List.range s.bslen.toNat).map (Memory.read s.bs)

/-- What a whole decode gives its caller: all pairs or a fault code, never a part of the pairs (R347). -/
inductive ImageResult where
  /-- The operation ended in DONE with these pairs, in this state, whose `NBLK` is part of the result (R276). -/
  | pairs (ps : List Pair) (s : State)
  /-- The operation ended in FAULT with this code in `ERR`. -/
  | failed (err : BitVec 8)
  /-- The model stopped, or the loop did not end within its bound; no run does either. -/
  | stopped
  deriving DecidableEq, Repr

/-- `while PHASE = DEC_BLOCKS: DEC_READ_PAIR; copy CO out` (R114), at most `n` times; `got` is what was copied out so far. -/
def readPairs : Nat → List Pair → State → ImageResult
  | n, got, s =>
    if s.phase = .done then .pairs got s
    else if s.phase = .fault then .failed s.err
    else match n with
      | 0 => .stopped
      | n + 1 =>
        match exec .decReadPair s with
        | .next t => readPairs n (got ++ [t.co]) t
        | _ => .stopped

/-- `DECODE_IMAGE(bytes)` (R114). -/
def decodeImage (bytes : List Byte) (s : State) : ImageResult :=
  let r :=
    Result.bind (exec .reset s) fun s =>
    Result.bind (exec .decStart
      { s with bs := Memory.store s.bs 0 bytes, bslen := BitVec.ofNat 64 bytes.length }) fun s =>
    exec .decReadHdr s
  match r with
  | .next s => readPairs (3 * s.nblk.toNat) [] s
  | _ => .stopped

/-! ## One block, through the glue (R150) -/

/-- Encode side: the transform output of the block and channel at the cursor is quantized, read out in zigzag order, written to
`CO` and pushed. DESIGN CHOICE: the glue's `E_SHAPE` is answered to the caller, pushes nothing and leaves the block's state, `ERR` and
`PHASE` among it, as it is (log 28). -/
def pushBlock (coeffs : List (List Rat)) (s : State) : Except ErrCode Result :=
  (encodeGlue s.ch coeffs).map fun p => pushPairs [p] s

/-- What the decode of one block gives its caller. -/
inductive BlockResult where
  /-- The block that the external inverse transform is given, and the next state. -/
  | block (b : Block) (s : State)
  /-- No block (R312): the code in `ERR`, or the glue's `E_SHAPE`, which is not written there (log 28). -/
  | failed (err : BitVec 8)
  /-- The model stopped; no run does. -/
  | stopped
  deriving DecidableEq, Repr

/-- Decode side: the next pair is decoded, and `CO` goes back through the glue with the table of the channel that the cursor named
before. -/
def readBlock (s : State) : BlockResult :=
  match exec .decReadPair s with
  | .next t =>
    if t.phase = .fault then .failed t.err
    else match decodeGlue s.ch t.co with
      | .ok b => .block b t
      | .error e => .failed e.code
  | _ => .stopped

end Sys2Proof.Machine
end

