-- ==== Sys2Proof/Safety.lean ====
section
/-! DEFINITION. What counts as a safe state, in the terms claims use: the memory's canonical form, the sequencer's
discipline (R24 to R30), the encode direction's buffers and tables (R32 to R34), the decode direction's tables and stream (R35,
R37, R71). -/

namespace Sys2Proof.Machine

/-- `BS` is in canonical form. -/
def State.MemoryOk (s : State) : Prop := Memory.wf s.bs = true

/-- The sequencer between two commands: no command is half done (R12, R20); `ERR` is zero outside FAULT and only there
(R25); the pair cursor is a cursor of the image (R27); `WPOS` counts the bits of `OUT` (R38). -/
structure State.SequencerOk (s : State) : Prop where
  atRest : s.framer = .rest
  capacity : s.bsCap < 2 ^ 61
  errFault : s.phase = .fault ↔ s.err ≠ 0
  channel : s.phase ≠ .fault → s.ch.toNat ≤ 2
  cursor : s.phase ≠ .fault → s.blk.toNat ≤ s.nblk.toNat
  cursorEnd : s.phase ≠ .fault → s.blk = s.nblk → s.ch = 0
  idleCursor : s.phase = .idle → s.blk = 0 ∧ s.ch = 0
  pairsRemain : s.phase = .decBlocks → s.blk ≠ s.nblk
  written : s.phase ≠ .fault → s.wpos = BitVec.ofNat 64 s.out.length

/-- Every coefficient of every buffered pair is one the format can hold (R264). -/
def legalPairs (ps : List Pair) : Prop := ∀ p ∈ ps, legalPair p = true

/-- The encode direction: `CBUF` holds the pairs pushed so far (R32), the tables are those of its pairs (R33, R34). -/
structure State.EncodeOk (s : State) : Prop where
  collect : s.phase = .encCollect →
    s.cbuf.length = s.pairIndex ∧ legalPairs s.cbuf ∧ s.nblk.toNat ≤ s.cbufBlocks
  built : s.phase = .encReady ∨ s.phase = .encBlocks →
    s.cbuf.length = 3 * s.nblk.toNat ∧ legalPairs s.cbuf ∧
    s.freq = frequencies s.cbuf ∧ s.etab = buildTables s.freq

/-- The greatest code length of a class (R196). -/
def maxCodeLength (c : SymClass) : Nat := if c.isDc then 15 else 255

/-- The number of symbols of a class (R13). -/
def symbolCount (c : SymClass) : Nat := if c.isDc then 16 else 256

/-- A decode table that `DTAB` can hold (R35): symbols and code lengths in range, codes distinct, a 16-bit count. -/
structure DecodeTableOk (c : SymClass) (tab : List Entry) : Prop where
  symbols : ∀ e ∈ tab, e.sym < symbolCount c
  lengths : ∀ e ∈ tab, 1 ≤ e.code.length ∧ e.code.length ≤ maxCodeLength c
  distinct : (tab.map Entry.code).Nodup
  count : tab.length ≤ 65535

/-- The decode direction: the stream lies inside `BS` (R71), the read cursor inside the stream (R29), the tables are tables
(R35). -/
structure State.DecodeOk (s : State) : Prop where
  bytes : ∀ c ∈ s.bs, c.1 < s.bsCap
  stored : s.phase = .decHdr ∨ s.phase = .decBlocks ∨ s.phase = .done → s.bslen.toNat ≤ s.bsCap
  start : s.phase = .decHdr → s.rpos = 0
  inside : s.phase = .decBlocks → s.rpos.toNat ≤ s.streamEnd
  tables : s.phase = .decBlocks → ∀ c, DecodeTableOk c (s.dtab.get c)

/-- A safe state. -/
structure State.Ok (s : State) : Prop where
  memory : s.MemoryOk
  sequencer : s.SequencerOk
  encode : s.EncodeOk
  decode : s.DecodeOk

/-- The commands, and no stream element (R90). -/
def isCommand : Instr → Bool
  | .nop | .reset => true
  | .encStart | .encPush | .encBuild | .encWriteHdr | .encWritePair | .encFinish => true
  | .decStart | .decReadHdr | .decReadPair => true
  | .tcount _ | .dcent _ _ | .acent _ _ _ | .bcount _ | .dcsym _ _ | .acsym _ _ => false

end Sys2Proof.Machine
end

