-- ==== Sys2Proof/Certificates/Slice0/Obligations.lean ====
section
/-! DEFINITION. The statements for the provers. The first part holds the terms they are made of, written from the spec's
rules and not from the machine's definitions where both exist. -/

namespace Sys2Proof.Claims

open Sys2Proof.Machine

/-! ## Terms: outcomes -/

/-- A fault is taken: the next state is in FAULT with this code in `ERR`. -/
def Raises (r : Result) (code : BitVec 8) : Prop := ∃ t, r = .next t ∧ t.phase = .fault ∧ t.err = code

/-- The state after reset (R41): everything of R20 at its reset value but `BS`; the host's queue, what it last read, the
capacities and the draw counter are not the block's and stay. -/
def afterReset (s : State) : State :=
  { s with
    phase := .idle, err := 0, nblk := 0, blk := 0, ch := 0, wpos := 0, rpos := 0, bslen := 0,
    co := Vector.replicate 64 0, cbuf := [], freq := ⟨[], [], [], []⟩, etab := ⟨[], [], [], []⟩,
    dtab := ⟨[], [], [], []⟩, out := [], framer := .rest }

/-- `advance()` (R27). -/
def advanced (s : State) : State :=
  { s with
    ch := if s.ch.toNat < 2 then s.ch + 1 else 0
    blk := if s.ch.toNat < 2 then s.blk else s.blk + 1 }

/-- What taking a fault leaves as it is (R310), `s` being the state in which the command or the step begins: the host's last
read and the capacities, the form of the memory, and the bytes of `BS` that the operation cannot have written (log 8): all outside
DONE, those from `BSLEN` on in DONE, those from `BS_CAP` on for the `E_IO` of `ENC_FINISH`. -/
def faultKeeps (s t : State) : Prop :=
  t.framer = .rest ∧ t.rdata = s.rdata ∧ t.bsCap = s.bsCap ∧ t.cbufBlocks = s.cbufBlocks ∧ (s.MemoryOk → t.MemoryOk) ∧
  if s.phase = .encBlocks ∧ t.err = 0x03 then
    s.MemoryOk → ∀ a, s.bsCap ≤ a → Memory.read t.bs a = Memory.read s.bs a
  else
    (s.phase ≠ .done → t.bs = s.bs) ∧
      (s.MemoryOk → ∀ a, s.bslen.toNat ≤ a → Memory.read t.bs a = Memory.read s.bs a)

/-! ## Terms: the opcode table and the register map -/

/-- The command codes (R110). -/
def commandTable : List (BitVec 8 × Instr) :=
  [(0x00, .nop), (0x01, .reset), (0x10, .encStart), (0x11, .encPush), (0x12, .encBuild), (0x13, .encWriteHdr),
   (0x14, .encWritePair), (0x15, .encFinish), (0x20, .decStart), (0x21, .decReadHdr), (0x22, .decReadPair)]

/-- "legal in phase" of R110, for the commands that have a legal phase. -/
def legalNow (i : Instr) (s : State) : Prop :=
  match i with
  | .encStart => s.phase = .idle
  | .encPush => s.phase = .encCollect ∧ s.blk ≠ s.nblk
  | .encBuild => s.phase = .encCollect ∧ s.blk = s.nblk
  | .encWriteHdr => s.phase = .encReady
  | .encWritePair => s.phase = .encBlocks ∧ s.blk ≠ s.nblk
  | .encFinish => s.phase = .encBlocks ∧ s.blk = s.nblk
  | .decStart => s.phase = .idle
  | .decReadHdr => s.phase = .decHdr
  | .decReadPair => s.phase = .decBlocks
  | _ => True

/-- The number of a phase (R24). -/
def phaseNumber : Phase → Nat
  | .idle => 0
  | .encCollect => 1
  | .encReady => 2
  | .encBlocks => 3
  | .decHdr => 4
  | .decBlocks => 5
  | .done => 6
  | .fault => 15

/-- `STATUS` (R23): `PHASE` in bits 3 to 0, `FAULT` in bit 4, `DONE` in bit 5, `BUSY` and the rest 0. -/
def statusWord (s : State) : Word :=
  BitVec.ofNat 32
    (phaseNumber s.phase + (if s.phase = .fault then 16 else 0) + (if s.phase = .done then 32 else 0))

/-- The register map (R23): offset and what a read returns. -/
def registerTable (s : State) : List (Nat × Word) :=
  [(0x000, 0), (0x004, statusWord s), (0x008, BitVec.ofNat 32 s.err.toNat), (0x00C, s.nblk), (0x010, s.blk),
   (0x014, BitVec.ofNat 32 s.ch.toNat),
   (0x018, BitVec.ofNat 32 s.wpos.toNat), (0x01C, BitVec.ofNat 32 (s.wpos.toNat / 2 ^ 32)),
   (0x020, BitVec.ofNat 32 s.rpos.toNat), (0x024, BitVec.ofNat 32 (s.rpos.toNat / 2 ^ 32)),
   (0x028, BitVec.ofNat 32 s.bslen.toNat), (0x02C, BitVec.ofNat 32 (s.bslen.toNat / 2 ^ 32))] ++
  s.co.toList.zipIdx.map fun x => (0x100 + 4 * x.2, BitVec.ofInt 32 x.1.toInt)

/-! ## Terms: the container's bits, from the formats of R92 to R97 -/

/-- One table entry (R93, R94). -/
def entryBits (c : SymClass) (e : Nat × Bits) : Bits :=
  if c.isDc then ubits e.1 4 ++ ubits e.2.length 4 ++ e.2
  else ubits (e.1 / 16) 4 ++ ubits (e.1 % 16) 4 ++ ubits e.2.length 8 ++ e.2

/-- One table section (R221). -/
def tableBits (c : SymClass) (t : CodeTable) : Bits := ubits t.length 16 ++ t.flatMap (entryBits c)

/-- The four table sections and the block count (R220). -/
def headerBits (t : PerClass CodeTable) (n : Word) : Bits :=
  tableBits .dcLuma t.dcLuma ++ tableBits .acLuma t.acLuma ++ tableBits .dcChroma t.dcChroma ++
    tableBits .acChroma t.acChroma ++ ubits n.toNat 32

/-- The code of a symbol (R199), the empty string if it has none. -/
def codeOf (t : CodeTable) (s : Nat) : Bits := (t.lookup s).getD []

/-- One coefficient pair (R224). -/
def pairBits (t : PerClass CodeTable) (ch : BitVec 2) (p : Pair) : Bits :=
  codeOf (t.get (dcClass ch)) (bitsRequired (Pair.dc p)) ++ ibits (Pair.dc p) ++
    (rle (Pair.ac p)).flatMap fun it => codeOf (t.get (acClass ch)) (16 * it.run + it.size) ++ it.val

/-- The symbols of the pair at position `i` in class `c` (R190): one category to the DC class of channel `i mod 3`, one
`16·run + size` for each run-length item to its AC class. -/
def symbolsOf (c : SymClass) (i : Nat) (p : Pair) : List Nat :=
  (if c = (if i % 3 = 0 then .dcLuma else .dcChroma) then [bitsRequired p[0].toInt] else []) ++
    if c = (if i % 3 = 0 then .acLuma else .acChroma) then
      (rle ((p.toList.drop 1).map BitVec.toInt)).map fun it => 16 * it.run + it.size
    else []

/-- The four tables of an image (R190, R192). -/
def imageTables (ps : List Pair) : PerClass CodeTable := PerClass.of fun c => huffBuild ((frequencies ps).get c)

/-- The container of `n` blocks before its padding (R220): the header, then the pairs, the one at position `i` being of channel
`i mod 3`. -/
def imageBits (ps : List Pair) (n : Nat) : Bits :=
  headerBits (imageTables ps) (BitVec.ofNat 32 n) ++
    ps.zipIdx.flatMap fun x => pairBits (imageTables ps) (BitVec.ofNat 2 (x.2 % 3)) x.1

/-- Every symbol of the pair has a code. -/
def HasCodes (t : PerClass CodeTable) (ch : BitVec 2) (p : Pair) : Prop :=
  ((t.get (dcClass ch)).lookup (bitsRequired (Pair.dc p))).isSome ∧
    ∀ it ∈ rle (Pair.ac p), ((t.get (acClass ch)).lookup (16 * it.run + it.size)).isSome

/-- A table that its section can carry (R92 to R94): a 16-bit count, symbols and code lengths in range. -/
def TableFits (c : SymClass) (t : CodeTable) : Prop :=
  t.length < 2 ^ 16 ∧
    ∀ e ∈ t, e.1 < symbolCount c ∧ 1 ≤ e.2.length ∧ e.2.length ≤ maxCodeLength c

/-- The four tables fit their sections. -/
def TablesFit (t : PerClass CodeTable) : Prop := ∀ c, TableFits c (t.get c)

/-- The decode table that a table section describes (R225). -/
def entriesOf (t : CodeTable) : List Entry := t.map fun e => ⟨e.1, e.2⟩

/-- Every code of `t` is a code of the decode table `d`, for the same symbol, and no shorter code of `d` hides it (R206). -/
def Readable (t : CodeTable) (d : List Entry) : Prop :=
  ∀ e ∈ t, e.2 ≠ [] ∧ ⟨e.1, e.2⟩ ∈ d ∧
    (∀ x ∈ d, x.code = e.2 → x.sym = e.1) ∧ ∀ x ∈ d, x.code ≠ [] → x.code <+: e.2 → x.code = e.2

/-! ## Terms: the glue -/

/-- `block[r][c]` of a real-valued matrix, 0 outside it. -/
def elementAt (b : List (List Rat)) (r c : Nat) : Rat := (b.getD r []).getD c 0

/-! ## Terms: the construction of R192 -/

/-- `x` comes first by `(w, ord)`, compared first by `w`, then by `ord`. -/
def FirstOf (x : HuffNode) (q : List HuffNode) : Prop := ∀ y ∈ q, x.w < y.w ∨ (x.w = y.w ∧ x.ord ≤ y.ord)

/-- The loop of R192 ends in this tree: while `Q` has more than one node, its first node `a` and the first of the others `b` are
replaced by a node with `a` left and `b` right, their weights added, and the next order number. -/
inductive Merges : Nat → List HuffNode → HuffTree → Prop
  | root (next : Nat) (x : HuffNode) : Merges next [x] x.tree
  | merge {next : Nat} {q rest : List HuffNode} {a b : HuffNode} {tree : HuffTree} :
    q.Perm (a :: b :: rest) → FirstOf a (b :: rest) → FirstOf b rest →
      Merges (next + 1) (⟨.node a.tree b.tree, a.w + b.w, next⟩ :: rest) tree → Merges next q tree

/-- The leaves of R192: `Leaf(sym = S[j], w = FREQ[c][S[j]], ord = j)`. -/
def leafNodes (t : FreqTable) : List HuffNode := t.zipIdx.map fun x => ⟨.leaf x.1.1, x.1.2, x.2⟩

/-- The symbol of the leaf at the end of a path from the root, 0 being left and 1 right (R193). -/
def symbolAt : HuffTree → Bits → Option Nat
  | .leaf s, [] => some s
  | .node l _, false :: p => symbolAt l p
  | .node _ r, true :: p => symbolAt r p
  | _, _ => none

/-! ## Terms: the reader -/

/-- A step inside the stream (log 3). -/
def elementStep (u t : State) : Prop := u.framer ≠ .rest ∧ step u = .next t

/-- The reader has come from a state to another by elements of the stream only. -/
def readsOnTo (s u : State) : Prop := Relation.ReflTransGen elementStep s u

/-- A stream element of the kind that a place of the grammar calls for (R91, R101). -/
def fitsPlace : ReadPos → Instr → Bool
  | .tableCount _, .tcount _ => true
  | .tableEntry c _, .dcent _ _ => c.isDc
  | .tableEntry c _, .acent _ _ _ => !c.isDc
  | .blockCount, .bcount _ => true
  | .dcSymbol _, .dcsym _ _ => true
  | .acSymbol _ _, .acsym _ _ => true
  | _, _ => false

/-- The place after `left` more entries of table `c` (R220, R225). -/
def placeAfter (c : SymClass) (left : Nat) : ReadPos :=
  if left = 0 then
    match c with
    | .dcLuma => .tableCount .acLuma
    | .acLuma => .tableCount .dcChroma
    | .dcChroma => .tableCount .acChroma
    | .acChroma => .blockCount
  else .tableEntry c left

/-- What a command may leave unchanged of R20 and of the model's own fields: the columns of R40 without a `w`. -/
def keptBy (i : Instr) (s t : State) : Prop :=
  t.cbufBlocks = s.cbufBlocks ∧ t.bsCap = s.bsCap ∧ t.bus = s.bus ∧ t.rdata = s.rdata ∧ t.draws = s.draws ∧
  match i with
  | .nop => t = s
  | .reset => t.bs = s.bs
  | .encStart =>
    t.err = s.err ∧ t.nblk = s.nblk ∧ t.rpos = s.rpos ∧ t.bslen = s.bslen ∧ t.co = s.co ∧ t.dtab = s.dtab ∧ t.bs = s.bs
  | .encPush =>
    t.phase = s.phase ∧ t.err = s.err ∧ t.nblk = s.nblk ∧ t.wpos = s.wpos ∧ t.rpos = s.rpos ∧ t.bslen = s.bslen ∧
    t.co = s.co ∧ t.freq = s.freq ∧ t.etab = s.etab ∧ t.dtab = s.dtab ∧ t.out = s.out ∧ t.bs = s.bs
  | .encBuild =>
    t.err = s.err ∧ t.nblk = s.nblk ∧ t.wpos = s.wpos ∧ t.rpos = s.rpos ∧ t.bslen = s.bslen ∧ t.co = s.co ∧
    t.cbuf = s.cbuf ∧ t.dtab = s.dtab ∧ t.out = s.out ∧ t.bs = s.bs
  | .encWriteHdr =>
    t.err = s.err ∧ t.nblk = s.nblk ∧ t.blk = s.blk ∧ t.ch = s.ch ∧ t.rpos = s.rpos ∧ t.bslen = s.bslen ∧
    t.co = s.co ∧ t.cbuf = s.cbuf ∧ t.freq = s.freq ∧ t.etab = s.etab ∧ t.dtab = s.dtab ∧ t.bs = s.bs
  | .encWritePair =>
    t.phase = s.phase ∧ t.err = s.err ∧ t.nblk = s.nblk ∧ t.rpos = s.rpos ∧ t.bslen = s.bslen ∧
    t.co = s.co ∧ t.cbuf = s.cbuf ∧ t.freq = s.freq ∧ t.etab = s.etab ∧ t.dtab = s.dtab ∧ t.bs = s.bs
  | .encFinish =>
    t.err = s.err ∧ t.nblk = s.nblk ∧ t.blk = s.blk ∧ t.ch = s.ch ∧ t.rpos = s.rpos ∧
    t.co = s.co ∧ t.cbuf = s.cbuf ∧ t.freq = s.freq ∧ t.etab = s.etab ∧ t.dtab = s.dtab
  | .decStart =>
    t.err = s.err ∧ t.nblk = s.nblk ∧ t.wpos = s.wpos ∧ t.bslen = s.bslen ∧ t.co = s.co ∧ t.cbuf = s.cbuf ∧
    t.freq = s.freq ∧ t.etab = s.etab ∧ t.out = s.out ∧ t.bs = s.bs
  | .decReadHdr =>
    t.err = s.err ∧ t.wpos = s.wpos ∧ t.bslen = s.bslen ∧ t.co = s.co ∧ t.cbuf = s.cbuf ∧
    t.freq = s.freq ∧ t.etab = s.etab ∧ t.out = s.out ∧ t.bs = s.bs
  | .decReadPair =>
    t.err = s.err ∧ t.nblk = s.nblk ∧ t.wpos = s.wpos ∧ t.bslen = s.bslen ∧ t.cbuf = s.cbuf ∧
    t.freq = s.freq ∧ t.etab = s.etab ∧ t.dtab = s.dtab ∧ t.out = s.out ∧ t.bs = s.bs
  | .tcount _ | .dcent _ _ | .acent _ _ _ | .bcount _ | .dcsym _ _ | .acsym _ _ => True

/-- The transitions of R260, other than those into FAULT. -/
def transition (i : Instr) (s t : State) : Prop :=
  match i with
  | .nop => t.phase = s.phase
  | .reset => t.phase = .idle
  | .encStart => s.phase = .idle ∧ t.phase = .encCollect
  | .encPush => s.phase = .encCollect ∧ s.blk ≠ s.nblk ∧ t.phase = .encCollect ∧
      t.ch = (advanced s).ch ∧ t.blk = (advanced s).blk
  | .encBuild => s.phase = .encCollect ∧ s.blk = s.nblk ∧ t.phase = .encReady ∧ t.blk = 0 ∧ t.ch = 0
  | .encWriteHdr => s.phase = .encReady ∧ t.phase = .encBlocks
  | .encWritePair => s.phase = .encBlocks ∧ s.blk ≠ s.nblk ∧ t.phase = .encBlocks ∧
      t.ch = (advanced s).ch ∧ t.blk = (advanced s).blk
  | .encFinish => s.phase = .encBlocks ∧ s.blk = s.nblk ∧ t.phase = .done
  | .decStart => s.phase = .idle ∧ t.phase = .decHdr
  | .decReadHdr => s.phase = .decHdr ∧ t.phase = if t.nblk = 0 then .done else .decBlocks
  | .decReadPair => s.phase = .decBlocks ∧ t.phase = if t.blk = t.nblk then .done else .decBlocks
  | .tcount _ | .dcent _ _ | .acent _ _ _ | .bcount _ | .dcsym _ _ | .acsym _ _ => t.phase = s.phase

/-- "raised by" of R301, for the commands. -/
def mayRaise : Instr → List (BitVec 8)
  | .encStart => [0x08, 0x0A]
  | .encPush => [0x08, 0x01]
  | .encBuild | .encWriteHdr | .encWritePair => [0x08]
  | .encFinish | .decStart => [0x08, 0x03]
  | .decReadHdr => [0x08, 0x06, 0x07]
  | .decReadPair => [0x08, 0x04, 0x05, 0x06]
  | _ => []

end Sys2Proof.Claims

open Sys2Proof Sys2Proof.Machine Sys2Proof.Claims

/-! ## The BitString codec -/

/-- R130: `bits_required(v)` is the smallest width in which `|v|` fits; it is 0 for 0. -/
def Obligations.BitsRequiredIsLeastWidth : Prop :=
  bitsRequired 0 = 0 ∧ ∀ (v : Int) (w : Nat), bitsRequired v ≤ w ↔ v.natAbs < 2 ^ w

/-- R131: `ubits(v, w)` has exactly `w` bits, bit `j` of them being bit `w-1-j` of `v`, and fails with `E_WIDTH` exactly when `v`
does not fit. -/
def Obligations.UbitsWritesExactWidth : Prop :=
  ∀ v w : Nat,
    (v < 2 ^ w → ∃ b, ubitsChecked v w = .ok b ∧ b.length = w ∧ uval b = v ∧
      ∀ j, j < w → b[j]? = some (v.testBit (w - 1 - j))) ∧
    (2 ^ w ≤ v → ubitsChecked v w = .error .eWidth)

/-- R135: `read_int` and `ibits` are inverse to each other, at the width `bits_required` gives. -/
def Obligations.SignedValueRoundTrip : Prop :=
  (∀ v : Int, readInt (ibits v) = v ∧ (ibits v).length = bitsRequired v) ∧
  ∀ b : Bits, ibits (readInt b) = b ∧ bitsRequired (readInt b) = b.length

/-- R136, R134: what `read_int` makes of the bit strings of a width, and that every value of a category is reached once. -/
def Obligations.ReadIntCoversCategory : Prop :=
  ∀ w : Nat, 1 ≤ w →
    (∀ b : Bits, b.length = w →
      (b.head? = some true → readInt b = uval b ∧ 2 ^ (w - 1) ≤ readInt b ∧ readInt b ≤ 2 ^ w - 1) ∧
      (b.head? = some false →
        readInt b = uval b - (2 ^ w - 1) ∧ -(2 ^ w - 1) ≤ readInt b ∧ readInt b ≤ -2 ^ (w - 1))) ∧
    ∀ v : Int, 2 ^ (w - 1) ≤ |v| → |v| ≤ 2 ^ w - 1 → ∃! b : Bits, b.length = w ∧ readInt b = v

/-! ## The run-length coder -/

/-- R180: decoding the items of a 63-element sequence gives the sequence back and consumes exactly those items; the
all-zero sequence is one end-of-block item. -/
def Obligations.RunLengthRoundTrip : Prop :=
  (∀ S : List Int, S.length = 63 → rld (rle S) = some S) ∧ rle (List.replicate 63 0) = [⟨0, 0, []⟩]

/-- R175: the shape of an encoded sequence. -/
def Obligations.RunLengthShape : Prop :=
  ∀ S : List Int, S.length = 63 →
    (1 ≤ (rle S).length ∧ (rle S).length ≤ 63) ∧
    (∀ it ∈ (rle S).dropLast, ¬(it.run = 0 ∧ it.size = 0)) ∧
    ((⟨0, 0, []⟩ : RunItem) ∈ rle S ↔ S.getLast? = some 0) ∧
    (∀ it ∈ rle S, it.run ≤ 15 ∧ it.val.length = it.size ∧ (it.size = 0 → it.run = 0 ∨ it.run = 15)) ∧
    (∀ it ∈ rle S, 1 ≤ it.size → ∃ a ∈ S, a ≠ 0 ∧ it.size = bitsRequired a ∧ it.val = ibits a) ∧
    (∀ it, (rle S).getLast? = some it → it.size = 0 → it.run = 0) ∧
    (∀ front it back, rle S = front ++ it :: back → it.run = 15 → it.size = 0 → ∃ x ∈ back, 1 ≤ x.size) ∧
    (S.getLast? ≠ some 0 → ((rle S).map fun it => it.run + 1).sum = 63) ∧
    (S.getLast? = some 0 → ((rle S).dropLast.map fun it => it.run + 1).sum < 63)

/-! ## The Huffman coder -/

/-- R190: `FREQ[c][s]` is the number of occurrences of symbol `s` in class `c`, over all pairs, the pair at position `i` being of
channel `i mod 3`; one category per pair makes the totals of the DC classes the number of luma and of chroma pairs. -/
def Obligations.FrequenciesCountSymbols : Prop :=
  (∀ (ps : List Pair) (c : SymClass) (s : Nat), s < 256 →
    ((frequencies ps).get c).at s = (ps.zipIdx.map fun x => (symbolsOf c x.2 x.1).count s).sum) ∧
  ∀ (ps : List Pair) (n : Nat), ps.length = 3 * n →
    ((frequencies ps).dcLuma.map Prod.snd).sum = n ∧ ((frequencies ps).dcChroma.map Prod.snd).sum = 2 * n

/-- R191 (a) to (c): exactly the symbols of the alphabet get a code, every code has at least one bit, and no code is a
beginning of another. -/
def Obligations.BuiltCodesArePrefixFree : Prop :=
  ∀ t : FreqTable, (t.map Prod.fst).Nodup →
    (huffBuild t).map Prod.fst = t.map Prod.fst ∧
    (∀ e ∈ huffBuild t, 1 ≤ e.2.length) ∧
    ∀ a ∈ huffBuild t, ∀ b ∈ huffBuild t, a.1 ≠ b.1 → ¬ a.2 <+: b.2

/-- R192, R193, R196, R197: for `n ≥ 2` symbols the codes are the paths of the tree that the merges of the two least nodes give,
the first node taken being the left child; the code is complete and no code is longer than `n - 1`. -/
def Obligations.BuiltTreeIsFull : Prop :=
  ∀ t : FreqTable, (t.map Prod.fst).Nodup → 2 ≤ t.length →
    (∃ tree, Merges t.length (leafNodes t) tree ∧ ∀ s h, (s, h) ∈ huffBuild t ↔ symbolAt tree h = some s) ∧
    ((huffBuild t).map fun e => (1 / 2 : Rat) ^ e.2.length).sum = 1 ∧
    ∀ e ∈ huffBuild t, e.2.length ≤ t.length - 1

/-- R205: the matched code is the shortest beginning of the stream that is a code of the table, and the matcher fails only
when no beginning is one. -/
def Obligations.MatcherFindsShortestCode : Prop :=
  ∀ (tab : List Entry) (b : Bits),
    (∀ e r, huffMatch tab [] b = some (e, r) ↔
      b = e.code ++ r ∧ e.code ≠ [] ∧ entryWith tab e.code = some e ∧
        ∀ h : Bits, h ≠ [] → h <+: e.code → h ≠ e.code → entryWith tab h = none) ∧
    (huffMatch tab [] b = none ↔ ∀ h : Bits, h ≠ [] → h <+: b → entryWith tab h = none)

/-! ## Decoding and encoding -/

/-- Decode and encode agree: every well-formed instruction has a place, and at every place that admits it its encoding
decodes to it, whatever follows (R62, R91 to R102, R110). -/
def Obligations.DecodeOfEncode : Prop :=
  ∀ i : Instr, i.wf = true →
    (∃ p : Position, p.admits i = true) ∧
    ∀ (p : Position) (rest : Bits), p.admits i = true → decode p (encode i ++ rest) = .ok (i, rest)

/-- What the decoder accepts at a place of the stream is the encoding of an instruction that the place admits (R98, R104). -/
def Obligations.EncodeOfDecode : Prop :=
  ∀ (p : Position) (b r : Bits) (i : Instr), decode p b = .ok (i, r) →
    p.admits i = true ∧ (p ≠ .command → b = encode i ++ r)

/-- R110, R105: a word is a command exactly when its low byte is one of the eleven codes, whatever bits [31:8] hold. -/
def Obligations.CommandWordsDecode : Prop :=
  ∀ w : Word, decodeCommand w =
    match commandTable.lookup (BitVec.ofNat 8 (w.toNat % 256)) with
    | some i => .ok i
    | none => .error .undefinedCommand

/-- Words written out from the formats of R92 to R97 and R110 (the bits of section 5 of the spec's test vectors). -/
def Obligations.SampleWordsDecode : Prop :=
  decodeCommand 0xABCDEF00 = .ok .nop ∧ decodeCommand 0x00000022 = .ok .decReadPair ∧
  decode .tableCount (ubits 5 16) = .ok (.tcount 5, []) ∧
  decode .dcEntry [false, false, true, true, false, false, false, true, false] = .ok (.dcent 3 [false], []) ∧
  decode .acEntry (ubits 0xA103 16 ++ [true, true, true]) = .ok (.acent 10 1 [true, true, true], []) ∧
  decode .blockCount (ubits 1 32) = .ok (.bcount 1, []) ∧
  decode (.dcSymbol [⟨3, [false]⟩]) [false, false, true, false] = .ok (.dcsym [false] [false, true, false], []) ∧
  decode (.acSymbol [⟨2, [true, false, true]⟩] 0) [true, false, true, true, true] =
    .ok (.acsym [true, false, true] [true, true], [])

/-! ## A step runs the decoded instruction -/

/-- Between commands a step takes the host's next access; a word written to `CMD` runs the command it decodes to (R105); with
no access the block waits (R41). -/
def Obligations.StepRunsWrittenCommand : Prop :=
  ∀ s : State, s.framer = .rest →
    (s.bus = [] → step s = .next s) ∧
    ∀ (w : Word) (rest : List HostAccess) (i : Instr),
      s.bus = .regWrite 0x000 w :: rest → decodeCommand w = .ok i → step s = exec i { s with bus := rest }

/-- Inside the stream a step runs the element that the unread bits decode to, or the one the writer stands at; a stretch of
stream that is no element raises its fault (R104). The model's own steps inside a command: log 3. -/
def Obligations.StepRunsStreamElement : Prop :=
  ∀ s : State,
    (∀ p i r, s.framer = .reading p → decode (p.position s.dtab) s.unread = .ok (i, r) → step s = exec i s) ∧
    (∀ p e, s.framer = .reading p → decode (p.position s.dtab) s.unread = .error e →
      step s = .next (raise e.errCode s)) ∧
    ∀ i is, s.framer = .writing i is → step s = exec i s

/-! ## The host's accesses -/

/-- R23: what a host read returns, and that it changes nothing else; in FAULT, `STATUS` and `ERR` still read as they are and the
read leaves `PHASE`, `ERR` and `BS` alone. -/
def Obligations.HostReadReturnsRegister : Prop :=
  ∀ (s : State) (o : BitVec 9) (rest : List HostAccess), s.framer = .rest → s.bus = .regRead o :: rest →
    (s.phase ≠ .fault →
      step s = .next { s with bus := rest, rdata := ((registerTable s).lookup o.toNat).getD 0 }) ∧
    (s.phase = .fault → ∃ t, step s = .next t ∧ t.phase = .fault ∧ t.err = s.err ∧ t.bs = s.bs ∧ t.bus = rest ∧
      (o = 0x004 → t.rdata = 0x1F) ∧ (o = 0x008 → t.rdata = BitVec.ofNat 32 s.err.toNat))

/-- R23, D26: what a host write to a register other than `CMD` changes: `NBLK` and `BSLEN` in IDLE only, a coefficient register
at any time, nothing otherwise. -/
def Obligations.HostWriteChangesRegister : Prop :=
  ∀ (s : State) (o : BitVec 9) (v : Word) (rest : List HostAccess),
    s.framer = .rest → s.bus = .regWrite o v :: rest → o ≠ 0x000 →
    (∀ i : Fin 64, o.toNat = 0x100 + 4 * i.val →
      step s = .next { s with bus := rest, co := s.co.set i (BitVec.ofNat 16 v.toNat) }) ∧
    (o = 0x00C → s.phase = .idle → step s = .next { s with bus := rest, nblk := v }) ∧
    (o = 0x028 → s.phase = .idle →
      step s = .next { s with bus := rest, bslen := BitVec.ofNat 64 (s.bslen.toNat / 2 ^ 32 * 2 ^ 32 + v.toNat) }) ∧
    (o = 0x02C → s.phase = .idle →
      step s = .next { s with bus := rest, bslen := BitVec.ofNat 64 (v.toNat * 2 ^ 32 + s.bslen.toNat % 2 ^ 32) }) ∧
    ((∀ i : Fin 64, o.toNat ≠ 0x100 + 4 * i.val) →
      (s.phase ≠ .idle ∨ (o ≠ 0x00C ∧ o ≠ 0x028 ∧ o ≠ 0x02C)) → step s = .next { s with bus := rest })

/-- R72, R37: in IDLE and DONE the host reads and writes the bytes of `BS`, each write changing one byte; elsewhere it has no
such move (log 10), and there is no byte at or above `BS_CAP` (log 11). -/
def Obligations.HostAccessesBitstreamMemory : Prop :=
  ∀ (s : State) (a : Nat) (rest : List HostAccess), s.framer = .rest →
    ((s.phase = .idle ∨ s.phase = .done) → a < s.bsCap →
      (s.bus = .bsRead a :: rest →
        step s = .next { s with bus := rest, rdata := BitVec.ofNat 32 (Memory.read s.bs a).toNat }) ∧
      ∀ b, s.bus = .bsWrite a b :: rest → s.MemoryOk →
        ∃ m, step s = .next { s with bus := rest, bs := m } ∧ Memory.read m a = b ∧
          ∀ x, x ≠ a → Memory.read m x = Memory.read s.bs x) ∧
    ((s.bus = .bsRead a :: rest ∨ ∃ b, s.bus = .bsWrite a b :: rest) →
      (s.phase ≠ .idle → s.phase ≠ .done → step s = .refused .bsNotHosts) ∧
      ((s.phase = .idle ∨ s.phase = .done) → s.bsCap ≤ a → step s = .fault .noSuchByte))

/-! ## Commands: what each does, and where it completes -/

/-- R261. -/
def Obligations.NopChangesNothing : Prop := ∀ s : State, exec .nop s = .next s

/-- R41, R262, R340: the `RESET` command and the reset input both leave the reset state and do not touch `BS`. -/
def Obligations.ResetLeavesResetState : Prop :=
  (∀ s : State, exec .reset s = .next (afterReset s)) ∧
  ∀ (s : State) (rest : List HostAccess), s.framer = .rest → s.bus = .hwReset :: rest →
    step s = .next (afterReset { s with bus := rest })

/-- R263. -/
def Obligations.EncStartBeginsEncode : Prop :=
  ∀ s : State, s.phase ≠ .fault →
    (s.phase ≠ .idle → Raises (exec .encStart s) 0x08) ∧
    (s.phase = .idle → s.cbufBlocks < s.nblk.toNat → Raises (exec .encStart s) 0x0A) ∧
    (s.phase = .idle → s.nblk.toNat ≤ s.cbufBlocks →
      exec .encStart s = .next
        { s with
          cbuf := [], freq := ⟨[], [], [], []⟩, etab := ⟨[], [], [], []⟩, out := [], wpos := 0, blk := 0, ch := 0,
          phase := .encCollect })

/-- R264, R302. -/
def Obligations.EncPushAppendsPair : Prop :=
  ∀ s : State, s.phase ≠ .fault →
    (s.phase ≠ .encCollect ∨ s.blk = s.nblk → Raises (exec .encPush s) 0x08) ∧
    (s.phase = .encCollect → s.blk ≠ s.nblk → (∃ i : Fin 64, s.co[i].toInt = -32768) →
      Raises (exec .encPush s) 0x01) ∧
    (s.phase = .encCollect → s.blk ≠ s.nblk → (∀ i : Fin 64, s.co[i].toInt ≠ -32768) →
      exec .encPush s = .next (advanced { s with cbuf := s.cbuf ++ [s.co] }))

/-- R265: the tables are built from the pairs of the image (their values: FrequenciesCountSymbols, BuiltCodesArePrefixFree). -/
def Obligations.EncBuildMakesTables : Prop :=
  ∀ s : State, s.phase ≠ .fault →
    (s.phase ≠ .encCollect ∨ s.blk ≠ s.nblk → Raises (exec .encBuild s) 0x08) ∧
    (s.phase = .encCollect → s.blk = s.nblk →
      exec .encBuild s = .next
        { s with
          freq := frequencies (s.cbuf.take (3 * s.nblk.toNat))
          etab := PerClass.of fun c => huffBuild ((frequencies (s.cbuf.take (3 * s.nblk.toNat))).get c)
          blk := 0, ch := 0, phase := .encReady })

/-- R266, R221, R223: the header's bits are appended to `OUT`. -/
def Obligations.EncWriteHdrAppendsHeader : Prop :=
  ∀ s : State, s.phase ≠ .fault →
    (s.phase ≠ .encReady → Raises (exec .encWriteHdr s) 0x08) ∧
    (s.phase = .encReady → TablesFit s.etab →
      exec .encWriteHdr s = .next
        { s with
          out := s.out ++ headerBits s.etab s.nblk
          wpos := s.wpos + BitVec.ofNat 64 (headerBits s.etab s.nblk).length
          phase := .encBlocks, framer := .rest })

/-- R267, R224: the pair's bits are appended to `OUT` and the cursor advances. -/
def Obligations.EncWritePairAppendsPair : Prop :=
  ∀ s : State, s.phase ≠ .fault →
    (s.phase ≠ .encBlocks ∨ s.blk = s.nblk → Raises (exec .encWritePair s) 0x08) ∧
    ∀ p : Pair, s.phase = .encBlocks → s.blk ≠ s.nblk →
      s.cbuf[3 * s.blk.toNat + s.ch.toNat]? = some p → HasCodes s.etab s.ch p →
      exec .encWritePair s = .next (advanced
        { s with
          out := s.out ++ pairBits s.etab s.ch p
          wpos := s.wpos + BitVec.ofNat 64 (pairBits s.etab s.ch p).length
          framer := .rest })

/-- R268, R65: the container is padded with zeros to whole bytes and stored, byte `j` being the bits `8j` to `8j + 7` of the
stream; the bytes above it stay; `E_IO` if it does not fit. -/
def Obligations.EncFinishStoresContainer : Prop :=
  ∀ s : State, s.phase ≠ .fault →
    (s.phase ≠ .encBlocks ∨ s.blk ≠ s.nblk → Raises (exec .encFinish s) 0x08) ∧
    (s.phase = .encBlocks → s.blk = s.nblk → s.wpos.toNat + 7 < 2 ^ 64 → s.bsCap < (s.wpos.toNat + 7) / 8 →
      Raises (exec .encFinish s) 0x03) ∧
    (s.phase = .encBlocks → s.blk = s.nblk → s.wpos.toNat + 7 < 2 ^ 64 → (s.wpos.toNat + 7) / 8 ≤ s.bsCap →
      s.MemoryOk →
      ∃ m, exec .encFinish s = .next
          { s with
            out := s.out ++ List.replicate ((8 - s.wpos.toNat % 8) % 8) false
            wpos := BitVec.ofNat 64 (8 * ((s.wpos.toNat + 7) / 8))
            bslen := BitVec.ofNat 64 ((s.wpos.toNat + 7) / 8)
            bs := m, phase := .done } ∧
        (∀ j, j < (s.wpos.toNat + 7) / 8 → Memory.read m j = BitVec.ofNat 8
          (uval (((s.out ++ List.replicate ((8 - s.wpos.toNat % 8) % 8) false).drop (8 * j)).take 8))) ∧
        ∀ a, (s.wpos.toNat + 7) / 8 ≤ a → Memory.read m a = Memory.read s.bs a)

/-- R269. -/
def Obligations.DecStartBeginsDecode : Prop :=
  ∀ s : State, s.phase ≠ .fault →
    (s.phase ≠ .idle → Raises (exec .decStart s) 0x08) ∧
    (s.phase = .idle → s.bsCap < s.bslen.toNat → Raises (exec .decStart s) 0x03) ∧
    (s.phase = .idle → s.bslen.toNat ≤ s.bsCap →
      exec .decStart s = .next
        { s with dtab := ⟨[], [], [], []⟩, rpos := 0, blk := 0, ch := 0, phase := .decHdr })

/-- R270, R225, R227: where the unread bits begin with the header of some tables and a block count, those tables and that count
are read, whatever follows. -/
def Obligations.DecReadHdrReadsHeader : Prop :=
  ∀ s : State, s.phase ≠ .fault →
    (s.phase ≠ .decHdr → Raises (exec .decReadHdr s) 0x08) ∧
    ∀ (t : PerClass CodeTable) (n : Word) (rest : Bits), s.phase = .decHdr → s.bslen.toNat < 2 ^ 61 →
      TablesFit t → (∀ c, ((t.get c).map Prod.snd).Nodup) → s.unread = headerBits t n ++ rest →
      exec .decReadHdr s = .next
        { s with
          dtab := PerClass.of fun c => entriesOf (t.get c)
          nblk := n, blk := 0, ch := 0
          rpos := s.rpos + BitVec.ofNat 64 (headerBits t n).length
          phase := if n = 0 then .done else .decBlocks
          framer := .rest }

/-- R271, R228: where the unread bits begin with the bits of a pair under codes that the decode tables read, that pair is
delivered in `CO`, whatever follows, and the cursor advances. -/
def Obligations.DecReadPairDeliversPair : Prop :=
  ∀ s : State, s.phase ≠ .fault →
    (s.phase ≠ .decBlocks → Raises (exec .decReadPair s) 0x08) ∧
    ∀ (t : PerClass CodeTable) (p : Pair) (rest : Bits), s.phase = .decBlocks → s.bslen.toNat < 2 ^ 61 →
      (∀ i : Fin 64, p[i].toInt ≠ -32768) → HasCodes t s.ch p →
      (∀ c, Readable (t.get c) (s.dtab.get c)) → s.unread = pairBits t s.ch p ++ rest →
      exec .decReadPair s = .next
        { advanced s with
          co := p
          rpos := s.rpos + BitVec.ofNat 64 (pairBits t s.ch p).length
          phase := if (advanced s).blk = s.nblk then .done else .decBlocks
          framer := .rest }

/-! ## Stream elements: writing and reading each of them -/

/-- R66, R221, R223, R224: the element a writer stands at is appended to `OUT`, and the writer goes on to the next. -/
def Obligations.WriterEmitsElement : Prop :=
  ∀ (i : Instr) (is : List Instr) (s : State), isCommand i = false → s.framer = .writing i is →
    exec i s = .next
      { s with
        out := s.out ++ encode i
        wpos := s.wpos + BitVec.ofNat 64 (encode i).length
        framer := match is with
          | [] => .rest
          | j :: js => .writing j js }

/-- R225: reading the count of a table empties the table and announces its entries. -/
def Obligations.ReaderTakesTableCount : Prop :=
  ∀ (s : State) (c : SymClass) (n : BitVec 16), s.framer = .reading (.tableCount c) →
    exec (.tcount n) s = .next
      { s with
        rpos := s.rpos + 16, dtab := s.dtab.set c [], framer := .reading (placeAfter c n.toNat) }

/-- R225, R226: reading an entry appends it to its table; a code length of 0 or a code already in the table is `E_TABLE`. -/
def Obligations.ReaderTakesTableEntry : Prop :=
  ∀ (s : State) (k : SymClass) (left : Nat) (h : Bits), s.framer = .reading (.tableEntry k left) →
    (∀ c : BitVec 4, k.isDc = true →
      (h = [] ∨ (∃ e ∈ s.dtab.get k, e.code = h) → Raises (exec (.dcent c h) s) 0x07) ∧
      (h ≠ [] → (∀ e ∈ s.dtab.get k, e.code ≠ h) →
        exec (.dcent c h) s = .next
          { s with
            rpos := s.rpos + BitVec.ofNat 64 (8 + h.length)
            dtab := s.dtab.set k (s.dtab.get k ++ [⟨c.toNat, h⟩])
            framer := .reading (placeAfter k (left - 1)) })) ∧
    (∀ r z : BitVec 4, k.isDc = false →
      (h = [] ∨ (∃ e ∈ s.dtab.get k, e.code = h) → Raises (exec (.acent r z h) s) 0x07) ∧
      (h ≠ [] → (∀ e ∈ s.dtab.get k, e.code ≠ h) →
        exec (.acent r z h) s = .next
          { s with
            rpos := s.rpos + BitVec.ofNat 64 (16 + h.length)
            dtab := s.dtab.set k (s.dtab.get k ++ [⟨16 * r.toNat + z.toNat, h⟩])
            framer := .reading (placeAfter k (left - 1)) }))

/-- R227: reading the block count sets `NBLK` and ends the header. -/
def Obligations.ReaderTakesBlockCount : Prop :=
  ∀ (s : State) (n : Word), s.framer = .reading .blockCount →
    exec (.bcount n) s = .next { s with rpos := s.rpos + 32, nblk := n, framer := .rest }

/-- R228: reading a DC symbol puts the value into `CO[0]`. -/
def Obligations.ReaderTakesDcSymbol : Prop :=
  ∀ (s : State) (ch : BitVec 2) (e : Entry) (v : Bits), s.framer = .reading (.dcSymbol ch) →
    entryWith (s.dtab.get (if ch = 0 then .dcLuma else .dcChroma)) e.code = some e → v.length = e.sym →
    exec (.dcsym e.code v) s = .next
      { s with
        rpos := s.rpos + BitVec.ofNat 64 (e.code.length + v.length)
        co := s.co.set 0 (BitVec.ofInt 16 (readInt v))
        framer := .reading (.acSymbol ch 0) }

/-- R177 to R179: reading an AC symbol at slot `k`: end of block fills the slots that are left with zeros; `(run, size)` fills
`run` zeros and a value, `(run, 0)` with `run ≥ 1` being `run + 1` zeros; one that would pass slot 62 is `E_AC_OVERRUN`. Slot `j`
is `CO[j + 1]`. -/
def Obligations.ReaderTakesAcSymbol : Prop :=
  ∀ (s : State) (ch : BitVec 2) (k : Nat) (e : Entry) (v : Bits), s.framer = .reading (.acSymbol ch k) →
    k < 63 → entryWith (s.dtab.get (if ch = 0 then .acLuma else .acChroma)) e.code = some e → e.sym < 256 →
    (e.sym = 0 → v = [] → ∃ co : Pair,
      exec (.acsym e.code v) s = .next
        { s with rpos := s.rpos + BitVec.ofNat 64 e.code.length, co := co, framer := .rest } ∧
      ∀ j : Fin 64, co[j] = if k + 1 ≤ j.val then 0 else s.co[j]) ∧
    (e.sym ≠ 0 → 63 < k + e.sym / 16 + 1 → Raises (exec (.acsym e.code v) s) 0x05) ∧
    (e.sym ≠ 0 → k + e.sym / 16 + 1 ≤ 63 → v.length = e.sym % 16 → ∃ co : Pair,
      exec (.acsym e.code v) s = .next
        { s with
          rpos := s.rpos + BitVec.ofNat 64 (e.code.length + v.length), co := co
          framer := if k + e.sym / 16 + 1 = 63 then .rest else .reading (.acSymbol ch (k + e.sym / 16 + 1)) } ∧
      ∀ j : Fin 64, co[j] =
        if k + 1 ≤ j.val ∧ j.val < k + e.sym / 16 + 1 then 0
        else if j.val = k + e.sym / 16 + 1 then BitVec.ofInt 16 (readInt v) else s.co[j])

/-- An element for which the grammar has no place here is refused by name: R90, R101 (the model's choice: log 4). -/
def Obligations.ElementOutOfPlaceIsRefused : Prop :=
  ∀ (i : Instr) (s : State), isCommand i = false →
    (s.framer = .rest → exec i s = .refused .elementOutOfPlace) ∧
    (∀ j js, s.framer = .writing j js → j ≠ i → exec i s = .refused .elementOutOfPlace) ∧
    (∀ p, s.framer = .reading p → fitsPlace p i = false → exec i s = .refused .elementOutOfPlace)

/-! ## Faults -/

/-- R301 (the numbers of the codes), R310: taking a fault sets `PHASE` and `ERR`, stops the command, and leaves alone the host's
side and the bytes of `BS` that the operation cannot have written; nothing is stated of the elements R310 leaves unspecified. Which
bytes those are is the model's inference (log 8): for every fault but one, none before DONE and at most those below `BSLEN` in
DONE; for the `E_IO` of `ENC_FINISH`, those below `BS_CAP`. Said of the operation, and of every instruction and every step that
answers a next state in FAULT from one that is not. -/
def Obligations.FaultEntry : Prop :=
  [ErrCode.eWidth, .eShape, .eIo, .eHuffNomatch, .eAcOverrun, .eStreamEnd, .eTable, .eSeq, .eCmd, .eCap].map
    (fun e => e.code.toNat) = [1, 2, 3, 4, 5, 6, 7, 8, 9, 10] ∧
  (∀ (n : Nat) (e : ErrCode) (s : State), s.MemoryOk →
    (raiseOver n e s).phase = .fault ∧ (raiseOver n e s).err = e.code ∧ (raiseOver n e s).framer = .rest ∧
    (raiseOver n e s).bus = s.bus ∧ (raiseOver n e s).rdata = s.rdata ∧ (raiseOver n e s).bsCap = s.bsCap ∧
    (raiseOver n e s).cbufBlocks = s.cbufBlocks ∧ (raiseOver n e s).MemoryOk ∧
    ∀ a, n ≤ a → Memory.read (raiseOver n e s).bs a = Memory.read s.bs a) ∧
  (∀ (e : ErrCode) (s : State), ∃ n, raise e s = raiseOver n e s ∧ n ≤ s.bslen.toNat ∧ (s.phase ≠ .done → n = 0)) ∧
  (∀ (e : ErrCode) (s : State), s.phase ≠ .done → (raise e s).bs = s.bs) ∧
  (∀ s : State, s.phase = .encBlocks → s.blk = s.nblk → s.wpos.toNat + 7 < 2 ^ 64 →
    s.bsCap < (s.wpos.toNat + 7) / 8 →
    ∃ u, exec .encFinish s = .next (raiseOver s.bsCap .eIo u) ∧ u.bs = s.bs ∧ u.bus = s.bus ∧ u.rdata = s.rdata ∧
      u.bsCap = s.bsCap ∧ u.cbufBlocks = s.cbufBlocks) ∧
  (∀ (i : Instr) (s t : State), exec i s = .next t → s.phase ≠ .fault → t.phase = .fault →
    t.bus = s.bus ∧ faultKeeps s t) ∧
  ∀ s t : State, step s = .next t → s.phase ≠ .fault → t.phase = .fault →
    (t.bus = if s.framer = .rest then s.bus.tail else s.bus) ∧ faultKeeps s t

/-- R272, R110: a command in a phase, or at a cursor, where it is not legal raises `E_SEQ`. -/
def Obligations.MisplacedCommandRaisesSeq : Prop :=
  ∀ (i : Instr) (s : State), isCommand i = true → s.phase ≠ .fault → ¬ legalNow i s → Raises (exec i s) 0x08

/-- R274, R314: in FAULT every command but `RESET`, and every undefined code, is ignored. -/
def Obligations.FaultIgnoresCommands : Prop :=
  ∀ s : State, s.phase = .fault →
    (∀ i, isCommand i = true → i ≠ .reset → exec i s = .next s) ∧
    ∀ (w : Word) (rest : List HostAccess), s.framer = .rest → s.bus = .regWrite 0x000 w :: rest →
      w.toNat % 256 ≠ 1 → step s = .next { s with bus := rest }

/-- R273: an undefined code written to `CMD` raises `E_CMD` in every phase except FAULT. -/
def Obligations.UndefinedCodeRaisesCmd : Prop :=
  ∀ (s : State) (w : Word) (rest : List HostAccess), s.framer = .rest → s.bus = .regWrite 0x000 w :: rest →
    s.phase ≠ .fault → commandTable.lookup (BitVec.ofNat 8 (w.toNat % 256)) = none → Raises (step s) 0x09

/-- R307, R67: a field of the stream that extends past its end raises `E_STREAM_END`: a count, the fixed fields of an entry, its
code, the block count, the value bits of a symbol. -/
def Obligations.StreamEndFault : Prop :=
  ∀ s : State,
    (∀ c, s.framer = .reading (.tableCount c) → s.unreadCount < 16 → Raises (step s) 0x06) ∧
    (∀ c left, s.framer = .reading (.tableEntry c left) → s.unreadCount < (if c.isDc then 8 else 16) →
      Raises (step s) 0x06) ∧
    (∀ (c : SymClass) (left k l : Nat) (b : Bits), s.framer = .reading (.tableEntry c left) →
      l < (if c.isDc then 16 else 256) → b.length < l →
      s.unread = (if c.isDc then ubits k 4 ++ ubits l 4 else ubits k 8 ++ ubits l 8) ++ b → Raises (step s) 0x06) ∧
    (s.framer = .reading .blockCount → s.unreadCount < 32 → Raises (step s) 0x06) ∧
    (∀ ch e r, s.framer = .reading (.dcSymbol ch) →
      huffMatch (s.dtab.get (dcClass ch)) [] s.unread = some (e, r) → r.length < e.sym → Raises (step s) 0x06) ∧
    (∀ ch k e r, s.framer = .reading (.acSymbol ch k) →
      huffMatch (s.dtab.get (acClass ch)) [] s.unread = some (e, r) → (e.sym = 0 ∨ k + e.sym / 16 + 1 ≤ 63) →
      r.length < e.sym % 16 → Raises (step s) 0x06)

/-- R305, R207 and R306, R178 and R104: no code matches before the stream ends; a symbol that would pass slot 62, whatever value
bits follow; an entry of code length 0. -/
def Obligations.CorruptStreamFaults : Prop :=
  ∀ s : State,
    (∀ ch, s.framer = .reading (.dcSymbol ch) → huffMatch (s.dtab.get (dcClass ch)) [] s.unread = none →
      Raises (step s) 0x04) ∧
    (∀ ch k, s.framer = .reading (.acSymbol ch k) → huffMatch (s.dtab.get (acClass ch)) [] s.unread = none →
      Raises (step s) 0x04) ∧
    (∀ ch k e r, s.framer = .reading (.acSymbol ch k) →
      huffMatch (s.dtab.get (acClass ch)) [] s.unread = some (e, r) → e.sym ≠ 0 → 63 < k + e.sym / 16 + 1 →
      Raises (step s) 0x05) ∧
    (∀ (c : SymClass) (left k : Nat) (b : Bits), s.framer = .reading (.tableEntry c left) →
      s.unread = (if c.isDc then ubits k 4 ++ ubits 0 4 else ubits k 8 ++ ubits 0 8) ++ b → Raises (step s) 0x07)

/-- R310, R315, R270, R271: wherever the reader of `DEC_READ_HDR` or `DEC_READ_PAIR` has come to, an element that raises a fault there
ends the command with that fault (which element raises which: StreamEndFault, CorruptStreamFaults, ReaderTakesTableEntry); two cases
of it at the first element. -/
def Obligations.CommandEndsWithStreamFault : Prop :=
  ∀ s : State,
    (∀ (u : State) (code : BitVec 8), s.bslen.toNat < 2 ^ 61 → u.framer ≠ .rest → Raises (step u) code →
      (s.phase = .decHdr → readsOnTo { s with framer := .reading (.tableCount .dcLuma) } u →
        exec .decReadHdr s = step u) ∧
      (s.phase = .decBlocks → readsOnTo { s with framer := .reading (.dcSymbol s.ch) } u →
        exec .decReadPair s = step u)) ∧
    (s.phase = .decHdr → s.unreadCount < 16 → Raises (exec .decReadHdr s) 0x06) ∧
    (s.phase = .decBlocks → huffMatch (s.dtab.get (dcClass s.ch)) [] s.unread = none →
      Raises (exec .decReadPair s) 0x04)

/-- R301 ("raised by"): which fault codes a command can leave in `ERR`. -/
def Obligations.FaultsRaisedByCommand : Prop :=
  ∀ (i : Instr) (s t : State), isCommand i = true → s.phase ≠ .fault → TablesFit s.etab →
    exec i s = .next t → t.phase = .fault → t.err ∈ mayRaise i

/-! ## Whole-machine rules -/

/-- R260: the only transitions. -/
def Obligations.OnlyListedTransitions : Prop :=
  ∀ (i : Instr) (s t : State), exec i s = .next t → t.phase = .fault ∨ transition i s t

/-- R40: what every command leaves unchanged when it raises no fault. -/
def Obligations.CommandsKeepOtherState : Prop :=
  ∀ (i : Instr) (s t : State), isCommand i = true → exec i s = .next t → t.phase ≠ .fault → keptBy i s t

/-- R313: only a reset leaves FAULT, and `ERR` is sticky (R25). -/
def Obligations.OnlyResetLeavesFault : Prop :=
  ∀ s t : State, s.phase = .fault → s.framer = .rest → step s = .next t →
    (t.phase = .fault ∧ t.err = s.err) ∨
    ∃ rest, t = afterReset { s with bus := rest } ∧
      (s.bus = .hwReset :: rest ∨ ∃ w : Word, s.bus = .regWrite 0x000 w :: rest ∧ w.toNat % 256 = 1)

/-- R356, R260: from a safe state every command ends in a next state between two commands; the model's own stops are not
reached. -/
def Obligations.CommandsAlwaysEnd : Prop :=
  ∀ (i : Instr) (s : State), isCommand i = true → s.Ok → ∃ t, exec i s = .next t ∧ t.framer = .rest

/-! ## Invariants -/

/-- Every step keeps the canonical form of `BS`. -/
def Obligations.StepKeepsMemoryForm : Prop :=
  ∀ s t : State, s.MemoryOk → step s = .next t → t.MemoryOk

/-- Every step keeps the sequencer's discipline: no command half done (R20, R39), `ERR` zero exactly outside FAULT (R25), the pair
cursor a cursor of the image (R27), `WPOS` the length of `OUT` (R38). -/
def Obligations.StepKeepsSequencer : Prop :=
  ∀ s t : State, s.SequencerOk → step s = .next t → t.SequencerOk

/-- Every step keeps the encode direction's buffers: `CBUF` holds the pairs pushed so far, all legal (R32), and from `ENC_BUILD` on
the tables are those of its pairs (R33, R34, R77). -/
def Obligations.StepKeepsEncodeBuffers : Prop :=
  ∀ s t : State, s.SequencerOk → s.EncodeOk → step s = .next t → t.EncodeOk

/-- Every step keeps the decode direction's stream and tables: the stream inside `BS` (R71), the cursor inside the stream (R29),
`DTAB` four tables as R35 describes them. -/
def Obligations.StepKeepsDecodeTables : Prop :=
  ∀ s t : State, s.SequencerOk → s.DecodeOk → step s = .next t → t.DecodeOk

/-- The reset state is safe. -/
def Obligations.ResetStateIsSafe : Prop := State.reset.Ok

/-! ## The bitstream memory -/

/-- R62, R61: a field of whole bytes at a byte boundary is the big-endian number of those bytes. -/
def Obligations.AlignedFieldIsBigEndian : Prop :=
  ∀ (m : List Host.Cell) (a n : Nat), uval (Memory.bits m (8 * a) (8 * n)) = Memory.readBig m a n

/-- R61, R268: the bits that `ENC_FINISH` packs into bytes are the bits the reader finds there. -/
def Obligations.PackedBitsReadBack : Prop :=
  ∀ (m : List Host.Cell) (n : Nat) (b : Bits), Memory.wf m = true → b.length = 8 * n →
    Memory.bits (Memory.store m 0 (packBytes n b)) 0 (8 * n) = b

/-! ## The whole codec -/

/-- R231, R114: for every sequence of legal pairs, three to a block, `ENCODE_IMAGE` ends in DONE with the container of R220 and R232,
padded to whole bytes, if that fits `BS_CAP`, and in `E_IO` if it does not; and `DECODE_IMAGE` of the container ends in DONE with `NBLK`
the number of blocks, exactly the pairs, in order, and the tables that were written, on any machine whose memory can hold it. -/
def Obligations.DecodeInvertsEncode : Prop :=
  ∀ (ps : List Pair) (n : Nat) (s : State), ps.length = 3 * n → n < 2 ^ 32 → n ≤ s.cbufBlocks →
    (∀ p ∈ ps, ∀ i : Fin 64, p[i].toInt ≠ -32768) → s.bsCap < 2 ^ 61 → s.MemoryOk →
    (s.bsCap < ((imageBits ps n).length + 7) / 8 → Raises (encodeImage ps s) 0x03) ∧
    (((imageBits ps n).length + 7) / 8 ≤ s.bsCap →
      ∃ t, encodeImage ps s = .next t ∧ t.phase = .done ∧ t.nblk.toNat = n ∧
        t.bslen.toNat = ((imageBits ps n).length + 7) / 8 ∧
        Memory.bits t.bs 0 (imageBits ps n).length = imageBits ps n ∧
        ∀ u : State, u.MemoryOk → s.bsCap ≤ u.bsCap → u.bsCap < 2 ^ 61 →
          ∃ v, decodeImage t.container u = .pairs ps v ∧ v.phase = .done ∧ v.nblk.toNat = n ∧
            ∀ c, v.dtab.get c = entriesOf ((imageTables ps).get c))

/-! ## The glue -/

/-- R151, R152: the traversal of an 8×8 matrix is the order `ZZ`, a permutation of the 64 positions. -/
def Obligations.ZigzagOrderOfEightByEight : Prop :=
  (zigzagPoints 8 8).map (fun p => 8 * p.1 + p.2) =
    [0, 1, 8, 16, 9, 2, 3, 10, 17, 24, 32, 25, 18, 11, 4, 5, 12, 19, 26, 33, 40, 48, 41, 34, 27, 20, 13, 6, 7, 14, 21, 28,
     35, 42, 49, 56, 57, 50, 43, 36, 29, 22, 15, 23, 30, 37, 44, 51, 58, 59, 52, 45, 38, 31, 39, 46, 53, 60, 61, 54, 47,
     55, 62, 63] ∧ zz.Nodup

/-- R153, R154: reading an 8×8 block out in zigzag order and back gives the block; a length that is not a perfect square is
`E_SHAPE`. -/
def Obligations.ZigzagRoundTrip : Prop :=
  (∀ m : Block, m.length = 8 → (∀ r ∈ m, r.length = 8) → zigzagToBlock (blockToZigzag m) = .ok m) ∧
  ∀ seq : List Int, (∀ k, k * k ≠ seq.length) → zigzagToBlock seq = .error .eShape

/-- R155 to R157, R150: `round` gives a nearest integer whatever `ROUND_TIES` is; `quantize` is `round(block / table)` and
`dequantize` `block * table`, element by element; a shape mismatch of `quantize` is `E_SHAPE`; with an all-ones table integer blocks
come back exactly; the channels' tables are 8×8, positive, luma for channel 0 and chroma for the others. An 8×8 block whose quotients
lie in the port's range goes through the glue into a legal pair, in zigzag order, and comes back with each element off by at most half
its table entry. The transform's output is taken as rationals, the model's choice (log 16). -/
def Obligations.QuantizerIsNearest : Prop :=
  (∀ q : Rat, |(roundQuotient q : Rat) - q| ≤ 1 / 2) ∧
  (∀ (b : List (List Rat)) (t : Block), b.map List.length ≠ t.map List.length → quantize b t = .error .eShape) ∧
  (∀ (b : List (List Rat)) (t : Block), b.map List.length = t.map List.length → (∀ r ∈ t, ∀ x ∈ r, x ≠ 0) →
    ∃ q, quantize b t = .ok q ∧ q.map List.length = t.map List.length ∧
      ∀ i j, q.at (i, j) = roundQuotient (elementAt b i j / t.at (i, j))) ∧
  (∀ q t : Block, q.map List.length = t.map List.length →
    (dequantize q t).map List.length = t.map List.length ∧ ∀ i j, (dequantize q t).at (i, j) = q.at (i, j) * t.at (i, j)) ∧
  (∀ b t : Block, b.map List.length = t.map List.length → (∀ r ∈ t, ∀ x ∈ r, x = 1) →
    (quantize (List.map (List.map fun x : Int => (x : Rat)) b) t).map (fun q => dequantize q t) = .ok b) ∧
  (∀ ch : BitVec 2, (quantTable ch).map List.length = List.replicate 8 8 ∧ ∀ i j : Fin 8,
    0 < (quantTable ch).at (i, j) ∧
      (quantTable ch).at (i, j) = if ch = 0 then (Config.qtLuma[i][j].val : Int) else (Config.qtChroma[i][j].val : Int)) ∧
  ∀ (ch : BitVec 2) (b : List (List Rat)), b.map List.length = List.replicate 8 8 →
    (∀ i j : Fin 8, |elementAt b i j| ≤ 32767 * (quantTable ch).at (i, j)) →
    ∃ p d, encodeGlue ch b = .ok p ∧ decodeGlue ch p = .ok d ∧ d.map List.length = List.replicate 8 8 ∧
      (∀ k : Fin 64, p[k].toInt ≠ -32768 ∧
        p[k].toInt = roundQuotient
          (elementAt b (zz.getD k 0 / 8) (zz.getD k 0 % 8) / (quantTable ch).at (zz.getD k 0 / 8, zz.getD k 0 % 8))) ∧
      ∀ i j : Fin 8, |(d.at (i, j) : Rat) - elementAt b i j| ≤ (quantTable ch).at (i, j) / 2
end

