-- ==== Sys2Proof/Laws/Bits.lean ====
section
/-! SUPPORT. Laws of the BitString codec and of the field readers. -/

namespace Sys2Proof

@[simp] theorem uval_nil : uval [] = 0 := rfl

theorem uval_cons (b : Bool) (bs : Bits) : uval (b :: bs) = b.toNat * 2 ^ bs.length + uval bs := rfl

@[simp] theorem cpl_length (b : Bits) : (cpl b).length = b.length := by simp [cpl]

@[simp] theorem cpl_cpl (b : Bits) : cpl (cpl b) = b := by
  simp [cpl, List.map_map, Function.comp_def]

@[simp] theorem ubits_length (v w : Nat) : (ubits v w).length = w := by
  induction w with
  | zero => rfl
  | succ w ih => simp [ubits, ih]

theorem uval_lt (b : Bits) : uval b < 2 ^ b.length := by
  induction b with
  | nil => simp
  | cons x b ih =>
    have h : 2 ^ (b.length + 1) = 2 ^ b.length + 2 ^ b.length := by rw [Nat.pow_succ]; omega
    cases x <;> simp [uval_cons, h] <;> omega

theorem uval_append (a b : Bits) : uval (a ++ b) = uval a * 2 ^ b.length + uval b := by
  induction a with
  | nil => simp
  | cons x a ih => simp [uval_cons, ih, pow_add]; ring

theorem uval_ubits_mod (v w : Nat) : uval (ubits v w) = v % 2 ^ w := by
  induction w with
  | zero => simp [ubits, Nat.mod_one]
  | succ w ih =>
    rw [ubits, uval_cons, ih, ubits_length, Nat.pow_succ, Nat.mod_mul, Nat.testBit_eq_decide_div_mod_eq]
    rcases Nat.mod_two_eq_zero_or_one (v / 2 ^ w) with h | h <;> simp [h, Nat.add_comm]

theorem uval_ubits {v w : Nat} (h : v < 2 ^ w) : uval (ubits v w) = v := by
  rw [uval_ubits_mod, Nat.mod_eq_of_lt h]

/-- Two bit strings of one length with the same unsigned reading are equal. -/
theorem uval_inj : ∀ {a b : Bits}, a.length = b.length → uval a = uval b → a = b
  | [], [], _, _ => rfl
  | [], _ :: _, h, _ => by simp at h
  | _ :: _, [], h, _ => by simp at h
  | x :: a, y :: b, h, e => by
    have hl : a.length = b.length := by simpa using h
    have ha := uval_lt a
    have hb := uval_lt b
    simp only [uval_cons, hl] at e ha
    have hxy : x = y := by cases x <;> cases y <;> simp at e ⊢ <;> omega
    subst hxy
    rw [uval_inj hl (by omega)]

theorem ubits_uval (b : Bits) : ubits (uval b) b.length = b :=
  uval_inj (by simp) (uval_ubits (uval_lt b))

theorem splitBits_append (a b : Bits) : splitBits a.length (a ++ b) = .ok (a, b) := by
  induction a with
  | nil => rfl
  | cons x a ih => simp [splitBits, ih, Except.map]

theorem splitBits_eq_ok {n : Nat} {b : Bits} {r : Bits × Bits} (h : splitBits n b = .ok r) :
    b = r.1 ++ r.2 ∧ r.1.length = n := by
  induction n generalizing b r with
  | zero => simp [splitBits] at h; subst h; simp
  | succ n ih =>
    cases b with
    | nil => simp [splitBits] at h
    | cons x b =>
      cases hs : splitBits n b with
      | error e => simp [splitBits, hs, Except.map] at h
      | ok q =>
        simp [splitBits, hs, Except.map] at h
        subst h
        have := ih hs
        simp [← this.1, this.2]

/-- `ReadBits(n)` fails exactly when fewer than `n` bits remain (R67). -/
theorem splitBits_eq_error {n : Nat} {b : Bits} : b.length < n → splitBits n b = .error .streamEnd := by
  induction n generalizing b with
  | zero => simp
  | succ n ih =>
    cases b with
    | nil => simp [splitBits]
    | cons x b => intro h; simp [splitBits, ih (by simpa using h), Except.map]

theorem readField_ubits {v n : Nat} (h : v < 2 ^ n) (b : Bits) :
    readField n (ubits v n ++ b) = .ok (v, b) := by
  have := splitBits_append (ubits v n) b
  rw [ubits_length] at this
  simp [readField, this, Except.map, uval_ubits h]

/-- A match found does not depend on the bits after the code. -/
theorem huffMatch_append {tab : List Entry} {acc b r : Bits} {e : Entry} (more : Bits)
    (h : huffMatch tab acc b = some (e, r)) : huffMatch tab acc (b ++ more) = some (e, r ++ more) := by
  induction b generalizing acc with
  | nil => simp [huffMatch] at h
  | cons x b ih =>
    rw [List.cons_append]
    unfold huffMatch at h ⊢
    cases he : entryWith tab (acc ++ [x]) with
    | some f => simp_all
    | none => simpa [he] using ih (by simpa [he] using h)

theorem entryWith_code {tab : List Entry} {c : Bits} {e : Entry} (h : entryWith tab c = some e) :
    e ∈ tab ∧ e.code = c :=
  ⟨List.mem_of_find?_eq_some h, by simpa using List.find?_some h⟩

end Sys2Proof
end

