-- ==== Sys2Proof/Laws/Glue.lean ====
section
/-! SUPPORT. What the glue's operations can do: shapes, the tables, the way to the coefficient port and back. -/

namespace Sys2Proof.Machine

theorem sameShape_iff {α : Type} {b : List (List α)} {t : Block} :
    sameShape b t = true ↔ b.map List.length = t.map List.length := by simp [sameShape]

theorem quantize_of_sameShape {b : List (List Rat)} {t : Block} (h : b.map List.length = t.map List.length) :
    quantize b t = .ok (List.zipWith (List.zipWith fun (x : Rat) (q : Int) => roundQuotient (x / q)) b t) := by
  rw [quantize, if_pos (sameShape_iff.2 h)]

theorem quantize_of_mismatch {b : List (List Rat)} {t : Block} (h : b.map List.length ≠ t.map List.length) :
    quantize b t = .error .eShape := by
  rw [quantize, if_neg (mt sameShape_iff.1 h)]

theorem dequantize_of_sameShape {b t : Block} (h : b.map List.length = t.map List.length) :
    dequantize b t = List.zipWith (List.zipWith (· * ·)) b t := by
  rw [dequantize, if_pos (sameShape_iff.2 h)]

/-- The tables are 8×8 (R157). -/
@[simp] theorem quantTable_shape (ch : BitVec 2) : (quantTable ch).map List.length = List.replicate 8 8 := by
  refine List.eq_replicate_iff.2 ⟨by simp [quantTable, tableRows], ?_⟩
  simp only [quantTable, tableRows, List.mem_map]
  rintro _ ⟨_, ⟨r, _, rfl⟩, rfl⟩
  simp

/-- The entries of the tables are positive (R155). -/
theorem quantTable_pos {ch : BitVec 2} {r : List Int} {x : Int} (hr : r ∈ quantTable ch) (hx : x ∈ r) : 0 < x := by
  simp only [quantTable, tableRows, List.mem_map] at hr
  obtain ⟨v, _, rfl⟩ := hr
  obtain ⟨q, _, rfl⟩ := List.mem_map.1 hx
  exact Int.natCast_pos.2 q.pos

/-- The tables element by element (R157). -/
theorem quantTable_at (ch : BitVec 2) (i j : Fin 8) : (quantTable ch).at (i, j) =
    if ch = 0 then (Config.qtLuma[i][j].val : Int) else (Config.qtChroma[i][j].val : Int) := by
  have hi := i.isLt
  have hj := j.isLt
  unfold Block.at quantTable tableRows
  split <;> simp [List.getD_eq_getElem?_getD]

theorem quantTable_at_pos (ch : BitVec 2) (i j : Fin 8) : 0 < (quantTable ch).at (i, j) := by
  rw [quantTable_at]
  split <;> exact Int.natCast_pos.2 (PNat.pos _)

@[simp] theorem pairOfZigzag_getElem (seq : List Int) (i : Nat) (h : i < 64) :
    (pairOfZigzag seq)[i] = BitVec.ofInt 16 (seq.getD i 0) := by simp [pairOfZigzag]

@[simp] theorem zigzagOfPair_length (p : Pair) : (zigzagOfPair p).length = 64 := by simp [zigzagOfPair]

/-- Values in the port's range pass through `CO` unchanged (R22). -/
theorem zigzagOfPair_pairOfZigzag {seq : List Int} (hl : seq.length = 64)
    (hr : ∀ x ∈ seq, -32767 ≤ x ∧ x ≤ 32767) : zigzagOfPair (pairOfZigzag seq) = seq := by
  refine List.ext_getElem (by simp [hl]) fun i h _ => ?_
  have hi : i < seq.length := by simpa [hl] using h
  obtain ⟨h1, h2⟩ := hr _ (List.getElem_mem hi)
  simp only [zigzagOfPair, List.getElem_map, Vector.getElem_toList, pairOfZigzag_getElem, List.getD_eq_getElem _ _ hi,
    BitVec.toInt_ofInt]
  exact Int.bmod_eq_of_le (by omega) (by omega)

/-- What `pushBlock` does when the glue gives a pair: one `ENC_PUSH` with the pair in `CO` (R150). -/
theorem pushBlock_of_pair {coeffs : List (List Rat)} {s : State} {p : Pair} (h : encodeGlue s.ch coeffs = .ok p) :
    pushBlock coeffs s = .ok (exec .encPush { s with co := p }) := by
  simp only [pushBlock, h, Except.map, pushPairs]
  cases exec .encPush { s with co := p } <;> rfl

/-- What `readBlock` gives when the command delivers a pair: that pair through the glue, with the table of the channel before
(R150, R271). -/
theorem readBlock_of_pair {s t : State} {b : Block} (h : exec .decReadPair s = .next t) (hp : t.phase ≠ .fault)
    (hb : decodeGlue s.ch t.co = .ok b) : readBlock s = .block b t := by
  simp [readBlock, h, hp, hb]

/-- The split of R150: DC first, then the AC values. -/
theorem dc_cons_ac (p : Pair) : Pair.dc p :: Pair.ac p = zigzagOfPair p := by
  refine List.ext_getElem (by simp [Pair.ac, zigzagOfPair]) fun i h _ => ?_
  cases i <;> simp [Pair.dc, Pair.ac, zigzagOfPair]

end Sys2Proof.Machine
end

