-- ==== Sys2Proof/Laws/Huffman.lean ====
section
/-! SUPPORT. What the queue operations of the Huffman construction can do (R192). -/

namespace Sys2Proof

/-- `before` is the order by `(w, ord)` (R192). -/
theorem HuffNode.before_iff {a b : HuffNode} :
    a.before b = true ↔ a.w < b.w ∨ (a.w = b.w ∧ a.ord < b.ord) := by simp [HuffNode.before]

theorem HuffNode.not_before_iff {a b : HuffNode} :
    a.before b = false ↔ b.w < a.w ∨ (b.w = a.w ∧ b.ord ≤ a.ord) := by
  rw [← Bool.not_eq_true, HuffNode.before_iff]
  omega

/-- Taking the least node takes one node out of the queue and keeps the others. -/
theorem takeLeast_perm (a : HuffNode) (q : List HuffNode) :
    ((takeLeast a q).1 :: (takeLeast a q).2).Perm (a :: q) := by
  induction q generalizing a with
  | nil => exact .refl _
  | cons b q ih =>
    simp only [takeLeast]
    split
    · exact (List.Perm.swap _ _ _).trans ((ih b).cons a)
    · exact .refl _

/-- No node that is left comes before the node taken. -/
theorem takeLeast_least (a : HuffNode) (q : List HuffNode) :
    ∀ y ∈ (takeLeast a q).2, y.before (takeLeast a q).1 = false := by
  induction q generalizing a with
  | nil => simp [takeLeast]
  | cons b q ih =>
    intro y hy
    by_cases h : (takeLeast b q).1.before a = true
    · simp only [takeLeast, h, if_true] at hy ⊢
      rcases List.mem_cons.1 hy with rfl | hy
      · rw [HuffNode.before_iff] at h
        exact HuffNode.not_before_iff.2 (by omega)
      · exact ih b y hy
    · have hle := HuffNode.not_before_iff.1 (Bool.eq_false_iff.2 h)
      simp only [takeLeast, h, if_false, Bool.false_eq_true] at hy ⊢
      rcases List.mem_cons.1 ((takeLeast_perm b q).mem_iff.2 hy) with rfl | hy'
      · exact HuffNode.not_before_iff.2 hle
      · have := HuffNode.not_before_iff.1 (ih b y hy')
        exact HuffNode.not_before_iff.2 (by omega)

/-- One merge of R192: the two least nodes, the first left, the second right, their weights added. -/
theorem mergeLoop_step (n next : Nat) (a b : HuffNode) (q : List HuffNode) :
    ∃ x y rest, (a :: b :: q).Perm (x :: y :: rest) ∧ (∀ z ∈ y :: rest, z.before x = false) ∧
      (∀ z ∈ rest, z.before y = false) ∧
      mergeLoop (n + 1) next (a :: b :: q) =
        mergeLoop n (next + 1) (⟨.node x.tree y.tree, x.w + y.w, next⟩ :: rest) := by
  have hp := takeLeast_perm a (b :: q)
  have hl := takeLeast_least a (b :: q)
  generalize hr : takeLeast a (b :: q) = r at hp hl
  obtain ⟨x, others⟩ := r
  cases others with
  | nil => simpa using hp.length_eq
  | cons c q' =>
    have hp' := takeLeast_perm c q'
    refine ⟨x, (takeLeast c q').1, (takeLeast c q').2, (hp.symm.trans (hp'.symm.cons x)), ?_, takeLeast_least c q', ?_⟩
    · exact fun z hz => hl z (hp'.mem_iff.1 hz)
    · simp [mergeLoop, hr]

end Sys2Proof
end

