-- ==== Sys2Proof/Laws/Memory.lean ====
section
/-! SUPPORT. Laws of the bitstream memory: reads after writes, and that every operation keeps the canonical form. -/

namespace Sys2Proof.Machine

theorem Memory.wf_cons {k : Nat} {v : Byte} {m : List Host.Cell} :
    Memory.wf ((k, v) :: m) = true ↔
      v ≠ Memory.unlisted ∧ (∀ c ∈ m, k < c.1) ∧ Memory.wf m = true := by
  simp [Memory.wf, and_assoc]

theorem Memory.read_of_absent {m : List Host.Cell} {a : Nat} (h : ∀ c ∈ m, c.1 ≠ a) :
    Memory.read m a = Memory.unlisted := by
  induction m with
  | nil => rfl
  | cons c m ih =>
    obtain ⟨k, v⟩ := c
    have hk : k ≠ a := h (k, v) (by simp)
    simp only [Memory.read, hk, if_false]
    exact ih fun c hc => h c (by simp [hc])

/-- A cell of the memory after a write is the written one or was there before. -/
theorem Memory.mem_write {m : List Host.Cell} {a : Nat} {b : Byte} {c : Host.Cell}
    (h : c ∈ Memory.write m a b) : c = (a, b) ∨ c ∈ m := by
  induction m with
  | nil => simp only [Memory.write] at h; split at h <;> simp_all
  | cons d m ih =>
    obtain ⟨k, v⟩ := d
    simp only [Memory.write] at h
    split at h
    · split at h <;> simp_all
    · split at h
      · rename_i hak
        subst hak
        split at h <;> simp only [List.mem_cons] at h ⊢ <;> tauto
      · simp only [List.mem_cons] at h ⊢
        rcases h with h | h
        · simp [h]
        · rcases ih h with h | h <;> simp [h]

theorem Memory.wf_write {m : List Host.Cell} (h : Memory.wf m = true) (a : Nat) (b : Byte) :
    Memory.wf (Memory.write m a b) = true := by
  induction m with
  | nil => by_cases hb : b = Memory.unlisted <;> simp [Memory.write, hb, Memory.wf]
  | cons c m ih =>
    obtain ⟨k, v⟩ := c
    have hc := Memory.wf_cons.mp h
    simp only [Memory.write]
    split
    · rename_i hak
      split
      · exact h
      · rename_i hb
        refine Memory.wf_cons.mpr ⟨hb, ?_, h⟩
        intro d hd
        rcases List.mem_cons.mp hd with rfl | hd
        · exact hak
        · exact Nat.lt_trans hak (hc.2.1 d hd)
    · split
      · rename_i hak
        subst hak
        split
        · exact hc.2.2
        · rename_i hb
          exact Memory.wf_cons.mpr ⟨hb, hc.2.1, hc.2.2⟩
      · refine Memory.wf_cons.mpr ⟨hc.1, ?_, ih hc.2.2⟩
        intro d hd
        rcases Memory.mem_write hd with rfl | hd
        · show k < a
          omega
        · exact hc.2.1 d hd

theorem Memory.read_write_same {m : List Host.Cell} (h : Memory.wf m = true) (a : Nat) (b : Byte) :
    Memory.read (Memory.write m a b) a = b := by
  induction m with
  | nil => by_cases hb : b = Memory.unlisted <;> simp [Memory.write, hb, Memory.read]
  | cons c m ih =>
    obtain ⟨k, v⟩ := c
    have hc := Memory.wf_cons.mp h
    simp only [Memory.write]
    split
    · rename_i hak
      split
      · rename_i hb
        rw [hb]
        refine Memory.read_of_absent fun d hd => ?_
        rcases List.mem_cons.mp hd with rfl | hd
        · show k ≠ a
          omega
        · have := hc.2.1 d hd; omega
      · simp [Memory.read]
    · split
      · rename_i hak
        subst hak
        split
        · rename_i hb
          rw [hb]
          refine Memory.read_of_absent fun d hd => ?_
          have := hc.2.1 d hd; omega
        · simp [Memory.read]
      · rename_i h1 h2
        have hk : k ≠ a := fun e => h2 e.symm
        simp only [Memory.read, hk, if_false]
        exact ih hc.2.2

theorem Memory.read_write_other {m : List Host.Cell} (h : Memory.wf m = true) {a x : Nat} (b : Byte)
    (hx : x ≠ a) : Memory.read (Memory.write m a b) x = Memory.read m x := by
  induction m with
  | nil =>
    by_cases hb : b = Memory.unlisted
    · simp [Memory.write, hb]
    · simp [Memory.write, hb, Memory.read, hx.symm]
  | cons c m ih =>
    obtain ⟨k, v⟩ := c
    have hc := Memory.wf_cons.mp h
    simp only [Memory.write]
    split
    · split
      · rfl
      · simp [Memory.read, hx.symm]
    · split
      · rename_i hak
        subst hak
        split
        · rw [Memory.read, if_neg hx.symm]
        · simp [Memory.read, hx.symm]
      · simp only [Memory.read]
        split
        · rfl
        · exact ih hc.2.2

theorem Memory.wf_store {m : List Host.Cell} (h : Memory.wf m = true) (a : Nat) (bs : List Byte) :
    Memory.wf (Memory.store m a bs) = true := by
  induction bs generalizing m a with
  | nil => exact h
  | cons b bs ih => exact ih (Memory.wf_write h a b) (a + 1)

theorem Memory.wf_scramble {m : List Host.Cell} (h : Memory.wf m = true) (d n : Nat) :
    Memory.wf (Memory.scramble d m n) = true := by
  induction n with
  | zero => exact h
  | succ n ih => exact Memory.wf_write ih n _

/-- A byte outside the stored ones reads as before. -/
theorem Memory.read_store_other {m : List Host.Cell} (h : Memory.wf m = true) {a x : Nat}
    {bs : List Byte} (hx : x < a ∨ a + bs.length ≤ x) :
    Memory.read (Memory.store m a bs) x = Memory.read m x := by
  induction bs generalizing m a with
  | nil => rfl
  | cons b bs ih =>
    simp only [List.length_cons] at hx
    rw [Memory.store, ih (Memory.wf_write h a b) (by omega), Memory.read_write_other h b (by omega)]

/-- A stored byte reads back. -/
theorem Memory.read_store {m : List Host.Cell} (h : Memory.wf m = true) (a : Nat) {bs : List Byte}
    {j : Nat} (hj : j < bs.length) : Memory.read (Memory.store m a bs) (a + j) = bs[j] := by
  induction bs generalizing m a j with
  | nil => simp at hj
  | cons b bs ih =>
    cases j with
    | zero =>
      rw [Memory.store, Memory.read_store_other (Memory.wf_write h a b) (by omega)]
      simpa using Memory.read_write_same h a b
    | succ j =>
      have hj' : j < bs.length := by simpa using hj
      have := ih (Memory.wf_write h a b) (a + 1) hj'
      rw [Memory.store]
      simpa [Nat.add_assoc, Nat.add_comm 1 j] using this

/-- A byte beyond the scrambled ones reads as before. -/
theorem Memory.read_scramble_other {m : List Host.Cell} (h : Memory.wf m = true) (d : Nat) {n x : Nat}
    (hx : n ≤ x) : Memory.read (Memory.scramble d m n) x = Memory.read m x := by
  induction n with
  | zero => rfl
  | succ n ih =>
    rw [Memory.scramble, Memory.read_write_other (Memory.wf_scramble h d n) _ (by omega), ih (by omega)]

@[simp] theorem Memory.bits_length (m : List Host.Cell) (i n : Nat) : (Memory.bits m i n).length = n := by
  induction n generalizing i with
  | zero => rfl
  | succ n ih => simp [Memory.bits, ih]

/-- Reading `a + b` bits is reading `a` bits, then `b` bits (R63). -/
theorem Memory.bits_add (m : List Host.Cell) (i a b : Nat) :
    Memory.bits m i (a + b) = Memory.bits m i a ++ Memory.bits m (i + a) b := by
  induction a generalizing i with
  | zero => simp [Memory.bits]
  | succ a ih =>
    rw [Nat.succ_add]
    simp [Memory.bits, ih, Nat.add_assoc, Nat.add_comm 1 a]

@[simp] theorem packBytes_length (n : Nat) (b : Bits) : (packBytes n b).length = n := by
  induction n generalizing b with
  | zero => rfl
  | succ n ih => simp [packBytes, ih]

theorem packBytes_getElem {n : Nat} {b : Bits} {j : Nat} (hj : j < (packBytes n b).length) :
    (packBytes n b)[j] = BitVec.ofNat 8 (uval ((b.drop (8 * j)).take 8)) := by
  induction n generalizing b j with
  | zero => simp [packBytes] at hj
  | succ n ih =>
    cases j with
    | zero => simp [packBytes]
    | succ j =>
      have hj' : j < (packBytes n (b.drop 8)).length := by simpa [packBytes] using hj
      have := ih hj'
      simp only [packBytes, List.getElem_cons_succ, this, List.drop_drop]
      rw [show 8 + 8 * j = 8 * (j + 1) by ring]

@[simp] theorem State.unread_length (s : State) : s.unread.length = s.unreadCount := by
  simp [State.unread]

theorem State.reset_memory_wf : Memory.wf State.reset.bs = true := rfl

end Sys2Proof.Machine
end

