-- ==== Sys2Proof/Laws/State.lean ====
section
/-! SUPPORT. One lemma per field of the state for every named operation on it, so that no proof unfolds a record update. -/

namespace Sys2Proof.Machine

/-! ## writeBits -/

@[simp] theorem writeBits_phase (b : Bits) (s : State) : (writeBits b s).phase = s.phase := rfl
@[simp] theorem writeBits_err (b : Bits) (s : State) : (writeBits b s).err = s.err := rfl
@[simp] theorem writeBits_nblk (b : Bits) (s : State) : (writeBits b s).nblk = s.nblk := rfl
@[simp] theorem writeBits_blk (b : Bits) (s : State) : (writeBits b s).blk = s.blk := rfl
@[simp] theorem writeBits_ch (b : Bits) (s : State) : (writeBits b s).ch = s.ch := rfl
@[simp] theorem writeBits_wpos (b : Bits) (s : State) : (writeBits b s).wpos = s.wpos + BitVec.ofNat 64 b.length := rfl
@[simp] theorem writeBits_rpos (b : Bits) (s : State) : (writeBits b s).rpos = s.rpos := rfl
@[simp] theorem writeBits_bslen (b : Bits) (s : State) : (writeBits b s).bslen = s.bslen := rfl
@[simp] theorem writeBits_co (b : Bits) (s : State) : (writeBits b s).co = s.co := rfl
@[simp] theorem writeBits_cbuf (b : Bits) (s : State) : (writeBits b s).cbuf = s.cbuf := rfl
@[simp] theorem writeBits_freq (b : Bits) (s : State) : (writeBits b s).freq = s.freq := rfl
@[simp] theorem writeBits_etab (b : Bits) (s : State) : (writeBits b s).etab = s.etab := rfl
@[simp] theorem writeBits_dtab (b : Bits) (s : State) : (writeBits b s).dtab = s.dtab := rfl
@[simp] theorem writeBits_out (b : Bits) (s : State) : (writeBits b s).out = s.out ++ b := rfl
@[simp] theorem writeBits_bs (b : Bits) (s : State) : (writeBits b s).bs = s.bs := rfl
@[simp] theorem writeBits_cbufBlocks (b : Bits) (s : State) : (writeBits b s).cbufBlocks = s.cbufBlocks := rfl
@[simp] theorem writeBits_bsCap (b : Bits) (s : State) : (writeBits b s).bsCap = s.bsCap := rfl
@[simp] theorem writeBits_framer (b : Bits) (s : State) : (writeBits b s).framer = s.framer := rfl
@[simp] theorem writeBits_bus (b : Bits) (s : State) : (writeBits b s).bus = s.bus := rfl
@[simp] theorem writeBits_rdata (b : Bits) (s : State) : (writeBits b s).rdata = s.rdata := rfl
@[simp] theorem writeBits_draws (b : Bits) (s : State) : (writeBits b s).draws = s.draws := rfl

/-! ## skipBits -/

@[simp] theorem skipBits_phase (n : Nat) (s : State) : (skipBits n s).phase = s.phase := rfl
@[simp] theorem skipBits_err (n : Nat) (s : State) : (skipBits n s).err = s.err := rfl
@[simp] theorem skipBits_nblk (n : Nat) (s : State) : (skipBits n s).nblk = s.nblk := rfl
@[simp] theorem skipBits_blk (n : Nat) (s : State) : (skipBits n s).blk = s.blk := rfl
@[simp] theorem skipBits_ch (n : Nat) (s : State) : (skipBits n s).ch = s.ch := rfl
@[simp] theorem skipBits_wpos (n : Nat) (s : State) : (skipBits n s).wpos = s.wpos := rfl
@[simp] theorem skipBits_rpos (n : Nat) (s : State) : (skipBits n s).rpos = s.rpos + BitVec.ofNat 64 n := rfl
@[simp] theorem skipBits_bslen (n : Nat) (s : State) : (skipBits n s).bslen = s.bslen := rfl
@[simp] theorem skipBits_co (n : Nat) (s : State) : (skipBits n s).co = s.co := rfl
@[simp] theorem skipBits_cbuf (n : Nat) (s : State) : (skipBits n s).cbuf = s.cbuf := rfl
@[simp] theorem skipBits_freq (n : Nat) (s : State) : (skipBits n s).freq = s.freq := rfl
@[simp] theorem skipBits_etab (n : Nat) (s : State) : (skipBits n s).etab = s.etab := rfl
@[simp] theorem skipBits_dtab (n : Nat) (s : State) : (skipBits n s).dtab = s.dtab := rfl
@[simp] theorem skipBits_out (n : Nat) (s : State) : (skipBits n s).out = s.out := rfl
@[simp] theorem skipBits_bs (n : Nat) (s : State) : (skipBits n s).bs = s.bs := rfl
@[simp] theorem skipBits_cbufBlocks (n : Nat) (s : State) : (skipBits n s).cbufBlocks = s.cbufBlocks := rfl
@[simp] theorem skipBits_bsCap (n : Nat) (s : State) : (skipBits n s).bsCap = s.bsCap := rfl
@[simp] theorem skipBits_framer (n : Nat) (s : State) : (skipBits n s).framer = s.framer := rfl
@[simp] theorem skipBits_bus (n : Nat) (s : State) : (skipBits n s).bus = s.bus := rfl
@[simp] theorem skipBits_rdata (n : Nat) (s : State) : (skipBits n s).rdata = s.rdata := rfl
@[simp] theorem skipBits_draws (n : Nat) (s : State) : (skipBits n s).draws = s.draws := rfl

/-! ## rewind -/

@[simp] theorem rewind_phase (s : State) : (rewind s).phase = s.phase := rfl
@[simp] theorem rewind_err (s : State) : (rewind s).err = s.err := rfl
@[simp] theorem rewind_nblk (s : State) : (rewind s).nblk = s.nblk := rfl
@[simp] theorem rewind_blk (s : State) : (rewind s).blk = 0 := rfl
@[simp] theorem rewind_ch (s : State) : (rewind s).ch = 0 := rfl
@[simp] theorem rewind_wpos (s : State) : (rewind s).wpos = s.wpos := rfl
@[simp] theorem rewind_rpos (s : State) : (rewind s).rpos = s.rpos := rfl
@[simp] theorem rewind_bslen (s : State) : (rewind s).bslen = s.bslen := rfl
@[simp] theorem rewind_co (s : State) : (rewind s).co = s.co := rfl
@[simp] theorem rewind_cbuf (s : State) : (rewind s).cbuf = s.cbuf := rfl
@[simp] theorem rewind_freq (s : State) : (rewind s).freq = s.freq := rfl
@[simp] theorem rewind_etab (s : State) : (rewind s).etab = s.etab := rfl
@[simp] theorem rewind_dtab (s : State) : (rewind s).dtab = s.dtab := rfl
@[simp] theorem rewind_out (s : State) : (rewind s).out = s.out := rfl
@[simp] theorem rewind_bs (s : State) : (rewind s).bs = s.bs := rfl
@[simp] theorem rewind_cbufBlocks (s : State) : (rewind s).cbufBlocks = s.cbufBlocks := rfl
@[simp] theorem rewind_bsCap (s : State) : (rewind s).bsCap = s.bsCap := rfl
@[simp] theorem rewind_framer (s : State) : (rewind s).framer = s.framer := rfl
@[simp] theorem rewind_bus (s : State) : (rewind s).bus = s.bus := rfl
@[simp] theorem rewind_rdata (s : State) : (rewind s).rdata = s.rdata := rfl
@[simp] theorem rewind_draws (s : State) : (rewind s).draws = s.draws := rfl

/-! ## resetState -/

@[simp] theorem resetState_phase (s : State) : (resetState s).phase = .idle := rfl
@[simp] theorem resetState_err (s : State) : (resetState s).err = 0 := rfl
@[simp] theorem resetState_nblk (s : State) : (resetState s).nblk = 0 := rfl
@[simp] theorem resetState_blk (s : State) : (resetState s).blk = 0 := rfl
@[simp] theorem resetState_ch (s : State) : (resetState s).ch = 0 := rfl
@[simp] theorem resetState_wpos (s : State) : (resetState s).wpos = 0 := rfl
@[simp] theorem resetState_rpos (s : State) : (resetState s).rpos = 0 := rfl
@[simp] theorem resetState_bslen (s : State) : (resetState s).bslen = 0 := rfl
@[simp] theorem resetState_co (s : State) : (resetState s).co = Vector.replicate 64 0 := rfl
@[simp] theorem resetState_cbuf (s : State) : (resetState s).cbuf = [] := rfl
@[simp] theorem resetState_freq (s : State) : (resetState s).freq = ⟨[], [], [], []⟩ := rfl
@[simp] theorem resetState_etab (s : State) : (resetState s).etab = ⟨[], [], [], []⟩ := rfl
@[simp] theorem resetState_dtab (s : State) : (resetState s).dtab = ⟨[], [], [], []⟩ := rfl
@[simp] theorem resetState_out (s : State) : (resetState s).out = [] := rfl
@[simp] theorem resetState_bs (s : State) : (resetState s).bs = s.bs := rfl
@[simp] theorem resetState_cbufBlocks (s : State) : (resetState s).cbufBlocks = s.cbufBlocks := rfl
@[simp] theorem resetState_bsCap (s : State) : (resetState s).bsCap = s.bsCap := rfl
@[simp] theorem resetState_framer (s : State) : (resetState s).framer = .rest := rfl
@[simp] theorem resetState_bus (s : State) : (resetState s).bus = s.bus := rfl
@[simp] theorem resetState_rdata (s : State) : (resetState s).rdata = s.rdata := rfl
@[simp] theorem resetState_draws (s : State) : (resetState s).draws = s.draws := rfl

/-! ## scramble -/

@[simp] theorem scramble_phase (s : State) : (scramble s).phase = s.phase := rfl
@[simp] theorem scramble_err (s : State) : (scramble s).err = s.err := rfl
@[simp] theorem scramble_bs (s : State) : (scramble s).bs = s.bs := rfl
@[simp] theorem scramble_cbufBlocks (s : State) : (scramble s).cbufBlocks = s.cbufBlocks := rfl
@[simp] theorem scramble_bsCap (s : State) : (scramble s).bsCap = s.bsCap := rfl
@[simp] theorem scramble_framer (s : State) : (scramble s).framer = s.framer := rfl
@[simp] theorem scramble_bus (s : State) : (scramble s).bus = s.bus := rfl
@[simp] theorem scramble_rdata (s : State) : (scramble s).rdata = s.rdata := rfl
@[simp] theorem scramble_draws (s : State) : (scramble s).draws = s.draws + 1 := rfl

/-! ## raiseOver -/

@[simp] theorem raiseOver_phase (n : Nat) (e : ErrCode) (s : State) : (raiseOver n e s).phase = .fault := rfl
@[simp] theorem raiseOver_err (n : Nat) (e : ErrCode) (s : State) : (raiseOver n e s).err = e.code := rfl
@[simp] theorem raiseOver_bs (n : Nat) (e : ErrCode) (s : State) : (raiseOver n e s).bs = Memory.scramble s.draws s.bs n := rfl
@[simp] theorem raiseOver_cbufBlocks (n : Nat) (e : ErrCode) (s : State) : (raiseOver n e s).cbufBlocks = s.cbufBlocks := rfl
@[simp] theorem raiseOver_bsCap (n : Nat) (e : ErrCode) (s : State) : (raiseOver n e s).bsCap = s.bsCap := rfl
@[simp] theorem raiseOver_framer (n : Nat) (e : ErrCode) (s : State) : (raiseOver n e s).framer = .rest := rfl
@[simp] theorem raiseOver_bus (n : Nat) (e : ErrCode) (s : State) : (raiseOver n e s).bus = s.bus := rfl
@[simp] theorem raiseOver_rdata (n : Nat) (e : ErrCode) (s : State) : (raiseOver n e s).rdata = s.rdata := rfl
@[simp] theorem raiseOver_draws (n : Nat) (e : ErrCode) (s : State) : (raiseOver n e s).draws = s.draws + 1 := rfl

/-! ## raise -/

@[simp] theorem raise_phase (e : ErrCode) (s : State) : (raise e s).phase = .fault := rfl
@[simp] theorem raise_err (e : ErrCode) (s : State) : (raise e s).err = e.code := rfl
@[simp] theorem raise_bs (e : ErrCode) (s : State) : (raise e s).bs = Memory.scramble s.draws s.bs s.bytesWritten := rfl
@[simp] theorem raise_cbufBlocks (e : ErrCode) (s : State) : (raise e s).cbufBlocks = s.cbufBlocks := rfl
@[simp] theorem raise_bsCap (e : ErrCode) (s : State) : (raise e s).bsCap = s.bsCap := rfl
@[simp] theorem raise_framer (e : ErrCode) (s : State) : (raise e s).framer = .rest := rfl
@[simp] theorem raise_bus (e : ErrCode) (s : State) : (raise e s).bus = s.bus := rfl
@[simp] theorem raise_rdata (e : ErrCode) (s : State) : (raise e s).rdata = s.rdata := rfl
@[simp] theorem raise_draws (e : ErrCode) (s : State) : (raise e s).draws = s.draws + 1 := rfl

/-! ## advance -/

@[simp] theorem advance_phase (s : State) : (advance s).phase = s.phase := by unfold advance; split <;> rfl
@[simp] theorem advance_err (s : State) : (advance s).err = s.err := by unfold advance; split <;> rfl
@[simp] theorem advance_nblk (s : State) : (advance s).nblk = s.nblk := by unfold advance; split <;> rfl
@[simp] theorem advance_blk (s : State) : (advance s).blk = if s.ch.toNat < 2 then s.blk else s.blk + 1 := by unfold advance; split <;> rfl
@[simp] theorem advance_ch (s : State) : (advance s).ch = if s.ch.toNat < 2 then s.ch + 1 else 0 := by unfold advance; split <;> rfl
@[simp] theorem advance_wpos (s : State) : (advance s).wpos = s.wpos := by unfold advance; split <;> rfl
@[simp] theorem advance_rpos (s : State) : (advance s).rpos = s.rpos := by unfold advance; split <;> rfl
@[simp] theorem advance_bslen (s : State) : (advance s).bslen = s.bslen := by unfold advance; split <;> rfl
@[simp] theorem advance_co (s : State) : (advance s).co = s.co := by unfold advance; split <;> rfl
@[simp] theorem advance_cbuf (s : State) : (advance s).cbuf = s.cbuf := by unfold advance; split <;> rfl
@[simp] theorem advance_freq (s : State) : (advance s).freq = s.freq := by unfold advance; split <;> rfl
@[simp] theorem advance_etab (s : State) : (advance s).etab = s.etab := by unfold advance; split <;> rfl
@[simp] theorem advance_dtab (s : State) : (advance s).dtab = s.dtab := by unfold advance; split <;> rfl
@[simp] theorem advance_out (s : State) : (advance s).out = s.out := by unfold advance; split <;> rfl
@[simp] theorem advance_bs (s : State) : (advance s).bs = s.bs := by unfold advance; split <;> rfl
@[simp] theorem advance_cbufBlocks (s : State) : (advance s).cbufBlocks = s.cbufBlocks := by unfold advance; split <;> rfl
@[simp] theorem advance_bsCap (s : State) : (advance s).bsCap = s.bsCap := by unfold advance; split <;> rfl
@[simp] theorem advance_framer (s : State) : (advance s).framer = s.framer := by unfold advance; split <;> rfl
@[simp] theorem advance_bus (s : State) : (advance s).bus = s.bus := by unfold advance; split <;> rfl
@[simp] theorem advance_rdata (s : State) : (advance s).rdata = s.rdata := by unfold advance; split <;> rfl
@[simp] theorem advance_draws (s : State) : (advance s).draws = s.draws := by unfold advance; split <;> rfl

/-! ## emit -/

@[simp] theorem emit_phase (i : Instr) (is : List Instr) (s : State) : (emit i is s).phase = s.phase := rfl
@[simp] theorem emit_err (i : Instr) (is : List Instr) (s : State) : (emit i is s).err = s.err := rfl
@[simp] theorem emit_nblk (i : Instr) (is : List Instr) (s : State) : (emit i is s).nblk = s.nblk := rfl
@[simp] theorem emit_blk (i : Instr) (is : List Instr) (s : State) : (emit i is s).blk = s.blk := rfl
@[simp] theorem emit_ch (i : Instr) (is : List Instr) (s : State) : (emit i is s).ch = s.ch := rfl
@[simp] theorem emit_wpos (i : Instr) (is : List Instr) (s : State) : (emit i is s).wpos = s.wpos + BitVec.ofNat 64 (encode i).length := rfl
@[simp] theorem emit_rpos (i : Instr) (is : List Instr) (s : State) : (emit i is s).rpos = s.rpos := rfl
@[simp] theorem emit_bslen (i : Instr) (is : List Instr) (s : State) : (emit i is s).bslen = s.bslen := rfl
@[simp] theorem emit_co (i : Instr) (is : List Instr) (s : State) : (emit i is s).co = s.co := rfl
@[simp] theorem emit_cbuf (i : Instr) (is : List Instr) (s : State) : (emit i is s).cbuf = s.cbuf := rfl
@[simp] theorem emit_freq (i : Instr) (is : List Instr) (s : State) : (emit i is s).freq = s.freq := rfl
@[simp] theorem emit_etab (i : Instr) (is : List Instr) (s : State) : (emit i is s).etab = s.etab := rfl
@[simp] theorem emit_dtab (i : Instr) (is : List Instr) (s : State) : (emit i is s).dtab = s.dtab := rfl
@[simp] theorem emit_out (i : Instr) (is : List Instr) (s : State) : (emit i is s).out = s.out ++ encode i := rfl
@[simp] theorem emit_bs (i : Instr) (is : List Instr) (s : State) : (emit i is s).bs = s.bs := rfl
@[simp] theorem emit_cbufBlocks (i : Instr) (is : List Instr) (s : State) : (emit i is s).cbufBlocks = s.cbufBlocks := rfl
@[simp] theorem emit_bsCap (i : Instr) (is : List Instr) (s : State) : (emit i is s).bsCap = s.bsCap := rfl
@[simp] theorem emit_bus (i : Instr) (is : List Instr) (s : State) : (emit i is s).bus = s.bus := rfl
@[simp] theorem emit_rdata (i : Instr) (is : List Instr) (s : State) : (emit i is s).rdata = s.rdata := rfl
@[simp] theorem emit_draws (i : Instr) (is : List Instr) (s : State) : (emit i is s).draws = s.draws := rfl

/-! ## take -/

@[simp] theorem take_phase (i : Instr) (f : Framer) (s : State) : (take i f s).phase = s.phase := rfl
@[simp] theorem take_err (i : Instr) (f : Framer) (s : State) : (take i f s).err = s.err := rfl
@[simp] theorem take_nblk (i : Instr) (f : Framer) (s : State) : (take i f s).nblk = s.nblk := rfl
@[simp] theorem take_blk (i : Instr) (f : Framer) (s : State) : (take i f s).blk = s.blk := rfl
@[simp] theorem take_ch (i : Instr) (f : Framer) (s : State) : (take i f s).ch = s.ch := rfl
@[simp] theorem take_wpos (i : Instr) (f : Framer) (s : State) : (take i f s).wpos = s.wpos := rfl
@[simp] theorem take_rpos (i : Instr) (f : Framer) (s : State) : (take i f s).rpos = s.rpos + BitVec.ofNat 64 (encode i).length := rfl
@[simp] theorem take_bslen (i : Instr) (f : Framer) (s : State) : (take i f s).bslen = s.bslen := rfl
@[simp] theorem take_co (i : Instr) (f : Framer) (s : State) : (take i f s).co = s.co := rfl
@[simp] theorem take_cbuf (i : Instr) (f : Framer) (s : State) : (take i f s).cbuf = s.cbuf := rfl
@[simp] theorem take_freq (i : Instr) (f : Framer) (s : State) : (take i f s).freq = s.freq := rfl
@[simp] theorem take_etab (i : Instr) (f : Framer) (s : State) : (take i f s).etab = s.etab := rfl
@[simp] theorem take_dtab (i : Instr) (f : Framer) (s : State) : (take i f s).dtab = s.dtab := rfl
@[simp] theorem take_out (i : Instr) (f : Framer) (s : State) : (take i f s).out = s.out := rfl
@[simp] theorem take_bs (i : Instr) (f : Framer) (s : State) : (take i f s).bs = s.bs := rfl
@[simp] theorem take_cbufBlocks (i : Instr) (f : Framer) (s : State) : (take i f s).cbufBlocks = s.cbufBlocks := rfl
@[simp] theorem take_bsCap (i : Instr) (f : Framer) (s : State) : (take i f s).bsCap = s.bsCap := rfl
@[simp] theorem take_framer (i : Instr) (f : Framer) (s : State) : (take i f s).framer = f := rfl
@[simp] theorem take_bus (i : Instr) (f : Framer) (s : State) : (take i f s).bus = s.bus := rfl
@[simp] theorem take_rdata (i : Instr) (f : Framer) (s : State) : (take i f s).rdata = s.rdata := rfl
@[simp] theorem take_draws (i : Instr) (f : Framer) (s : State) : (take i f s).draws = s.draws := rfl

/-! ## beginEncode -/

@[simp] theorem beginEncode_phase (s : State) : (beginEncode s).phase = .encCollect := rfl
@[simp] theorem beginEncode_err (s : State) : (beginEncode s).err = s.err := rfl
@[simp] theorem beginEncode_nblk (s : State) : (beginEncode s).nblk = s.nblk := rfl
@[simp] theorem beginEncode_blk (s : State) : (beginEncode s).blk = 0 := rfl
@[simp] theorem beginEncode_ch (s : State) : (beginEncode s).ch = 0 := rfl
@[simp] theorem beginEncode_wpos (s : State) : (beginEncode s).wpos = 0 := rfl
@[simp] theorem beginEncode_rpos (s : State) : (beginEncode s).rpos = s.rpos := rfl
@[simp] theorem beginEncode_bslen (s : State) : (beginEncode s).bslen = s.bslen := rfl
@[simp] theorem beginEncode_co (s : State) : (beginEncode s).co = s.co := rfl
@[simp] theorem beginEncode_cbuf (s : State) : (beginEncode s).cbuf = [] := rfl
@[simp] theorem beginEncode_freq (s : State) : (beginEncode s).freq = ⟨[], [], [], []⟩ := rfl
@[simp] theorem beginEncode_etab (s : State) : (beginEncode s).etab = ⟨[], [], [], []⟩ := rfl
@[simp] theorem beginEncode_dtab (s : State) : (beginEncode s).dtab = s.dtab := rfl
@[simp] theorem beginEncode_out (s : State) : (beginEncode s).out = [] := rfl
@[simp] theorem beginEncode_bs (s : State) : (beginEncode s).bs = s.bs := rfl
@[simp] theorem beginEncode_cbufBlocks (s : State) : (beginEncode s).cbufBlocks = s.cbufBlocks := rfl
@[simp] theorem beginEncode_bsCap (s : State) : (beginEncode s).bsCap = s.bsCap := rfl
@[simp] theorem beginEncode_framer (s : State) : (beginEncode s).framer = s.framer := rfl
@[simp] theorem beginEncode_bus (s : State) : (beginEncode s).bus = s.bus := rfl
@[simp] theorem beginEncode_rdata (s : State) : (beginEncode s).rdata = s.rdata := rfl
@[simp] theorem beginEncode_draws (s : State) : (beginEncode s).draws = s.draws := rfl

/-! ## beginDecode -/

@[simp] theorem beginDecode_phase (s : State) : (beginDecode s).phase = .decHdr := rfl
@[simp] theorem beginDecode_err (s : State) : (beginDecode s).err = s.err := rfl
@[simp] theorem beginDecode_nblk (s : State) : (beginDecode s).nblk = s.nblk := rfl
@[simp] theorem beginDecode_blk (s : State) : (beginDecode s).blk = 0 := rfl
@[simp] theorem beginDecode_ch (s : State) : (beginDecode s).ch = 0 := rfl
@[simp] theorem beginDecode_wpos (s : State) : (beginDecode s).wpos = s.wpos := rfl
@[simp] theorem beginDecode_rpos (s : State) : (beginDecode s).rpos = 0 := rfl
@[simp] theorem beginDecode_bslen (s : State) : (beginDecode s).bslen = s.bslen := rfl
@[simp] theorem beginDecode_co (s : State) : (beginDecode s).co = s.co := rfl
@[simp] theorem beginDecode_cbuf (s : State) : (beginDecode s).cbuf = s.cbuf := rfl
@[simp] theorem beginDecode_freq (s : State) : (beginDecode s).freq = s.freq := rfl
@[simp] theorem beginDecode_etab (s : State) : (beginDecode s).etab = s.etab := rfl
@[simp] theorem beginDecode_dtab (s : State) : (beginDecode s).dtab = ⟨[], [], [], []⟩ := rfl
@[simp] theorem beginDecode_out (s : State) : (beginDecode s).out = s.out := rfl
@[simp] theorem beginDecode_bs (s : State) : (beginDecode s).bs = s.bs := rfl
@[simp] theorem beginDecode_cbufBlocks (s : State) : (beginDecode s).cbufBlocks = s.cbufBlocks := rfl
@[simp] theorem beginDecode_bsCap (s : State) : (beginDecode s).bsCap = s.bsCap := rfl
@[simp] theorem beginDecode_framer (s : State) : (beginDecode s).framer = s.framer := rfl
@[simp] theorem beginDecode_bus (s : State) : (beginDecode s).bus = s.bus := rfl
@[simp] theorem beginDecode_rdata (s : State) : (beginDecode s).rdata = s.rdata := rfl
@[simp] theorem beginDecode_draws (s : State) : (beginDecode s).draws = s.draws := rfl

/-! ## endHeader -/

@[simp] theorem endHeader_phase (s : State) : (endHeader s).phase = if s.nblk = 0 then .done else .decBlocks := rfl
@[simp] theorem endHeader_err (s : State) : (endHeader s).err = s.err := rfl
@[simp] theorem endHeader_nblk (s : State) : (endHeader s).nblk = s.nblk := rfl
@[simp] theorem endHeader_blk (s : State) : (endHeader s).blk = 0 := rfl
@[simp] theorem endHeader_ch (s : State) : (endHeader s).ch = 0 := rfl
@[simp] theorem endHeader_wpos (s : State) : (endHeader s).wpos = s.wpos := rfl
@[simp] theorem endHeader_rpos (s : State) : (endHeader s).rpos = s.rpos := rfl
@[simp] theorem endHeader_bslen (s : State) : (endHeader s).bslen = s.bslen := rfl
@[simp] theorem endHeader_co (s : State) : (endHeader s).co = s.co := rfl
@[simp] theorem endHeader_cbuf (s : State) : (endHeader s).cbuf = s.cbuf := rfl
@[simp] theorem endHeader_freq (s : State) : (endHeader s).freq = s.freq := rfl
@[simp] theorem endHeader_etab (s : State) : (endHeader s).etab = s.etab := rfl
@[simp] theorem endHeader_dtab (s : State) : (endHeader s).dtab = s.dtab := rfl
@[simp] theorem endHeader_out (s : State) : (endHeader s).out = s.out := rfl
@[simp] theorem endHeader_bs (s : State) : (endHeader s).bs = s.bs := rfl
@[simp] theorem endHeader_cbufBlocks (s : State) : (endHeader s).cbufBlocks = s.cbufBlocks := rfl
@[simp] theorem endHeader_bsCap (s : State) : (endHeader s).bsCap = s.bsCap := rfl
@[simp] theorem endHeader_framer (s : State) : (endHeader s).framer = s.framer := rfl
@[simp] theorem endHeader_bus (s : State) : (endHeader s).bus = s.bus := rfl
@[simp] theorem endHeader_rdata (s : State) : (endHeader s).rdata = s.rdata := rfl
@[simp] theorem endHeader_draws (s : State) : (endHeader s).draws = s.draws := rfl

/-! ## endPair -/

@[simp] theorem endPair_phase (s : State) : (endPair s).phase = if (advance s).atEnd then .done else s.phase := by
  unfold endPair; simp only; split <;> simp_all
@[simp] theorem endPair_err (s : State) : (endPair s).err = s.err := by
  unfold endPair; simp only; split <;> simp_all
@[simp] theorem endPair_nblk (s : State) : (endPair s).nblk = s.nblk := by
  unfold endPair; simp only; split <;> simp_all
@[simp] theorem endPair_blk (s : State) : (endPair s).blk = (advance s).blk := by
  unfold endPair; simp only; split <;> simp_all
@[simp] theorem endPair_ch (s : State) : (endPair s).ch = (advance s).ch := by
  unfold endPair; simp only; split <;> simp_all
@[simp] theorem endPair_wpos (s : State) : (endPair s).wpos = s.wpos := by
  unfold endPair; simp only; split <;> simp_all
@[simp] theorem endPair_rpos (s : State) : (endPair s).rpos = s.rpos := by
  unfold endPair; simp only; split <;> simp_all
@[simp] theorem endPair_bslen (s : State) : (endPair s).bslen = s.bslen := by
  unfold endPair; simp only; split <;> simp_all
@[simp] theorem endPair_co (s : State) : (endPair s).co = s.co := by
  unfold endPair; simp only; split <;> simp_all
@[simp] theorem endPair_cbuf (s : State) : (endPair s).cbuf = s.cbuf := by
  unfold endPair; simp only; split <;> simp_all
@[simp] theorem endPair_freq (s : State) : (endPair s).freq = s.freq := by
  unfold endPair; simp only; split <;> simp_all
@[simp] theorem endPair_etab (s : State) : (endPair s).etab = s.etab := by
  unfold endPair; simp only; split <;> simp_all
@[simp] theorem endPair_dtab (s : State) : (endPair s).dtab = s.dtab := by
  unfold endPair; simp only; split <;> simp_all
@[simp] theorem endPair_out (s : State) : (endPair s).out = s.out := by
  unfold endPair; simp only; split <;> simp_all
@[simp] theorem endPair_bs (s : State) : (endPair s).bs = s.bs := by
  unfold endPair; simp only; split <;> simp_all
@[simp] theorem endPair_cbufBlocks (s : State) : (endPair s).cbufBlocks = s.cbufBlocks := by
  unfold endPair; simp only; split <;> simp_all
@[simp] theorem endPair_bsCap (s : State) : (endPair s).bsCap = s.bsCap := by
  unfold endPair; simp only; split <;> simp_all
@[simp] theorem endPair_framer (s : State) : (endPair s).framer = s.framer := by
  unfold endPair; simp only; split <;> simp_all
@[simp] theorem endPair_bus (s : State) : (endPair s).bus = s.bus := by
  unfold endPair; simp only; split <;> simp_all
@[simp] theorem endPair_rdata (s : State) : (endPair s).rdata = s.rdata := by
  unfold endPair; simp only; split <;> simp_all
@[simp] theorem endPair_draws (s : State) : (endPair s).draws = s.draws := by
  unfold endPair; simp only; split <;> simp_all

/-! ## storeContainer -/

@[simp] theorem storeContainer_phase (s : State) : (storeContainer s).phase = .done := rfl
@[simp] theorem storeContainer_err (s : State) : (storeContainer s).err = s.err := rfl
@[simp] theorem storeContainer_nblk (s : State) : (storeContainer s).nblk = s.nblk := rfl
@[simp] theorem storeContainer_blk (s : State) : (storeContainer s).blk = s.blk := rfl
@[simp] theorem storeContainer_ch (s : State) : (storeContainer s).ch = s.ch := rfl
@[simp] theorem storeContainer_wpos (s : State) : (storeContainer s).wpos = s.wpos := rfl
@[simp] theorem storeContainer_rpos (s : State) : (storeContainer s).rpos = s.rpos := rfl
@[simp] theorem storeContainer_bslen (s : State) : (storeContainer s).bslen = BitVec.ofNat 64 (s.wpos.toNat / 8) := rfl
@[simp] theorem storeContainer_co (s : State) : (storeContainer s).co = s.co := rfl
@[simp] theorem storeContainer_cbuf (s : State) : (storeContainer s).cbuf = s.cbuf := rfl
@[simp] theorem storeContainer_freq (s : State) : (storeContainer s).freq = s.freq := rfl
@[simp] theorem storeContainer_etab (s : State) : (storeContainer s).etab = s.etab := rfl
@[simp] theorem storeContainer_dtab (s : State) : (storeContainer s).dtab = s.dtab := rfl
@[simp] theorem storeContainer_out (s : State) : (storeContainer s).out = s.out := rfl
@[simp] theorem storeContainer_bs (s : State) : (storeContainer s).bs = Memory.store s.bs 0 (packBytes (s.wpos.toNat / 8) s.out) := rfl
@[simp] theorem storeContainer_cbufBlocks (s : State) : (storeContainer s).cbufBlocks = s.cbufBlocks := rfl
@[simp] theorem storeContainer_bsCap (s : State) : (storeContainer s).bsCap = s.bsCap := rfl
@[simp] theorem storeContainer_framer (s : State) : (storeContainer s).framer = s.framer := rfl
@[simp] theorem storeContainer_bus (s : State) : (storeContainer s).bus = s.bus := rfl
@[simp] theorem storeContainer_rdata (s : State) : (storeContainer s).rdata = s.rdata := rfl
@[simp] theorem storeContainer_draws (s : State) : (storeContainer s).draws = s.draws := rfl

end Sys2Proof.Machine
end

