-- ==== Sys2Proof/Laws/Ops.lean ====
section
/-! SUPPORT. What each shared operation can do, said once: the phase test, the element operation, the element loop, the host's
accesses, the step. -/

namespace Sys2Proof.Machine

/-! ## The phase test and what follows a part of a command -/

theorem whenLegal_of_fault {legal : Bool} {s : State} {effect : State → Result} (h : s.phase = .fault) :
    whenLegal legal s effect = .next s := by simp [whenLegal, h]

theorem whenLegal_of_legal {s : State} {effect : State → Result} (h : s.phase ≠ .fault) :
    whenLegal true s effect = effect s := by simp [whenLegal, h]

theorem whenLegal_of_illegal {s : State} {effect : State → Result} (h : s.phase ≠ .fault) :
    whenLegal false s effect = .next (raise .eSeq s) := by simp [whenLegal, h]

/-- Everything a command with a phase test can answer (R272, R274). -/
theorem whenLegal_cases {legal : Bool} {s : State} {effect : State → Result} {r : Result}
    (h : whenLegal legal s effect = r) :
    (s.phase = .fault ∧ r = .next s) ∨ (s.phase ≠ .fault ∧ legal = false ∧ r = .next (raise .eSeq s)) ∨
      (s.phase ≠ .fault ∧ legal = true ∧ r = effect s) := by
  subst h
  by_cases hf : s.phase = .fault
  · exact .inl ⟨hf, whenLegal_of_fault hf⟩
  · cases legal
    · exact .inr (.inl ⟨hf, rfl, whenLegal_of_illegal hf⟩)
    · exact .inr (.inr ⟨hf, rfl, whenLegal_of_legal hf⟩)

theorem andThen_eq_next {r : Result} {k : State → State} {t : State} (h : andThen r k = .next t) :
    (r = .next t ∧ t.phase = .fault) ∨ ∃ u, r = .next u ∧ u.phase ≠ .fault ∧ t = k u := by
  cases r with
  | next u =>
    simp only [andThen] at h
    split at h
    · rename_i hu
      simp only [Host.Outcome.next.injEq] at h
      subst h
      exact .inl ⟨rfl, hu⟩
    · rename_i hu
      simp only [Host.Outcome.next.injEq] at h
      exact .inr ⟨u, rfl, hu, h.symm⟩
  | fault f => simp [andThen] at h
  | refused f => simp [andThen] at h

theorem andThen_of_next {k : State → State} {u : State} (h : u.phase ≠ .fault) :
    andThen (.next u) k = .next (k u) := by simp [andThen, h]

/-! ## Stream elements -/

/-- Everything a stream element can do when it answers a next state: it is emitted; or it is refused with one of the two
faults that depend on the tables or the slot; or it is taken, and of the other elements of the state only `DTAB`, `NBLK`
and `CO` may change. -/
def ElementStep (i : Instr) (s t : State) : Prop :=
  (∃ is, s.framer = .writing i is ∧ t = emit i is s) ∨
  (∃ p, s.framer = .reading p ∧
    (t = raise .eTable s ∨ t = raise .eAcOverrun s ∨
      ∃ f d n c, t = { take i f s with dtab := d, nblk := n, co := c }))

theorem element_cases {i : Instr} {s t : State} {read : ReadPos → Result}
    (h : element i s read = .next t) :
    (∃ is, s.framer = .writing i is ∧ t = emit i is s) ∨
      (∃ p, s.framer = .reading p ∧ read p = .next t) := by
  unfold element at h
  split at h
  · rename_i j is hf
    split at h
    · rename_i hj
      subst hj
      simp only [Host.Outcome.next.injEq] at h
      exact .inl ⟨is, hf, h.symm⟩
    · cases h
  · rename_i p hf
    exact .inr ⟨p, hf, h⟩
  · cases h

theorem readEntry_cases {i : Instr} {c : SymClass} {left : Nat} {e : Entry} {s t : State}
    (h : readEntry i c left e s = .next t) :
    t = raise .eTable s ∨
      (e.code ≠ [] ∧ entryWith (s.dtab.get c) e.code = none ∧
        t = { take i (.reading (afterEntry c (left - 1))) s with
              dtab := s.dtab.set c (s.dtab.get c ++ [e]) }) := by
  unfold readEntry at h
  split at h
  · simp only [Host.Outcome.next.injEq] at h
    exact .inl h.symm
  · rename_i he
    split at h
    · simp only [Host.Outcome.next.injEq] at h
      exact .inl h.symm
    · rename_i hn
      simp only [Host.Outcome.next.injEq] at h
      exact .inr ⟨he, by simpa using hn, h.symm⟩

theorem readEntry_elementStep {i : Instr} {c : SymClass} {left : Nat} {e : Entry} {s t : State} {p : ReadPos}
    (hp : s.framer = .reading p) (h : readEntry i c left e s = .next t) : ElementStep i s t := by
  refine .inr ⟨p, hp, ?_⟩
  rcases readEntry_cases h with h | ⟨_, _, h⟩
  · exact .inl h
  · exact .inr (.inr ⟨_, _, s.nblk, s.co, h⟩)

theorem execTcount_step {n : BitVec 16} {s t : State} (h : execTcount n s = .next t) :
    ElementStep (.tcount n) s t := by
  rcases element_cases h with h | ⟨p, hp, h⟩
  · exact .inl h
  · cases p <;> simp only [reduceCtorEq, Host.Outcome.next.injEq] at h
    exact .inr ⟨_, hp, .inr (.inr ⟨_, _, s.nblk, s.co, h.symm⟩)⟩

theorem execDcent_step {c : BitVec 4} {b : Bits} {s t : State} (h : execDcent c b s = .next t) :
    ElementStep (.dcent c b) s t := by
  rcases element_cases h with h | ⟨p, hp, h⟩
  · exact .inl h
  · cases p <;> simp only [reduceCtorEq] at h
    split at h
    · exact readEntry_elementStep hp h
    · cases h

theorem execAcent_step {r z : BitVec 4} {b : Bits} {s t : State} (h : execAcent r z b s = .next t) :
    ElementStep (.acent r z b) s t := by
  rcases element_cases h with h | ⟨p, hp, h⟩
  · exact .inl h
  · cases p <;> simp only [reduceCtorEq] at h
    split at h
    · cases h
    · exact readEntry_elementStep hp h

theorem execBcount_step {n : Word} {s t : State} (h : execBcount n s = .next t) :
    ElementStep (.bcount n) s t := by
  rcases element_cases h with h | ⟨p, hp, h⟩
  · exact .inl h
  · cases p <;> simp only [reduceCtorEq, Host.Outcome.next.injEq] at h
    exact .inr ⟨_, hp, .inr (.inr ⟨_, s.dtab, _, s.co, h.symm⟩)⟩

theorem execDcsym_step {b v : Bits} {s t : State} (h : execDcsym b v s = .next t) :
    ElementStep (.dcsym b v) s t := by
  rcases element_cases h with h | ⟨p, hp, h⟩
  · exact .inl h
  · cases p <;> simp only [reduceCtorEq] at h
    split at h
    · split at h
      · simp only [Host.Outcome.next.injEq] at h
        exact .inr ⟨_, hp, .inr (.inr ⟨_, s.dtab, s.nblk, _, h.symm⟩)⟩
      · cases h
    · cases h

theorem execAcsym_step {b v : Bits} {s t : State} (h : execAcsym b v s = .next t) :
    ElementStep (.acsym b v) s t := by
  rcases element_cases h with h | ⟨p, hp, h⟩
  · exact .inl h
  · cases p <;> simp only [reduceCtorEq] at h
    split at h
    · split at h
      · split at h
        · simp only [Host.Outcome.next.injEq] at h
          exact .inr ⟨_, hp, .inr (.inr ⟨_, s.dtab, s.nblk, _, h.symm⟩)⟩
        · cases h
      · split at h
        · simp only [Host.Outcome.next.injEq] at h
          exact .inr ⟨_, hp, .inr (.inl h.symm)⟩
        · split at h
          · simp only [Host.Outcome.next.injEq] at h
            exact .inr ⟨_, hp, .inr (.inr ⟨_, s.dtab, s.nblk, _, h.symm⟩)⟩
          · cases h
    · cases h

/-- Everything a stream element can do when it answers a next state. -/
theorem runElement_step {i : Instr} {s t : State} (h : runElement i s = .next t) : ElementStep i s t := by
  cases i with
  | tcount n => exact execTcount_step h
  | dcent c b => exact execDcent_step h
  | acent r z b => exact execAcent_step h
  | bcount n => exact execBcount_step h
  | dcsym b v => exact execDcsym_step h
  | acsym b v => exact execAcsym_step h
  | _ => cases h

/-- Outside DONE no byte of `BS` has been written, and a fault leaves it as it is (R72, log 8). -/
theorem raise_bs_of_ne_done {e : ErrCode} {s : State} (h : s.phase ≠ .done) : (raise e s).bs = s.bs := by
  simp [raise, raiseOver, State.bytesWritten, h, Memory.scramble]

/-- A fault keeps the bytes of `BS` from `BSLEN` on (log 8). -/
theorem raise_read {e : ErrCode} {s : State} {a : Nat} (hm : s.MemoryOk) (ha : s.bslen.toNat ≤ a) :
    Memory.read (raise e s).bs a = Memory.read s.bs a := by
  refine Memory.read_scramble_other hm _ ?_
  unfold State.bytesWritten
  split <;> omega

/-- The faults that the meaning of a stream element can take (the others are the decoder's). -/
theorem runElement_fault {i : Instr} {s t : State} (h : runElement i s = .next t) (hs : s.phase ≠ .fault)
    (ht : t.phase = .fault) : t = raise .eTable s ∨ t = raise .eAcOverrun s := by
  rcases runElement_step h with ⟨_, _, rfl⟩ | ⟨_, _, h | h | ⟨_, _, _, _, rfl⟩⟩
  · exact absurd ht hs
  · exact .inl h
  · exact .inr h
  · exact absurd ht hs

/-- A property that every element step and every fault keeps holds after the element loop. -/
theorem runElements_induction {P : State → Prop} (hraise : ∀ s e, P s → P (raise e s))
    (helem : ∀ i s t, P s → ElementStep i s t → P t) :
    ∀ {n : Nat} {s t : State}, P s → runElements n s = .next t → P t := by
  intro n
  induction n with
  | zero =>
    intro s t hs h
    simp only [runElements] at h
    split at h
    · simp only [Host.Outcome.next.injEq] at h
      exact h ▸ hs
    · cases h
  | succ n ih =>
    intro s t hs h
    rw [runElements] at h
    split at h
    · simp only [Host.Outcome.next.injEq] at h
      exact h ▸ hs
    · simp only [Host.Outcome.next.injEq] at h
      exact h ▸ hraise _ _ hs
    · split at h
      · rename_i u hu
        exact ih (helem _ _ _ hs (runElement_step hu)) h
      · cases h
      · cases h

theorem nextElement_eq_none {s : State} (h : nextElement s = none) : s.framer = .rest := by
  unfold nextElement at h
  split at h
  · assumption
  · cases h
  · cases h

/-- The element loop ends with the framer at rest. -/
theorem runElements_rest {n : Nat} {s t : State} (h : runElements n s = .next t) : t.framer = .rest := by
  induction n generalizing s with
  | zero =>
    simp only [runElements] at h
    split at h
    · rename_i hr
      simp only [Host.Outcome.next.injEq] at h
      exact h ▸ hr
    · cases h
  | succ n ih =>
    rw [runElements] at h
    split at h
    · rename_i hn
      simp only [Host.Outcome.next.injEq] at h
      exact h ▸ nextElement_eq_none hn
    · simp only [Host.Outcome.next.injEq] at h
      subst h
      rfl
    · split at h
      · exact ih h
      · cases h
      · cases h

/-- One turn of the element loop for a writer: the element it stands at is emitted. -/
theorem runElement_writing {i : Instr} {is : List Instr} {s : State} (hc : isCommand i = false)
    (h : s.framer = .writing i is) : runElement i s = .next (emit i is s) := by
  cases i <;> simp [isCommand] at hc <;>
    simp [runElement, execTcount, execDcent, execAcent, execBcount, execDcsym, execAcsym, element, h]

/-! ## Steps -/

theorem runElement_eq_exec {i : Instr} (s : State) (h : isCommand i = false) : runElement i s = exec i s := by
  cases i <;> first | rfl | simp [isCommand] at h

theorem nextElement_of_rest {s : State} (h : s.framer = .rest) : nextElement s = none := by
  simp [nextElement, h]

theorem fetch_of_empty_bus {s : State} (h : s.framer = .rest) (hb : s.bus = []) :
    fetch s = .settled (.next s) := by
  unfold fetch
  rw [nextElement_of_rest h, hb]

theorem fetch_of_access {s : State} {a : HostAccess} {rest : List HostAccess} (h : s.framer = .rest)
    (hb : s.bus = a :: rest) : fetch s = fetchAccess a { s with bus := rest } := by
  unfold fetch
  rw [nextElement_of_rest h, hb]

theorem fetch_of_reading {s : State} {p : ReadPos} (h : s.framer = .reading p) :
    fetch s = match decode (p.position s.dtab) s.unread with
      | .ok r => .run r.1 s
      | .error e => .settled (.next (raise e.errCode s)) := by
  simp only [fetch, nextElement, h]
  cases decode (p.position s.dtab) s.unread <;> rfl

theorem fetch_of_writing {s : State} {i : Instr} {is : List Instr} (h : s.framer = .writing i is) :
    fetch s = .run i s := by
  simp [fetch, nextElement, h]

/-- Everything a host access to `BS` can answer. -/
theorem hostBs_cases {a : Nat} {s : State} {access : State → State} {r : Result}
    (h : hostBs a s access = r) :
    (s.hostOwnsBs = false ∧ r = .refused .bsNotHosts) ∨
      (s.hostOwnsBs = true ∧ s.bsCap ≤ a ∧ r = .fault .noSuchByte) ∨
      (s.hostOwnsBs = true ∧ a < s.bsCap ∧ r = .next (access s)) := by
  subst h
  unfold hostBs
  cases hb : s.hostOwnsBs
  · simp
  · by_cases ha : s.bsCap ≤ a
    · simp [ha]
    · simp [ha, Nat.lt_of_not_le ha]

/-- Everything a host write to a register other than `CMD` can change: one coefficient register, or, in IDLE, `NBLK` or
`BSLEN` (R23). -/
theorem writeReg_cases (offset : BitVec 9) (v : Word) (s : State) :
    (∃ i, coIndex offset = some i ∧
      writeReg offset v s = { s with co := s.co.setIfInBounds i (v.extractLsb' 0 16) }) ∨
    (s.phase = .idle ∧ (writeReg offset v s = { s with nblk := v } ∨
      ∃ n, writeReg offset v s = { s with bslen := n })) ∨
    writeReg offset v s = s := by
  unfold writeReg
  split
  · rename_i i hi
    exact .inl ⟨i, hi, rfl⟩
  · split
    · rename_i hp
      split
      · exact .inr (.inl ⟨hp, .inl rfl⟩)
      · exact .inr (.inl ⟨hp, .inr ⟨_, rfl⟩⟩)
      · exact .inr (.inl ⟨hp, .inr ⟨_, rfl⟩⟩)
      · exact .inr (.inr rfl)
    · exact .inr (.inr rfl)

/-- A host read changes what the host last read, and nothing else outside FAULT. -/
theorem hostRead_of_ne_fault {offset : BitVec 9} {s : State} (h : s.phase ≠ .fault) :
    hostRead offset s = { s with rdata := readReg offset s } := by
  simp [hostRead, h]

/-! ## Encode and decode elements -/

theorem element_of_rest {i : Instr} {s : State} {read : ReadPos → Result} (h : s.framer = .rest) :
    element i s read = .refused .elementOutOfPlace := by simp [element, h]

theorem entryElement_isElement {c : SymClass} {e : Nat × Bits} {i : Instr} (h : entryElement c e = .ok i) :
    isCommand i = false := by
  unfold entryElement at h
  split at h <;> split at h <;> simp only [Except.ok.injEq, reduceCtorEq] at h <;> subst h <;> rfl

end Sys2Proof.Machine
end

