-- ==== Sys2Proof/Laws/PerInstr.lean ====
section
/-! SUPPORT. Statements made of every instruction, one lemma per constructor. EncodingLength: an instruction's encoding has
exactly the bits that its format gives it (R92 to R97, R105). -/

namespace Sys2Proof.Laws.EncodingLength

/-- The length of an instruction in bits: 32 for a command word, the widths of R92 to R97 for a stream element. -/
def bitLength : Instr → Nat
  | .nop | .reset => 32
  | .encStart | .encPush | .encBuild | .encWriteHdr | .encWritePair | .encFinish => 32
  | .decStart | .decReadHdr | .decReadPair => 32
  | .tcount _ => 16
  | .dcent _ h => 8 + h.length
  | .acent _ _ h => 16 + h.length
  | .bcount _ => 32
  | .dcsym h v => h.length + v.length
  | .acsym h v => h.length + v.length

def Statement (i : Instr) : Prop := (encode i).length = bitLength i

theorem nop : Statement .nop := ubits_length _ _
theorem reset : Statement .reset := ubits_length _ _
theorem encStart : Statement .encStart := ubits_length _ _
theorem encPush : Statement .encPush := ubits_length _ _
theorem encBuild : Statement .encBuild := ubits_length _ _
theorem encWriteHdr : Statement .encWriteHdr := ubits_length _ _
theorem encWritePair : Statement .encWritePair := ubits_length _ _
theorem encFinish : Statement .encFinish := ubits_length _ _
theorem decStart : Statement .decStart := ubits_length _ _
theorem decReadHdr : Statement .decReadHdr := ubits_length _ _
theorem decReadPair : Statement .decReadPair := ubits_length _ _
theorem tcount (n : BitVec 16) : Statement (.tcount n) := ubits_length _ _
theorem dcent (c : BitVec 4) (h : Bits) : Statement (.dcent c h) := by
  simp [Statement, encode, bitLength]
  omega
theorem acent (r s : BitVec 4) (h : Bits) : Statement (.acent r s h) := by
  simp [Statement, encode, bitLength]
  omega
theorem bcount (n : Word) : Statement (.bcount n) := ubits_length _ _
theorem dcsym (h v : Bits) : Statement (.dcsym h v) := by simp [Statement, encode, bitLength]
theorem acsym (h v : Bits) : Statement (.acsym h v) := by simp [Statement, encode, bitLength]

end Sys2Proof.Laws.EncodingLength
end

