-- ==== Sys2Proof/Tests/Slice0.lean ====
section
/-! SUPPORT. The model's own tests. Expected values are the spec's: the vectors of 95_test_vectors.md (named by section or program) and the
examples of the rules. Then, for every statement with hypotheses, a state and operands that meet them all. -/

namespace Sys2Proof.Tests

open Sys2Proof.Machine Sys2Proof.Claims

/-! ## WellFormed: an ill-formed term for each check -/

theorem test_illFormed_dcent_no_code : (Instr.dcent 3 []).wf = false := by decide
theorem test_illFormed_dcent_long_code : (Instr.dcent 3 (List.replicate 16 true)).wf = false := by decide
theorem test_illFormed_acent_no_code : (Instr.acent 0 1 []).wf = false := by decide
theorem test_illFormed_acent_long_code : (Instr.acent 0 1 (List.replicate 256 true)).wf = false := by decide +kernel
theorem test_illFormed_dcsym_code : (Instr.dcsym [] []).wf = false := by decide
theorem test_illFormed_dcsym_value : (Instr.dcsym [true] (List.replicate 16 true)).wf = false := by decide
theorem test_illFormed_acsym_code : (Instr.acsym (List.replicate 256 true) []).wf = false := by decide +kernel
theorem test_illFormed_acsym_value : (Instr.acsym [true] (List.replicate 16 true)).wf = false := by decide

/-! ## Decoding: words written out from R110 and R92 to R97 -/

theorem test_decode_commands :
    [0x00000000, 0x00000001, 0x00000010, 0x00000011, 0x00000012, 0x00000013, 0x00000014, 0x00000015, 0x00000020,
      0x00000021, 0x00000022].map decodeCommand =
    [.ok .nop, .ok .reset, .ok .encStart, .ok .encPush, .ok .encBuild, .ok .encWriteHdr, .ok .encWritePair,
      .ok .encFinish, .ok .decStart, .ok .decReadHdr, .ok .decReadPair] := by decide
/-- Section 7: bits [31:8] are ignored. -/
theorem test_decode_ignores_high_bits : decodeCommand 0xABCDEF00 = .ok .nop := by decide
/-- Section 7: 0x30 is no command. -/
theorem test_decode_undefined : decodeCommand 0x00000030 = .error .undefinedCommand := by decide

/-- Section 5: TCOUNT n = 5. -/
theorem test_decode_tcount :
    decode .tableCount ([false, false, false, false, false, false, false, false] ++
      [false, false, false, false, false, true, false, true]) = .ok (.tcount 5, []) := by decide
/-- Section 5: DCENT c = 3, l = 1, h = '0'. -/
theorem test_decode_dcent :
    decode .dcEntry [false, false, true, true, false, false, false, true, false, true] =
      .ok (.dcent 3 [false], [true]) := by decide
/-- Section 5: ACENT r = 10, s = 1, l = 3, h = '111'. -/
theorem test_decode_acent :
    decode .acEntry ([true, false, true, false, false, false, false, true] ++
      [false, false, false, false, false, false, true, true, true, true, true]) =
      .ok (.acent 10 1 [true, true, true], []) := by decide
/-- Section 5: BCOUNT n = 1. -/
theorem test_decode_bcount :
    decode .blockCount (List.replicate 31 false ++ [true]) = .ok (.bcount 1, []) := by decide
/-- Section 5: category 4, value 12. -/
theorem test_decode_dcsym :
    decode (.dcSymbol [⟨4, [false]⟩]) [false, true, true, false, false] =
      .ok (.dcsym [false] [true, true, false, false], []) := by decide
/-- Section 5: (0,2), value 3. -/
theorem test_decode_acsym :
    decode (.acSymbol [⟨240, [false]⟩, ⟨2, [true, false, true]⟩] 0) [true, false, true, true, true] =
      .ok (.acsym [true, false, true] [true, true], []) := by decide
/-- R104: a code length of 0 is illegal. -/
theorem test_decode_zero_length :
    decode .dcEntry [false, false, true, true, false, false, false, false] = .error .zeroLength := by decide
/-- Section 4: '11' then the end of the stream. -/
theorem test_decode_no_match :
    decode (.acSymbol [⟨18, [true, true, false]⟩] 0) [true, true] = .error .noMatch := by decide
/-- Section 3: (15,1) at k = 48 overruns, before its value bits are looked at; at k = 47 it fits. -/
theorem test_decode_overrun :
    decode (.acSymbol [⟨241, [false]⟩] 48) [false] = .error .acOverrun ∧
      decode (.acSymbol [⟨241, [false]⟩] 47) [false] = .error .streamEnd := by decide
/-- Section 4, R206: the shorter key wins. -/
theorem test_match_shortest : huffMatch [⟨0, [false]⟩, ⟨1, [false, true]⟩] [] [false, true] =
    some (⟨0, [false]⟩, [true]) := by decide

/-! ## The table's words (log 15) -/

theorem test_table_word_dcent : decodeTableWord 8 0x31 = some (.dcent 3 [false]) := by decide
theorem test_table_word_command : decodeTableWord 32 0x22 = some .decReadPair := by decide
theorem test_table_word_bcount : decodeTableWord 32 0x30 = some (.bcount 0x30) := by decide

/-! ## Operands: sections 2 to 4 -/

theorem test_ibits : [5, -5, 8, -8, 1, -1, 0].map ibits =
    [[true, false, true], [false, true, false], [true, false, false, false], [false, true, true, true], [true], [false],
      []] := by decide
theorem test_bitsRequired : [0, 1, -1, 255, 256, 32767, -32768].map bitsRequired = [0, 1, 1, 8, 9, 15, 16] := by decide
theorem test_readInt : [[false, false], [false, true], [true, false], [true, true]].map readInt = [-3, -2, 2, 3] := by
  decide
/-- Section 3: `ac[16] = 1`: sixteen zeros are one (15,0). -/
theorem test_rle_zrl : rle (List.replicate 16 0 ++ [1] ++ List.replicate 46 0) =
    [⟨15, 0, []⟩, ⟨0, 1, [true]⟩, ⟨0, 0, []⟩] := by decide +kernel
/-- Section 3: `ac[62] = -1`: no end of block. -/
theorem test_rle_no_eob : rle (List.replicate 62 0 ++ [-1]) =
    [⟨15, 0, []⟩, ⟨15, 0, []⟩, ⟨15, 0, []⟩, ⟨14, 1, [false]⟩] := by decide +kernel
/-- Section 3: (3,0) is four zeros. -/
theorem test_rld_short_zero_run : rld [⟨3, 0, []⟩, ⟨0, 0, []⟩] = some (List.replicate 63 0) := by decide
/-- R198, section 4: P2's AC luma table. -/
theorem test_huffBuild_worked : huffBuild [(1, 1), (2, 1), (18, 1), (161, 1), (240, 3)] =
    [(1, [true, false, false]), (2, [true, false, true]), (18, [true, true, false]), (161, [true, true, true]),
      (240, [false])] := by decide
/-- Section 4: three equal weights. -/
theorem test_huffBuild_tie : huffBuild [(0, 1), (1, 1), (2, 1)] =
    [(0, [true, false]), (1, [true, true]), (2, [false])] := by decide
/-- Section 4: one symbol. -/
theorem test_huffBuild_single : huffBuild [(3, 1)] = [(3, [false])] ∧ huffBuild [] = [] := by decide

/-! ## Glue: section 9 -/

theorem test_zigzag_order : (zigzagPoints 8 8).map (fun p => 8 * p.1 + p.2) = zz := by decide
/-- R22, R150: `CO[0]` is DC, `CO[1..63]` the AC values. -/
theorem test_port : Pair.dc (pairOfZigzag (-5 :: 7 :: List.replicate 62 0)) = -5 ∧
    Pair.ac (pairOfZigzag (-5 :: 7 :: List.replicate 62 0)) = 7 :: List.replicate 62 0 := by decide +kernel
theorem test_zigzag_shape : zigzagToBlock [1, 2, 3] = .error .eShape := by decide
theorem test_round : roundQuotient (41 / 16) = 3 ∧ roundQuotient (-41 / 16) = -3 ∧ roundQuotient (7 / 16) = 0 := by
  decide +kernel

/-! ## One step on a small state -/

/-- What a test looks at in the next state. -/
def after {α : Type} (r : Result) (f : State → α) : Option α :=
  match r with
  | .next s => some (f s)
  | .fault _ => none
  | .refused _ => none

/-- The reset state in a phase. -/
def inPhase (p : Phase) : State := { State.reset with phase := p }

/-- A state with the host about to write a word to `CMD`. -/
def issuing (w : Word) (s : State) : State := { s with bus := [.regWrite 0x000 w] }

/-- A pair with a DC value and zeros. -/
def dcPair (v : Int) : Pair := putRun (Vector.replicate 64 0) 0 0 0 |>.setIfInBounds 0 (BitVec.ofInt 16 v)

/-- The bytes of program P1. -/
def p1Bytes : List Byte :=
  [0x00, 0x01, 0x31, 0x00, 0x00, 0x80, 0x00, 0x80, 0x00, 0x40, 0x40, 0x00, 0x20, 0x00, 0x20, 0x00, 0x00, 0x00, 0x12, 0x00]

/-- P1's container in `BS`, in a phase. -/
def p1Stream (p : Phase) : State := { inPhase p with bs := Memory.store [] 0 p1Bytes, bslen := 20 }

/-- P1 after `DEC_READ_HDR`. -/
def p1Blocks : State :=
  { p1Stream .decBlocks with
    rpos := 148, nblk := 1, dtab := ⟨[⟨3, [false]⟩], [⟨0, [false]⟩], [⟨0, [false]⟩], [⟨0, [false]⟩]⟩ }

/-- P1 after `ENC_BUILD`. -/
def p1Ready : State :=
  { inPhase .encReady with
    nblk := 1, cbuf := [dcPair (-5), dcPair 0, dcPair 0],
    etab := ⟨[(3, [false])], [(0, [false])], [(0, [false])], [(0, [false])]⟩ }

/-- Section 7: `STATUS` 0x26 in DONE, and NOP leaves it. -/
theorem test_nop : after (step (issuing 0xABCDEF00 (inPhase .done))) State.status = some 0x26 := by decide
/-- R262: from FAULT with `ERR = 0x05`. -/
theorem test_reset :
    after (step (issuing 1 { inPhase .fault with err := 5 })) (fun s => (s.status, s.err)) = some (0, 0) := by decide
theorem test_encStart :
    after (step (issuing 0x10 { State.reset with nblk := 1 })) (fun s => (s.status, s.blk, s.ch, s.wpos)) =
      some (0x01, 0, 0, 0) := by decide
/-- Section 7: capacity 1, two blocks. -/
theorem test_encStart_capacity :
    after (step (issuing 0x10 { State.reset with nblk := 2, cbufBlocks := 1 })) (fun s => (s.status, s.err)) =
      some (0x1F, 0x0A) := by decide
/-- R264: the cursor at (0,2) goes to (1,0). -/
theorem test_encPush :
    after (step (issuing 0x11 { inPhase .encCollect with nblk := 1, ch := 2 })) (fun s => (s.blk, s.ch, s.cbuf.length)) =
      some (1, 0, 1) := by decide
/-- Section 7: the last register is tested too. -/
theorem test_encPush_width :
    after (step (issuing 0x11
      { inPhase .encCollect with nblk := 1, co := (Vector.replicate 64 0).setIfInBounds 63 0x8000 })) (fun s => s.err) =
      some 0x01 := by decide
/-- P1 before `ENC_BUILD`. -/
def p1Pushed : State :=
  { inPhase .encCollect with nblk := 1, blk := 1, cbuf := [dcPair (-5), dcPair 0, dcPair 0] }
/-- R265: P1's tables. -/
theorem test_encBuild :
    after (step (issuing 0x12 p1Pushed)) (fun s => (s.phase, s.freq.dcChroma)) = some (.encReady, [(0, 2)]) ∧
      after (step (issuing 0x12 p1Pushed)) (fun s => s.etab.dcLuma) = some [(3, [false])] := by decide +kernel
/-- P1: the header has 148 bits. -/
theorem test_encWriteHdr :
    after (step (issuing 0x13 p1Ready)) (fun s => (s.phase, s.wpos, s.out.take 25)) =
      some (.encBlocks, 148, ubits 1 16 ++ ubits 0x31 8 ++ [false]) := by decide +kernel
/-- P1: the first pair is `0 010 0`. -/
theorem test_encWritePair :
    after (step (issuing 0x14 { p1Ready with phase := .encBlocks }))
      (fun s => (s.out, s.wpos, s.blk, s.ch)) = some ([false, false, true, false, false], 5, 0, 1) := by
  decide +kernel
/-- Section 6: 12 bits `1111 0000 1111` and a 32-bit 1 are F0 F0 00 00 00 10. -/
theorem test_encFinish :
    after (step (issuing 0x15
      { inPhase .encBlocks with out := ubits 0xF0F 12 ++ ubits 1 32, wpos := 44 }))
      (fun s => (s.status, s.wpos, s.bslen, s.bs)) =
      some (0x26, 48, 6, [(0, 0xF0), (1, 0xF0), (5, 0x10)]) := by decide +kernel
/-- Section 7: a container of 12 bytes and `BS_CAP = 8`. -/
theorem test_encFinish_capacity :
    after (step (issuing 0x15
      { inPhase .encBlocks with out := List.replicate 96 false, wpos := 96, bsCap := 8 })) (fun s => s.err) =
      some 0x03 := by decide
theorem test_decStart :
    after (step (issuing 0x20 { State.reset with bslen := 20 })) (fun s => (s.phase, s.rpos)) =
      some (.decHdr, 0) := by decide
/-- Section 7. -/
theorem test_decStart_capacity :
    after (step (issuing 0x20 { State.reset with bslen := 9, bsCap := 8 })) (fun s => s.err) = some 0x03 := by decide
/-- P1. -/
theorem test_decReadHdr :
    after (step (issuing 0x21 (p1Stream .decHdr))) (fun s => (s.phase, s.rpos, s.nblk, s.dtab)) =
      some (.decBlocks, 148, 1, p1Blocks.dtab) := by decide +kernel
/-- Section 5: an empty stream. -/
theorem test_decReadHdr_empty :
    after (step (issuing 0x21 (inPhase .decHdr))) (fun s => s.err) = some 0x06 := by decide +kernel
/-- P1: the first pair. -/
theorem test_decReadPair :
    after (step (issuing 0x22 p1Blocks)) (fun s => (s.phase, s.rpos, s.blk, s.ch, s.co)) =
      some (.decBlocks, 153, 0, 1, dcPair (-5)) := by decide +kernel
/-- P1 cut to 19 bytes: the AC code is missing. -/
theorem test_decReadPair_no_match :
    after (step (issuing 0x22 { p1Blocks with bslen := 19 })) (fun s => s.err) = some 0x04 := by decide +kernel
/-- R273. -/
theorem test_undefined_command : after (step (issuing 0x30 State.reset)) (fun s => s.err) = some 0x09 := by decide

/-- R225: the first count of P1, as an element. -/
theorem test_tcount :
    after (step { p1Stream .decHdr with framer := .reading (.tableCount .dcLuma) }) (fun s => (s.rpos, s.framer)) =
      some (16, .reading (.tableEntry .dcLuma 1)) := by decide +kernel
theorem test_dcent :
    after (step { p1Stream .decHdr with framer := .reading (.tableEntry .dcLuma 1), rpos := 16 })
      (fun s => (s.rpos, s.dtab.dcLuma)) = some (25, [⟨3, [false]⟩]) := by decide +kernel
theorem test_acent :
    after (step { p1Stream .decHdr with framer := .reading (.tableEntry .acLuma 1), rpos := 41 })
      (fun s => (s.rpos, s.dtab.acLuma)) = some (58, [⟨0, [false]⟩]) := by decide +kernel
/-- R226: a repeated code. -/
theorem test_acent_repeated :
    after (step { p1Blocks with framer := .reading (.tableEntry .acLuma 1), rpos := 41 }) (fun s => s.err) =
      some 0x07 := by decide +kernel
theorem test_bcount :
    after (step { p1Stream .decHdr with framer := .reading .blockCount, rpos := 116 })
      (fun s => (s.rpos, s.nblk, s.framer)) = some (148, 1, .rest) := by decide +kernel
theorem test_dcsym :
    after (step { p1Blocks with framer := .reading (.dcSymbol 0) })
      (fun s => (s.rpos, s.co.toList.head?, s.framer)) =
      some (152, some (-5), .reading (.acSymbol 0 0)) := by decide +kernel
/-- Section 3: (14,1) at slot 48 puts a value into slot 62 and ends the pair. -/
theorem test_acsym :
    after (exec (.acsym [true] [false])
      { inPhase .decBlocks with
        framer := .reading (.acSymbol 0 48), dtab := ⟨[], [⟨225, [true]⟩], [], []⟩,
        co := Vector.replicate 64 7 })
      (fun s => (s.framer, s.co.toList.drop 47)) =
      some (.rest, [7, 7] ++ List.replicate 14 0 ++ [-1]) := by decide +kernel
/-- Section 3: end of block with one slot left. -/
theorem test_acsym_end_of_block :
    after (exec (.acsym [true] [])
      { inPhase .decBlocks with
        framer := .reading (.acSymbol 1 62), dtab := ⟨[], [], [], [⟨0, [true]⟩]⟩, co := Vector.replicate 64 7 })
      (fun s => (s.framer, s.co.toList.drop 62)) = some (.rest, [7, 0]) := by decide +kernel

/-- R23: `CO[1]` reads sign-extended. -/
theorem test_host_read_co :
    after (step { State.reset with co := (Vector.replicate 64 0).setIfInBounds 1 0xFFFB, bus := [.regRead 0x104] })
      (fun s => s.rdata) = some 0xFFFFFFFB := by decide
/-- Section 7: `NBLK` is read-only outside IDLE. -/
theorem test_host_write_nblk :
    after (step { inPhase .encCollect with nblk := 1, bus := [.regWrite 0x00C 7] }) (fun s => (s.nblk, s.err)) =
      some (1, 0) := by decide

/-! ## Witnesses: states and operands that meet the hypotheses of the statements -/

theorem witness_UbitsWritesExactWidth : 15 < 2 ^ 4 ∧ 2 ^ 4 ≤ 16 ∧ 0 < 2 ^ 0 ∧ 2 ^ 0 ≤ 1 := by decide
theorem witness_ReadIntCoversCategory :
    1 ≤ 1 ∧ [true].length = 1 ∧ [true].head? = some true ∧ [false].head? = some false ∧
      (2 : Int) ^ (1 - 1) ≤ |1| ∧ |(1 : Int)| ≤ 2 ^ 1 - 1 := by decide
theorem witness_RunLengthRoundTrip : (List.replicate 62 0 ++ [(1 : Int)]).length = 63 := by decide
theorem witness_RunLengthShape :
    (List.replicate 63 (0 : Int)).length = 63 ∧ (List.replicate 63 (0 : Int)).getLast? = some 0 ∧
      (List.replicate 62 0 ++ [(1 : Int)]).getLast? ≠ some 0 := by decide
theorem witness_RunLengthShape_zrl :
    rle (List.replicate 16 0 ++ 1 :: List.replicate 46 0) = [] ++ ⟨15, 0, []⟩ :: [⟨0, 1, [true]⟩, ⟨0, 0, []⟩] := by decide +kernel
theorem witness_FrequenciesCountSymbols : 255 < 256 ∧ [dcPair 1, dcPair 0, dcPair 0].length = 3 * 1 := by decide
theorem witness_BuiltCodesArePrefixFree : (([(3, 1)] : FreqTable).map Prod.fst).Nodup := by decide
theorem witness_BuiltTreeIsFull :
    (([(0, 1), (2, 5)] : FreqTable).map Prod.fst).Nodup ∧ 2 ≤ ([(0, 1), (2, 5)] : FreqTable).length := by decide
theorem witness_DecodeOfEncode :
    (Instr.acsym [true] [false]).wf = true ∧
      (Position.acSymbol [⟨225, [true]⟩] 48).admits (.acsym [true] [false]) = true ∧
      (Instr.dcsym [true] []).wf = true ∧ (Position.dcSymbol [⟨0, [true]⟩]).admits (.dcsym [true] []) = true := by
  decide
theorem witness_EncodeOfDecode : decode .blockCount (ubits 7 32) = .ok (.bcount 7, []) := by decide

theorem witness_StepRunsWrittenCommand :
    State.reset.framer = .rest ∧ State.reset.bus = [] ∧
      (issuing 0x10 State.reset).bus = .regWrite 0x000 0x10 :: [] ∧ decodeCommand 0x10 = .ok .encStart := by decide

/-- A reader at the first count of P1. -/
def p1Count : State := { p1Stream .decHdr with framer := .reading (.tableCount .dcLuma) }
/-- A reader at the first count of an empty stream. -/
def emptyCount : State := { inPhase .decHdr with framer := .reading (.tableCount .dcLuma) }
/-- A writer at a block count. -/
def writingCount : State := { inPhase .encReady with framer := .writing (.bcount 1) [] }

theorem witness_StepRunsStreamElement_reads :
    p1Count.framer = .reading (.tableCount .dcLuma) ∧
      (decode ((ReadPos.tableCount .dcLuma).position p1Count.dtab) p1Count.unread).map Prod.fst = .ok (.tcount 1) := by
  decide +kernel
theorem witness_StepRunsStreamElement_rejects :
    decode ((ReadPos.tableCount .dcLuma).position emptyCount.dtab) emptyCount.unread = .error .streamEnd := by
  decide +kernel
theorem witness_StepRunsStreamElement_writes : writingCount.framer = .writing (.bcount 1) [] := by decide

theorem witness_HostReadReturnsRegister :
    ({ State.reset with bus := [.regRead 0x1FC] }).bus = .regRead 0x1FC :: [] ∧ State.reset.phase ≠ .fault ∧
      (inPhase .fault).framer = .rest ∧ (inPhase .fault).phase = .fault := by decide
theorem witness_HostWriteChangesRegister :
    (0x1FC : BitVec 9).toNat = 0x100 + 4 * (63 : Fin 64).val ∧ (0x00C : BitVec 9) ≠ 0x000 ∧
      State.reset.phase = .idle ∧ State.reset.framer = .rest ∧ (inPhase .done).phase ≠ .idle ∧
      ∀ i : Fin 64, (0x0FC : BitVec 9).toNat ≠ 0x100 + 4 * i.val := by decide
theorem witness_HostAccessesBitstreamMemory :
    State.reset.phase = .idle ∧ 0 < State.reset.bsCap ∧ State.reset.bsCap ≤ State.reset.bsCap ∧
      (inPhase .decHdr).phase ≠ .idle ∧ (inPhase .decHdr).phase ≠ .done ∧ State.reset.framer = .rest := by decide
theorem witness_memory : State.reset.MemoryOk := by unfold State.MemoryOk; decide
theorem witness_ResetLeavesResetState : ({ inPhase .fault with bus := [.hwReset] }).framer = .rest := by decide

theorem witness_EncStartBeginsEncode :
    (inPhase .done).phase ≠ .fault ∧ (inPhase .done).phase ≠ .idle ∧ State.reset.phase = .idle ∧
      State.reset.nblk.toNat ≤ State.reset.cbufBlocks ∧
      ({ State.reset with nblk := 2, cbufBlocks := 1 }).cbufBlocks < (2 : Word).toNat := by decide
/-- A state with one pair to push. -/
def onePush : State := { inPhase .encCollect with nblk := 1 }
theorem witness_EncPushAppendsPair :
    onePush.phase = .encCollect ∧ onePush.blk ≠ onePush.nblk ∧ (∀ i : Fin 64, onePush.co[i].toInt ≠ -32768) ∧
      (∃ i : Fin 64, ((Vector.replicate 64 (0x8000 : Coef)))[i].toInt = -32768) ∧
      (inPhase .encCollect).blk = (inPhase .encCollect).nblk := by decide +kernel
theorem witness_EncBuildMakesTables :
    (inPhase .encCollect).phase = .encCollect ∧ (inPhase .encCollect).blk = (inPhase .encCollect).nblk ∧
      onePush.blk ≠ onePush.nblk := by decide
theorem witness_EncWriteHdrAppendsHeader : p1Ready.phase = .encReady ∧ TablesFit p1Ready.etab := by
  refine ⟨rfl, fun c => ?_⟩
  cases c <;> simp [TableFits, PerClass.get, p1Ready, symbolCount, maxCodeLength, SymClass.isDc]
/-- P1 before its first `ENC_WRITE_PAIR`. -/
def p1Writing : State := { p1Ready with phase := .encBlocks }
theorem witness_EncWritePairAppendsPair :
    p1Writing.phase = .encBlocks ∧ p1Writing.blk ≠ p1Writing.nblk ∧
      p1Writing.cbuf[3 * p1Writing.blk.toNat + p1Writing.ch.toNat]? = some (dcPair (-5)) ∧
      HasCodes p1Writing.etab p1Writing.ch (dcPair (-5)) := by
  refine ⟨rfl, by decide, by decide, ?_⟩
  unfold HasCodes
  decide +kernel
theorem witness_EncFinishStoresContainer :
    (inPhase .encBlocks).blk = (inPhase .encBlocks).nblk ∧ (inPhase .encBlocks).wpos.toNat + 7 < 2 ^ 64 ∧
      ((inPhase .encBlocks).wpos.toNat + 7) / 8 ≤ (inPhase .encBlocks).bsCap ∧
      ({ inPhase .encBlocks with wpos := 65, bsCap := 8 }).bsCap < ((65 : Cursor).toNat + 7) / 8 := by decide
theorem witness_DecStartBeginsDecode :
    State.reset.bslen.toNat ≤ State.reset.bsCap ∧
      ({ State.reset with bslen := 9, bsCap := 8 }).bsCap < (9 : Cursor).toNat := by decide
theorem witness_DecReadHdrReadsHeader :
    (p1Stream .decHdr).phase = .decHdr ∧ (p1Stream .decHdr).bslen.toNat < 2 ^ 61 ∧ TablesFit p1Ready.etab ∧
      (∀ c, ((p1Ready.etab.get c).map Prod.snd).Nodup) ∧
      (p1Stream .decHdr).unread =
        headerBits p1Ready.etab 1 ++ [false, false, true, false, false, false, false, false, false, false, false, false] := by
  refine ⟨rfl, by decide, witness_EncWriteHdrAppendsHeader.2, fun c => ?_, by decide +kernel⟩
  cases c <;> simp [PerClass.get, p1Ready]
theorem witness_DecReadPairDeliversPair :
    p1Blocks.phase = .decBlocks ∧ p1Blocks.bslen.toNat < 2 ^ 61 ∧ (∀ i : Fin 64, (dcPair (-5))[i].toInt ≠ -32768) ∧
      HasCodes p1Ready.etab p1Blocks.ch (dcPair (-5)) ∧
      (∀ c, Readable (p1Ready.etab.get c) (p1Blocks.dtab.get c)) ∧
      p1Blocks.unread = pairBits p1Ready.etab p1Blocks.ch (dcPair (-5)) ++ List.replicate 7 false := by
  refine ⟨rfl, by decide, by decide +kernel, witness_EncWritePairAppendsPair.2.2.2, fun c => ?_, by decide +kernel⟩
  cases c <;> simp [Readable, PerClass.get, p1Ready, p1Blocks]

theorem witness_WriterEmitsElement : isCommand (.bcount 1) = false ∧ writingCount.framer = .writing (.bcount 1) [] := by
  decide
theorem witness_ReaderTakesTableCount : p1Count.framer = .reading (.tableCount .dcLuma) := by decide
theorem witness_ReaderTakesTableEntry :
    ({ p1Blocks with framer := .reading (.tableEntry .dcLuma 1) }).framer = .reading (.tableEntry .dcLuma 1) ∧
      SymClass.dcLuma.isDc = true ∧ SymClass.acLuma.isDc = false ∧
      (∃ e ∈ p1Blocks.dtab.get .dcLuma, e.code = [false]) ∧ ∀ e ∈ p1Blocks.dtab.get .acLuma, e.code ≠ [true] := by
  decide
theorem witness_ReaderTakesBlockCount :
    ({ inPhase .decHdr with framer := .reading .blockCount }).framer = .reading .blockCount := by decide
theorem witness_ReaderTakesDcSymbol :
    entryWith (p1Blocks.dtab.get (if (0 : BitVec 2) = 0 then .dcLuma else .dcChroma)) [false] = some ⟨3, [false]⟩ ∧
      [false, true, false].length = 3 := by decide
/-- An AC table with end of block, (15,1) and (14,1). -/
def acTable : List Entry := [⟨0, [true, true]⟩, ⟨241, [false]⟩, ⟨225, [true, false]⟩]
theorem witness_ReaderTakesAcSymbol :
    48 < 63 ∧ entryWith acTable [true, true] = some ⟨0, [true, true]⟩ ∧ entryWith acTable [false] = some ⟨241, [false]⟩ ∧
      entryWith acTable [true, false] = some ⟨225, [true, false]⟩ ∧ 241 < 256 ∧ 63 < 48 + 241 / 16 + 1 ∧
      48 + 225 / 16 + 1 ≤ 63 ∧ [true].length = 225 % 16 := by decide
theorem witness_ElementOutOfPlaceIsRefused :
    isCommand (.tcount 0) = false ∧ State.reset.framer = .rest ∧ (.bcount 1 : Instr) ≠ .tcount 0 ∧
      fitsPlace .blockCount (.tcount 0) = false := by decide

theorem witness_MisplacedCommandRaisesSeq :
    isCommand .encPush = true ∧ State.reset.phase ≠ .fault ∧ ¬ legalNow .encPush State.reset := by
  unfold legalNow
  decide
theorem witness_FaultIgnoresCommands :
    (inPhase .fault).phase = .fault ∧ (inPhase .fault).framer = .rest ∧ (.encPush : Instr) ≠ .reset ∧
      (0x20 : Word).toNat % 256 ≠ 1 := by decide
theorem witness_UndefinedCodeRaisesCmd :
    commandTable.lookup (BitVec.ofNat 8 ((0x30 : Word).toNat % 256)) = none ∧ (issuing 0x30 State.reset).framer = .rest := by
  decide
theorem witness_StreamEndFault_fields :
    emptyCount.unreadCount < 16 ∧ (p1Stream .decHdr).unread = (ubits 0 8 ++ ubits 1 8) ++ (p1Stream .decHdr).unread.drop 16 ∧
      ({ p1Stream .decHdr with bslen := 2 }).unreadCount = 16 := by decide +kernel
/-- A stream of one byte `0011 0010`: an entry of code length 2 whose code is missing. -/
def cutEntry : State :=
  { inPhase .decHdr with framer := .reading (.tableEntry .dcLuma 1), bs := [(0, 0x32)], bslen := 1 }
theorem witness_StreamEndFault_code :
    cutEntry.unread = (ubits 3 4 ++ ubits 2 4) ++ [] ∧ ([] : Bits).length < 2 ∧ 2 < 16 := by decide +kernel
/-- P1 cut inside the value bits of its first pair. -/
def cutValue : State := { p1Blocks with framer := .reading (.dcSymbol 0), rpos := 158, bslen := 20 }
theorem witness_StreamEndFault_value :
    huffMatch (cutValue.dtab.get (dcClass 0)) [] cutValue.unread = some (⟨3, [false]⟩, [false]) ∧ [false].length < 3 := by
  decide +kernel
theorem witness_StreamEndFault_ac_value :
    huffMatch acTable [] [true, false] = some (⟨225, [true, false]⟩, []) ∧ ([] : Bits).length < 225 % 16 ∧
      48 + 225 / 16 + 1 ≤ 63 := by decide
theorem witness_CorruptStreamFaults :
    huffMatch ((inPhase .decBlocks).dtab.get (dcClass 0)) [] (inPhase .decBlocks).unread = none ∧
      huffMatch acTable [] [false, true] = some (⟨241, [false]⟩, [true]) ∧ 63 < 48 + 241 / 16 + 1 ∧
      ({ cutEntry with bs := [(0, 0x30)] }).unread = (ubits 3 4 ++ ubits 0 4) ++ [] := by decide +kernel
theorem eq_next_of_after {r : Result} {t : State} (h : after r id = some t) : r = .next t := by
  cases r <;> simp [after] at h
  exact congrArg _ h
theorem raises_of_after {r : Result} {code : BitVec 8}
    (h : after r (fun t => (t.phase, t.err)) = some (.fault, code)) : Raises r code := by
  cases r <;> simp [after] at h
  exact ⟨_, rfl, h⟩
/-- A stream of two bytes, `00 01`: the count of one entry, and no entry. -/
def cutHeader : State := { inPhase .decHdr with bs := [(1, 1)], bslen := 2 }
/-- Its reader after the count. -/
def cutHeaderEntry : State := { cutHeader with framer := .reading (.tableEntry .dcLuma 1), rpos := 16 }
theorem witness_CommandEndsWithStreamFault_header :
    cutHeader.bslen.toNat < 2 ^ 61 ∧ cutHeaderEntry.framer ≠ .rest ∧ Raises (step cutHeaderEntry) 0x06 ∧
      cutHeader.phase = .decHdr ∧ readsOnTo { cutHeader with framer := .reading (.tableCount .dcLuma) } cutHeaderEntry :=
  ⟨by decide, by decide, raises_of_after (by decide +kernel), rfl,
    .single ⟨by decide, eq_next_of_after (by decide +kernel)⟩⟩
/-- P1 with its AC luma table taken out of `DTAB`. -/
def noAcTable : State :=
  { p1Blocks with dtab := ⟨[⟨3, [false]⟩], [], [⟨0, [false]⟩], [⟨0, [false]⟩]⟩ }
/-- Its reader after the DC symbol. -/
def noAcTableSymbol : State :=
  { noAcTable with framer := .reading (.acSymbol 0 0), rpos := 152, co := dcPair (-5) }
theorem witness_CommandEndsWithStreamFault_pair :
    noAcTable.bslen.toNat < 2 ^ 61 ∧ noAcTableSymbol.framer ≠ .rest ∧ Raises (step noAcTableSymbol) 0x04 ∧
      noAcTable.phase = .decBlocks ∧ readsOnTo { noAcTable with framer := .reading (.dcSymbol noAcTable.ch) } noAcTableSymbol :=
  ⟨by decide, by decide, raises_of_after (by decide +kernel), rfl,
    .single ⟨by decide, eq_next_of_after (by decide +kernel)⟩⟩
theorem witness_CommandEndsWithStreamFault_first :
    (inPhase .decHdr).unreadCount < 16 ∧ (inPhase .decBlocks).phase = .decBlocks ∧
      huffMatch ((inPhase .decBlocks).dtab.get (dcClass 0)) [] (inPhase .decBlocks).unread = none := by decide
theorem witness_FaultEntry :
    State.reset.MemoryOk ∧ { inPhase .encBlocks with wpos := 8, bsCap := 0 }.phase = .encBlocks ∧ (8 : Cursor).toNat + 7 < 2 ^ 64 ∧
      0 < ((8 : Cursor).toNat + 7) / 8 := ⟨witness_memory, by decide⟩
theorem witness_FaultEntry_exec :
    Raises (exec .encPush State.reset) 0x08 ∧ State.reset.phase ≠ .fault ∧
      Raises (exec .encFinish { inPhase .encBlocks with wpos := 8, bsCap := 0 }) 0x03 ∧
      Raises (exec .encPush (inPhase .done)) 0x08 :=
  ⟨raises_of_after (by decide), by decide, raises_of_after (by decide), raises_of_after (by decide)⟩
theorem witness_FaultEntry_step :
    Raises (step (issuing 0x30 State.reset)) 0x09 ∧ Raises (step cutEntry) 0x06 ∧ cutEntry.phase ≠ .fault ∧
      cutEntry.framer ≠ .rest :=
  ⟨raises_of_after (by decide), raises_of_after (by decide +kernel), by decide, by decide⟩
theorem witness_FaultsRaisedByCommand :
    isCommand .encPush = true ∧ TablesFit State.reset.etab ∧
      after (exec .encPush State.reset) (fun s => s.phase) = some .fault := by
  refine ⟨rfl, fun c => ?_, by decide⟩
  cases c <;> simp [TableFits, PerClass.get, State.reset]
theorem witness_OnlyListedTransitions : exec .nop State.reset = .next State.reset := rfl
theorem witness_CommandsKeepOtherState :
    isCommand .decStart = true ∧ after (exec .decStart State.reset) (fun s => s.phase) = some .decHdr := by decide
theorem witness_OnlyResetLeavesFault :
    (issuing 1 (inPhase .fault)).phase = .fault ∧ (issuing 1 (inPhase .fault)).framer = .rest ∧
      after (step (issuing 1 (inPhase .fault))) (fun s => s.phase) = some .idle := by decide

theorem witness_reset_sequencer : State.reset.SequencerOk := by
  constructor <;> simp [State.reset]
theorem witness_reset_encode : State.reset.EncodeOk := by
  constructor <;> simp [State.reset]
theorem witness_reset_decode : State.reset.DecodeOk := by
  constructor <;> simp [State.reset]
/-- Every step statement of the invariants: a safe state and a step from it. -/
theorem witness_StepKeeps :
    State.reset.SequencerOk ∧ State.reset.EncodeOk ∧ State.reset.DecodeOk ∧ State.reset.MemoryOk ∧
      step State.reset = .next State.reset :=
  ⟨witness_reset_sequencer, witness_reset_encode, witness_reset_decode, witness_memory, rfl⟩
theorem witness_CommandsAlwaysEnd :
    isCommand .encStart = true ∧ State.reset.SequencerOk ∧ State.reset.EncodeOk ∧ State.reset.DecodeOk ∧
      State.reset.MemoryOk :=
  ⟨rfl, witness_reset_sequencer, witness_reset_encode, witness_reset_decode, witness_memory⟩
theorem witness_PackedBitsReadBack : Memory.wf [(3, 1)] = true ∧ (ubits 0xA5 8).length = 8 * 1 := by decide
theorem witness_DecodeInvertsEncode :
    [dcPair (-5), dcPair 0, dcPair 0].length = 3 * 1 ∧ 1 < 2 ^ 32 ∧ 1 ≤ State.reset.cbufBlocks ∧
      (∀ p ∈ [dcPair (-5), dcPair 0, dcPair 0], ∀ i : Fin 64, p[i].toInt ≠ -32768) ∧ State.reset.bsCap < 2 ^ 61 ∧
      State.reset.MemoryOk := by
  have h5 : ∀ i : Fin 64, (dcPair (-5))[i].toInt ≠ -32768 := by decide +kernel
  have h0 : ∀ i : Fin 64, (dcPair 0)[i].toInt ≠ -32768 := by decide +kernel
  refine ⟨rfl, by decide, by decide, ?_, by decide, witness_memory⟩
  simpa using ⟨h5, h0⟩
theorem witness_DecodeInvertsEncode_fits :
    ((imageBits [dcPair (-5), dcPair 0, dcPair 0] 1).length + 7) / 8 = 20 ∧ 20 ≤ State.reset.bsCap ∧
      { State.reset with bsCap := 19 }.bsCap < 20 := by decide +kernel
theorem witness_ZigzagRoundTrip :
    (List.replicate 8 (List.replicate 8 (1 : Int))).length = 8 ∧
      (∀ r ∈ List.replicate 8 (List.replicate 8 (1 : Int)), r.length = 8) ∧ ∀ k : Fin 4, k.val * k.val ≠ 3 := by decide
theorem witness_QuantizerIsNearest :
    [[(1 : Rat)]].map List.length ≠ ([] : Block).map List.length ∧
      ([[5]] : Block).map List.length = ([[1]] : Block).map List.length ∧ (∀ r ∈ ([[1]] : Block), ∀ x ∈ r, x = 1) ∧
      [[(41 : Rat)]].map List.length = ([[16]] : Block).map List.length ∧ ∀ r ∈ ([[16]] : Block), ∀ x ∈ r, x ≠ 0 := by
  decide
/-- The block of zeros. -/
def zeroBlock : List (List Rat) := List.replicate 8 (List.replicate 8 0)
theorem witness_QuantizerIsNearest_glue (ch : BitVec 2) :
    zeroBlock.map List.length = List.replicate 8 8 ∧
      ∀ i j : Fin 8, |elementAt zeroBlock i j| ≤ 32767 * (quantTable ch).at (i, j) := by
  have h0 : ∀ i j : Fin 8, elementAt zeroBlock i j = 0 := by decide +kernel
  refine ⟨by decide, fun i j => ?_⟩
  have h : (0 : Rat) < (quantTable ch).at (i, j) := by exact_mod_cast quantTable_at_pos ch i j
  rw [h0, abs_zero]
  linarith

end Sys2Proof.Tests
end

section
/-! Proofs about the state: what each command leaves unchanged (`spec/10_state.md` section 6, R40). -/

namespace Sys2Proof.Machine

open Sys2Proof.Claims

/-! ## Parts of a command that end outside FAULT -/

theorem whenLegal_eq_next {legal : Bool} {s t : State} {effect : State → Result}
    (h : whenLegal legal s effect = .next t) (ht : t.phase ≠ .fault) : legal = true ∧ effect s = .next t := by
  rcases whenLegal_cases h with ⟨hs, ht'⟩ | ⟨_, _, ht'⟩ | ⟨_, hl, ht'⟩
  · cases ht'; exact absurd hs ht
  · cases ht'; simp at ht
  · exact ⟨hl, ht'.symm⟩

theorem andThen_eq_next_of_ne_fault {r : Result} {k : State → State} {t : State} (h : andThen r k = .next t)
    (ht : t.phase ≠ .fault) : ∃ u, r = .next u ∧ u.phase ≠ .fault ∧ t = k u :=
  (andThen_eq_next h).resolve_left fun hf => ht hf.2

/-! ## What the reader does at each place of the grammar -/

theorem runElement_tableCount {i : Instr} {s t : State} {c : SymClass} (hf : s.framer = .reading (.tableCount c))
    (h : runElement i s = .next t) :
    ∃ n, i = .tcount n ∧
      t = { take i (.reading (afterEntry c n.toNat)) s with dtab := s.dtab.set c [] } := by
  cases i with
  | tcount n =>
    simp only [runElement, execTcount, element, hf, Host.Outcome.next.injEq] at h
    exact ⟨n, rfl, h.symm⟩
  | _ => simp [runElement, execDcent, execAcent, execBcount, execDcsym, execAcsym, element, hf] at h

theorem runElement_tableEntry {i : Instr} {s t : State} {c : SymClass} {left : Nat}
    (hf : s.framer = .reading (.tableEntry c left)) (h : runElement i s = .next t) :
    ∃ e, readEntry i c left e s = .next t := by
  cases i with
  | dcent n b =>
    simp only [runElement, execDcent, element, hf] at h
    split at h
    · exact ⟨_, h⟩
    · cases h
  | acent r z b =>
    simp only [runElement, execAcent, element, hf] at h
    split at h
    · cases h
    · exact ⟨_, h⟩
  | _ => simp [runElement, execTcount, execBcount, execDcsym, execAcsym, element, hf] at h

theorem runElement_blockCount {i : Instr} {s t : State} (hf : s.framer = .reading .blockCount)
    (h : runElement i s = .next t) : ∃ n, i = .bcount n ∧ t = { take i .rest s with nblk := n } := by
  cases i with
  | bcount n =>
    simp only [runElement, execBcount, element, hf, Host.Outcome.next.injEq] at h
    exact ⟨n, rfl, h.symm⟩
  | _ => simp [runElement, execTcount, execDcent, execAcent, execDcsym, execAcsym, element, hf] at h

theorem runElement_dcSymbol {i : Instr} {s t : State} {ch : BitVec 2} (hf : s.framer = .reading (.dcSymbol ch))
    (h : runElement i s = .next t) :
    ∃ b v, i = .dcsym b v ∧
      t = { take i (.reading (.acSymbol ch 0)) s with
            co := s.co.setIfInBounds 0 (BitVec.ofInt 16 (readInt v)) } := by
  cases i with
  | dcsym b v =>
    simp only [runElement, execDcsym, element, hf] at h
    split at h
    · split at h
      · cases h; exact ⟨b, v, rfl, rfl⟩
      · cases h
    · cases h
  | _ => simp [runElement, execTcount, execDcent, execAcent, execBcount, execAcsym, element, hf] at h

theorem runElement_acSymbol {i : Instr} {s t : State} {ch : BitVec 2} {k : Nat}
    (hf : s.framer = .reading (.acSymbol ch k)) (h : runElement i s = .next t) :
    t = raise .eAcOverrun s ∨
      ∃ f co, (f = .rest ∨ ∃ j, f = afterSlot ch j) ∧ t = { take i f s with co := co } := by
  cases i with
  | acsym b v =>
    simp only [runElement, execAcsym, element, hf] at h
    split at h
    · split at h
      · split at h
        · cases h; exact .inr ⟨.rest, _, .inl rfl, rfl⟩
        · cases h
      · split at h
        · cases h; exact .inl rfl
        · split at h
          · cases h; exact .inr ⟨_, _, .inr ⟨_, rfl⟩, rfl⟩
          · cases h
    · cases h
  | _ => simp [runElement, execTcount, execDcent, execAcent, execBcount, execDcsym, element, hf] at h

/-- A writer emits the element it stands at, and no other has a meaning there. -/
theorem runElement_eq_next_of_writing {i j : Instr} {is : List Instr} {s t : State}
    (hf : s.framer = .writing j is) (h : runElement i s = .next t) : t = emit j is s := by
  rcases runElement_step h with ⟨js, hw, rfl⟩ | ⟨p, hr, _⟩
  · rw [hf] at hw; cases hw; rfl
  · rw [hf] at hr; cases hr

theorem framer_ne_rest_of_runElement {i : Instr} {s t : State} (h : runElement i s = .next t) :
    s.framer ≠ .rest := by
  rcases runElement_step h with ⟨is, hw, _⟩ | ⟨p, hr, _⟩ <;> simp [*]

/-! ## Invariants of the element loop, for runs that raise no fault -/

theorem runElements_of_rest {s : State} (h : s.framer = .rest) (n : Nat) : runElements n s = .next s := by
  cases n <;> simp [runElements, nextElement, h]

/-- A fault taken by an element ends the loop, so a loop that ends outside FAULT has taken none. -/
theorem runElements_keeps {P : State → Prop}
    (helem : ∀ i u v, P u → runElement i u = .next v → v.phase ≠ .fault → P v) {n : Nat} {s t : State}
    (hP : P s) (hs : s.phase ≠ .fault) (h : runElements n s = .next t) (ht : t.phase ≠ .fault) : P t := by
  induction n generalizing s with
  | zero =>
    simp only [runElements] at h
    split at h <;> cases h
    exact hP
  | succ n ih =>
    rw [runElements] at h
    split at h
    · cases h; exact hP
    · cases h; simp at ht
    · split at h
      · rename_i u hu
        by_cases hf : u.phase = .fault
        · have hrest : u.framer = .rest := by rcases runElement_fault hu hs hf with rfl | rfl <;> simp
          rw [runElements_of_rest hrest] at h
          cases h
          exact absurd hf ht
        · exact ih (helem _ _ _ hP hu hf) hf h
      · cases h
      · cases h

/-! ## Writing: `OUT` and `WPOS` change -/

/-- From `s`, a writer has come to `u`: it is still writing or at its end, and has changed `OUT` and `WPOS` only. -/
structure WroteTo (s u : State) : Prop where
  place : ∀ p, u.framer ≠ .reading p
  frame : ∃ o w f, u = { s with out := o, wpos := w, framer := f }

theorem WroteTo.of_runElement {s u v : State} {i : Instr} (hu : WroteTo s u) (h : runElement i u = .next v) :
    WroteTo s v := by
  obtain ⟨hplace, o, w, f, rfl⟩ := hu
  cases hf : f with
  | rest => exact absurd hf (framer_ne_rest_of_runElement h)
  | reading p => exact absurd hf (hplace p)
  | writing j is =>
    rw [runElement_eq_next_of_writing hf h]
    exact ⟨fun p => by cases is <;> simp [emit], _, _, _, rfl⟩

theorem writeElements_frame {i : Instr} {is : List Instr} {s t : State} (hs : s.phase ≠ .fault)
    (h : writeElements i is s = .next t) (ht : t.phase ≠ .fault) :
    ∃ o w f, t = { s with out := o, wpos := w, framer := f } :=
  have hstart : WroteTo s { s with framer := .writing i is } := ⟨by simp, s.out, s.wpos, _, rfl⟩
  (runElements_keeps (P := WroteTo s) (fun _ _ _ hu h _ => hu.of_runElement h) hstart hs h ht).frame

/-! ## Reading the header: `DTAB`, `NBLK` and `RPOS` change -/

/-- At rest, or reading at a place of the header (R220). -/
def Framer.InHeader : Framer → Prop
  | .rest | .reading (.tableCount _) | .reading (.tableEntry _ _) | .reading .blockCount => True
  | .reading (.dcSymbol _) | .reading (.acSymbol _ _) | .writing _ _ => False

theorem afterEntry_inHeader (c : SymClass) (left : Nat) : (Framer.reading (afterEntry c left)).InHeader := by
  unfold afterEntry
  split
  · cases c <;> trivial
  · trivial

/-- From `s`, a reader has come to `u` inside the header, and has changed `DTAB`, `NBLK` and `RPOS` only. -/
structure ReadHeaderTo (s u : State) : Prop where
  place : u.framer.InHeader
  frame : ∃ d n r f, u = { s with dtab := d, nblk := n, rpos := r, framer := f }

theorem ReadHeaderTo.of_runElement {s u v : State} {i : Instr} (hu : ReadHeaderTo s u)
    (h : runElement i u = .next v) (hv : v.phase ≠ .fault) : ReadHeaderTo s v := by
  obtain ⟨hplace, d, n, r, f, rfl⟩ := hu
  match f, hplace with
  | .rest, _ => exact absurd rfl (framer_ne_rest_of_runElement h)
  | .reading (.tableCount c), _ =>
    obtain ⟨_, _, rfl⟩ := runElement_tableCount rfl h
    exact ⟨afterEntry_inHeader _ _, _, n, _, _, rfl⟩
  | .reading (.tableEntry c left), _ =>
    obtain ⟨e, he⟩ := runElement_tableEntry rfl h
    rcases readEntry_cases he with rfl | ⟨_, _, rfl⟩
    · simp at hv
    · exact ⟨afterEntry_inHeader _ _, _, n, _, _, rfl⟩
  | .reading .blockCount, _ =>
    obtain ⟨_, _, rfl⟩ := runElement_blockCount rfl h
    exact ⟨trivial, d, _, _, _, rfl⟩

theorem readElements_header_frame {s t : State} {c : SymClass} (hs : s.phase ≠ .fault)
    (h : readElements (.tableCount c) s = .next t) (ht : t.phase ≠ .fault) :
    ∃ d n r f, t = { s with dtab := d, nblk := n, rpos := r, framer := f } :=
  have hstart : ReadHeaderTo s { s with framer := .reading (.tableCount c) } :=
    ⟨trivial, s.dtab, s.nblk, s.rpos, _, rfl⟩
  (runElements_keeps (P := ReadHeaderTo s) (fun _ _ _ => .of_runElement) hstart hs h ht).frame

/-! ## Reading a pair: `CO` and `RPOS` change -/

/-- At rest, or reading at a place of a pair (R220). -/
def Framer.InPair : Framer → Prop
  | .rest | .reading (.dcSymbol _) | .reading (.acSymbol _ _) => True
  | .reading (.tableCount _) | .reading (.tableEntry _ _) | .reading .blockCount | .writing _ _ => False

theorem afterSlot_inPair (ch : BitVec 2) (k : Nat) : (afterSlot ch k).InPair := by
  unfold afterSlot
  split <;> trivial

/-- From `s`, a reader has come to `u` inside a pair, and has changed `CO` and `RPOS` only. -/
structure ReadPairTo (s u : State) : Prop where
  place : u.framer.InPair
  frame : ∃ c r f, u = { s with co := c, rpos := r, framer := f }

theorem ReadPairTo.of_runElement {s u v : State} {i : Instr} (hu : ReadPairTo s u)
    (h : runElement i u = .next v) (hv : v.phase ≠ .fault) : ReadPairTo s v := by
  obtain ⟨hplace, c, r, f, rfl⟩ := hu
  match f, hplace with
  | .rest, _ => exact absurd rfl (framer_ne_rest_of_runElement h)
  | .reading (.dcSymbol ch), _ =>
    obtain ⟨_, _, _, rfl⟩ := runElement_dcSymbol rfl h
    exact ⟨trivial, _, _, _, rfl⟩
  | .reading (.acSymbol ch k), _ =>
    rcases runElement_acSymbol rfl h with rfl | ⟨f', _, hf', rfl⟩
    · simp at hv
    · refine ⟨?_, _, _, _, rfl⟩
      rcases hf' with rfl | ⟨j, rfl⟩
      · trivial
      · exact afterSlot_inPair ch j

theorem readElements_pair_frame {s t : State} {ch : BitVec 2} (hs : s.phase ≠ .fault)
    (h : readElements (.dcSymbol ch) s = .next t) (ht : t.phase ≠ .fault) :
    ∃ c r f, t = { s with co := c, rpos := r, framer := f } :=
  have hstart : ReadPairTo s { s with framer := .reading (.dcSymbol ch) } := ⟨trivial, s.co, s.rpos, _, rfl⟩
  (runElements_keeps (P := ReadPairTo s) (fun _ _ _ => .of_runElement) hstart hs h ht).frame

/-! ## What each command does when it raises no fault -/

section Commands
variable {s t : State} (ht : t.phase ≠ .fault)
include ht

theorem execEncStart_eq_next (h : execEncStart s = .next t) : s.phase = .idle ∧ t = beginEncode s := by
  obtain ⟨hl, h⟩ := whenLegal_eq_next h ht
  split at h <;> cases h
  · simp at ht
  · exact ⟨by simpa using hl, rfl⟩

theorem execEncPush_eq_next (h : execEncPush s = .next t) :
    s.phase = .encCollect ∧ s.atEnd = false ∧ t = advance { s with cbuf := s.cbuf ++ [s.co] } := by
  obtain ⟨hl, h⟩ := whenLegal_eq_next h ht
  obtain ⟨hp, he⟩ : s.phase = .encCollect ∧ s.atEnd = false := by simpa using hl
  split at h <;> cases h
  · exact ⟨hp, he, rfl⟩
  · simp at ht

theorem execEncBuild_eq_next (h : execEncBuild s = .next t) :
    s.phase = .encCollect ∧ s.atEnd = true ∧
      t = { rewind s with
            freq := frequencies s.imagePairs, etab := buildTables (frequencies s.imagePairs), phase := .encReady } := by
  obtain ⟨hl, h⟩ := whenLegal_eq_next h ht
  obtain ⟨hp, he⟩ : s.phase = .encCollect ∧ s.atEnd = true := by simpa using hl
  cases h
  exact ⟨hp, he, rfl⟩

theorem execEncWriteHdr_eq_next (h : execEncWriteHdr s = .next t) :
    s.phase = .encReady ∧ ∃ o w f, t = { s with out := o, wpos := w, framer := f, phase := .encBlocks } := by
  obtain ⟨hl, h⟩ := whenLegal_eq_next h ht
  have hp : s.phase = .encReady := by simpa using hl
  refine ⟨hp, ?_⟩
  split at h
  · obtain ⟨u, hu, huf, rfl⟩ := andThen_eq_next_of_ne_fault h ht
    obtain ⟨o, w, f, rfl⟩ := writeElements_frame (by simp [hp]) hu huf
    exact ⟨o, w, f, rfl⟩
  · cases h; exact ⟨s.out, s.wpos, s.framer, rfl⟩
  · cases h; simp at ht

theorem execEncWritePair_eq_next (h : execEncWritePair s = .next t) :
    s.phase = .encBlocks ∧ s.atEnd = false ∧
      ∃ o w f, t = advance { s with out := o, wpos := w, framer := f } := by
  obtain ⟨hl, h⟩ := whenLegal_eq_next h ht
  obtain ⟨hp, he⟩ : s.phase = .encBlocks ∧ s.atEnd = false := by simpa using hl
  refine ⟨hp, he, ?_⟩
  split at h
  · cases h
  · split at h
    · cases h
    · obtain ⟨u, hu, huf, rfl⟩ := andThen_eq_next_of_ne_fault h ht
      obtain ⟨o, w, f, rfl⟩ := writeElements_frame (by simp [hp]) hu huf
      exact ⟨o, w, f, rfl⟩

theorem execEncFinish_eq_next (h : execEncFinish s = .next t) :
    s.phase = .encBlocks ∧ s.atEnd = true ∧ t = storeContainer (writeBits (padding s.wpos.toNat) s) := by
  obtain ⟨hl, h⟩ := whenLegal_eq_next h ht
  obtain ⟨hp, he⟩ : s.phase = .encBlocks ∧ s.atEnd = true := by simpa using hl
  dsimp only at h
  split at h <;> cases h
  · simp at ht
  · exact ⟨hp, he, rfl⟩

theorem execDecStart_eq_next (h : execDecStart s = .next t) : s.phase = .idle ∧ t = beginDecode s := by
  obtain ⟨hl, h⟩ := whenLegal_eq_next h ht
  split at h <;> cases h
  · simp at ht
  · exact ⟨by simpa using hl, rfl⟩

theorem execDecReadHdr_eq_next (h : execDecReadHdr s = .next t) :
    s.phase = .decHdr ∧
      ∃ d n r f, t = endHeader { s with dtab := d, nblk := n, rpos := r, framer := f } := by
  obtain ⟨hl, h⟩ := whenLegal_eq_next h ht
  have hp : s.phase = .decHdr := by simpa using hl
  obtain ⟨u, hu, huf, rfl⟩ := andThen_eq_next_of_ne_fault h ht
  obtain ⟨d, n, r, f, rfl⟩ := readElements_header_frame (by simp [hp]) hu huf
  exact ⟨hp, d, n, r, f, rfl⟩

theorem execDecReadPair_eq_next (h : execDecReadPair s = .next t) :
    s.phase = .decBlocks ∧ ∃ c r f, t = endPair { s with co := c, rpos := r, framer := f } := by
  obtain ⟨hl, h⟩ := whenLegal_eq_next h ht
  have hp : s.phase = .decBlocks := by simpa using hl
  obtain ⟨u, hu, huf, rfl⟩ := andThen_eq_next_of_ne_fault h ht
  obtain ⟨c, r, f, rfl⟩ := readElements_pair_frame (by simp [hp]) hu huf
  exact ⟨hp, c, r, f, rfl⟩

end Commands

/-! ## The frame of every command -/

/-- Settles O47: a command that raises no fault ends in a named operation on `s`, or on `s` with the fields its stream
elements write, and that operation keeps what R40 says. -/
theorem commandsKeepOtherState : Obligations.CommandsKeepOtherState := by
  intro i s t hc h ht
  cases i with
  | nop => cases h; simp [keptBy]
  | reset => cases h; simp [keptBy]
  | encStart => obtain ⟨_, rfl⟩ := execEncStart_eq_next ht h; simp [keptBy]
  | encPush => obtain ⟨_, _, rfl⟩ := execEncPush_eq_next ht h; simp [keptBy]
  | encBuild => obtain ⟨_, _, rfl⟩ := execEncBuild_eq_next ht h; simp [keptBy]
  | encWriteHdr => obtain ⟨_, _, _, _, rfl⟩ := execEncWriteHdr_eq_next ht h; simp [keptBy]
  | encWritePair => obtain ⟨_, _, _, _, _, rfl⟩ := execEncWritePair_eq_next ht h; simp [keptBy]
  | encFinish => obtain ⟨_, _, rfl⟩ := execEncFinish_eq_next ht h; simp [keptBy]
  | decStart => obtain ⟨_, rfl⟩ := execDecStart_eq_next ht h; simp [keptBy]
  | decReadHdr => obtain ⟨_, _, _, _, _, rfl⟩ := execDecReadHdr_eq_next ht h; simp [keptBy]
  | decReadPair => obtain ⟨_, _, _, _, rfl⟩ := execDecReadPair_eq_next ht h; simp [keptBy]
  | _ => cases hc

end Sys2Proof.Machine
end

section
/-! Proofs about the bitstream memory and the writer (`spec/20_memory.md` sections 1 and 3, R61, R62, R66). -/

namespace Sys2Proof.Machine

/-! ## Whole bytes of `BS` as stream bits -/

/-- The bits of byte `a`, most significant first (R61). -/
theorem Memory.bit_of_byte (m : List Host.Cell) (a : Nat) {j : Nat} (hj : j < 8) :
    Memory.bit m (8 * a + j) = (Memory.read m a).getLsbD (7 - j) := by
  have hdiv : (8 * a + j) / 8 = a := by omega
  have hmod : (8 * a + j) % 8 = j := by omega
  rw [Memory.bit, hdiv, hmod]

theorem Memory.bits_byte (m : List Host.Cell) (a : Nat) :
    Memory.bits m (8 * a) 8 = ubits (Memory.read m a).toNat 8 := by
  have hfirst : Memory.bit m (8 * a) = (Memory.read m a).getLsbD 7 := Memory.bit_of_byte m a (j := 0) (by omega)
  simp [Memory.bits, ubits, Nat.add_assoc, hfirst, Memory.bit_of_byte, BitVec.getLsbD]

/-- Whole bytes are read one after another, the first of them before the others (R62). -/
theorem Memory.bits_bytes_succ (m : List Host.Cell) (a n : Nat) :
    Memory.bits m (8 * a) (8 * (n + 1)) =
      ubits (Memory.read m a).toNat 8 ++ Memory.bits m (8 * (a + 1)) (8 * n) := by
  rw [← Memory.bits_byte, Nat.mul_succ 8 a, ← Memory.bits_add, Nat.mul_succ 8 n, Nat.add_comm 8]

/-- Settles O55, by induction on the number of bytes: the first byte has weight `2^(8n) = 256^n`. -/
theorem alignedFieldIsBigEndian : Obligations.AlignedFieldIsBigEndian := by
  intro m a n
  induction n generalizing a with
  | zero => rfl
  | succ n ih =>
    rw [Memory.bits_bytes_succ, uval_append, uval_ubits (Memory.read m a).isLt, Memory.bits_length, ih, pow_mul,
      Nat.mul_comm]
    rfl

/-- Bytes that hold a bit string packed are read as that bit string. -/
theorem Memory.bits_of_packed {m : List Host.Cell} {n a : Nat} {b : Bits} (hb : b.length = 8 * n)
    (hread : ∀ j (hj : j < (packBytes n b).length), Memory.read m (a + j) = (packBytes n b)[j]) :
    Memory.bits m (8 * a) (8 * n) = b := by
  induction n generalizing a b with
  | zero => exact (List.eq_nil_of_length_eq_zero hb).symm
  | succ n ih =>
    have hhead : (b.take 8).length = 8 := by rw [List.length_take]; omega
    have htail : (b.drop 8).length = 8 * n := by rw [List.length_drop]; omega
    have hfirst : ubits (Memory.read m a).toNat 8 = b.take 8 := by
      have hval : uval (b.take 8) < 2 ^ 8 := by simpa only [hhead] using uval_lt (b.take 8)
      have hbyte : Memory.read m a = BitVec.ofNat 8 (uval (b.take 8)) := hread 0 (by simp)
      rw [hbyte, BitVec.toNat_ofNat, Nat.mod_eq_of_lt hval]
      simpa only [hhead] using ubits_uval (b.take 8)
    have hrest : Memory.bits m (8 * (a + 1)) (8 * n) = b.drop 8 := by
      refine ih htail fun j hj => ?_
      rw [Nat.add_assoc, Nat.add_comm 1 j]
      exact hread (j + 1) (by simpa using hj)
    rw [Memory.bits_bytes_succ, hfirst, hrest, List.take_append_drop]

/-- Settles O56: the stored bytes read back, and they hold the bit string packed. -/
theorem packedBitsReadBack : Obligations.PackedBitsReadBack :=
  fun _ _ _ hm hb => Memory.bits_of_packed (a := 0) hb fun _ hj => Memory.read_store hm 0 hj

/-! ## The writer -/

/-- Settles O31: every element a writer stands at is emitted. -/
theorem writerEmitsElement : Obligations.WriterEmitsElement := by
  intro i is s hi hf
  rw [← runElement_eq_exec s hi, runElement_writing hi hf]
  rfl

end Sys2Proof.Machine
end

section
/-! The encode direction's buffers are kept by every step (`spec/10_state.md` section 4, `spec/20_memory.md` section 6, R77). -/

namespace Sys2Proof.Machine

/-! ## Every step between two commands -/

theorem isCommand_of_decodeCommand {w : Word} {i : Instr} (h : decodeCommand w = .ok i) : isCommand i = true := by
  unfold decodeCommand at h
  split at h <;> cases h <;> rfl

/-- What a host access that runs no command makes of `u`, the state in which it has been taken off the queue (log 1). -/
inductive AccessStep (u : State) : State → Prop
  /-- An undefined command in FAULT (R274). -/
  | ignored : AccessStep u u
  /-- An undefined command outside FAULT (R273). -/
  | undefinedCommand (e : DecodeError) : AccessStep u (raise e.errCode u)
  | regWrite (offset : BitVec 9) (v : Word) : AccessStep u (writeReg offset v u)
  | regRead (offset : BitVec 9) : AccessStep u (hostRead offset u)
  | bsRead (w : Word) : u.hostOwnsBs = true → AccessStep u { u with rdata := w }
  | bsWrite (a : Nat) (b : Byte) :
    u.hostOwnsBs = true → a < u.bsCap → AccessStep u { u with bs := Memory.write u.bs a b }
  | reset : AccessStep u (resetState u)

/-- A word written to `CMD` is a command to run, or is settled at once (R105, R273, R274). -/
theorem fetchCommand_cases (w : Word) (u : State) :
    (∃ i, isCommand i = true ∧ fetchCommand w u = .run i u) ∨
      ∃ t, AccessStep u t ∧ fetchCommand w u = .settled (.next t) := by
  unfold fetchCommand
  cases hd : decodeCommand w with
  | ok i => exact .inl ⟨i, isCommand_of_decodeCommand hd, rfl⟩
  | error e =>
    refine .inr ?_
    by_cases hf : u.phase = .fault
    · exact ⟨u, .ignored, if_pos hf⟩
    · exact ⟨_, .undefinedCommand e, if_neg hf⟩

/-- A host access runs a command, or is settled at once. -/
theorem fetchAccess_cases (a : HostAccess) (u : State) :
    (∃ i, isCommand i = true ∧ fetchAccess a u = .run i u) ∨
      ∃ r, fetchAccess a u = .settled r ∧ ∀ t, r = .next t → AccessStep u t := by
  cases a with
  | regWrite offset v =>
    by_cases hc : offset = cmdOffset
    · simp only [fetchAccess, if_pos hc]
      refine (fetchCommand_cases v u).imp_right ?_
      rintro ⟨t, ht, h⟩
      exact ⟨_, h, by rintro _ ⟨⟩; exact ht⟩
    · exact .inr ⟨_, if_neg hc, by rintro _ ⟨⟩; exact .regWrite offset v⟩
  | regRead offset => exact .inr ⟨_, rfl, by rintro _ ⟨⟩; exact .regRead offset⟩
  | bsRead a =>
    refine .inr ⟨_, rfl, fun t h => ?_⟩
    rcases hostBs_cases h with ⟨_, h⟩ | ⟨_, _, h⟩ | ⟨ho, _, h⟩ <;> cases h
    exact .bsRead _ ho
  | bsWrite a b =>
    refine .inr ⟨_, rfl, fun t h => ?_⟩
    rcases hostBs_cases h with ⟨_, h⟩ | ⟨_, _, h⟩ | ⟨ho, ha, h⟩ <;> cases h
    exact .bsWrite a b ho ha
  | hwReset => exact .inr ⟨_, rfl, by rintro _ ⟨⟩; exact .reset⟩

/-- Everything a step can do between two commands: wait, run a command, or another access of the host. -/
theorem step_cases_of_rest {s t : State} (hr : s.framer = .rest) (h : step s = .next t) :
    t = s ∨ ∃ rest, (∃ i, isCommand i = true ∧ exec i { s with bus := rest } = .next t) ∨
      AccessStep { s with bus := rest } t := by
  cases hb : s.bus with
  | nil =>
    simp only [step, fetch_of_empty_bus hr hb, Host.Outcome.next.injEq] at h
    exact .inl h.symm
  | cons a rest =>
    refine .inr ⟨rest, ?_⟩
    simp only [step, fetch_of_access hr hb] at h
    rcases fetchAccess_cases a { s with bus := rest } with ⟨i, hi, hx⟩ | ⟨r, hx, hr⟩ <;> rw [hx] at h
    · exact .inl ⟨i, hi, h⟩
    · exact .inr (hr t h)

/-! ## What the encode commands test -/

theorem execEncStart_within_capacity {s t : State} (ht : t.phase ≠ .fault) (h : execEncStart s = .next t) :
    s.nblk.toNat ≤ s.cbufBlocks := by
  obtain ⟨_, h⟩ := whenLegal_eq_next h ht
  split at h <;> cases h
  · simp at ht
  · omega

theorem execEncPush_legalPair {s t : State} (ht : t.phase ≠ .fault) (h : execEncPush s = .next t) :
    legalPair s.co = true := by
  obtain ⟨_, h⟩ := whenLegal_eq_next h ht
  split at h <;> cases h
  · assumption
  · simp at ht

/-! ## Advancing the pair cursor -/

/-- Short of its end, the cursor advances by one pair (R27). -/
theorem advance_pairIndex {s : State} (hch : s.ch.toNat ≤ 2) (hblk : s.blk.toNat < s.nblk.toNat) :
    (advance s).pairIndex = s.pairIndex + 1 := by
  have hn := s.nblk.isLt
  have hone : (s.blk + 1).toNat = s.blk.toNat + 1 := by bv_omega
  simp only [State.pairIndex, advance_blk, advance_ch]
  split
  · have hnext : (s.ch + 1).toNat = s.ch.toNat + 1 := by bv_omega
    omega
  · have hzero : (0 : BitVec 2).toNat = 0 := rfl
    omega

theorem State.SequencerOk.blk_lt_nblk {s : State} (h : s.SequencerOk) (hf : s.phase ≠ .fault)
    (he : s.atEnd = false) : s.blk.toNat < s.nblk.toNat := by
  have hle := h.cursor hf
  have hne : s.blk ≠ s.nblk := by simpa [State.atEnd] using he
  exact lt_of_le_of_ne hle (mt BitVec.eq_of_toNat_eq hne)

/-- At the end of the image the cursor counts all its pairs (R27). -/
theorem State.SequencerOk.pairIndex_of_atEnd {s : State} (h : s.SequencerOk) (hf : s.phase ≠ .fault)
    (he : s.atEnd = true) : s.pairIndex = 3 * s.nblk.toNat := by
  have hb : s.blk = s.nblk := by simpa [State.atEnd] using he
  simp [State.pairIndex, h.cursorEnd hf hb, hb]

/-! ## The phase after a part of a decode -/

theorem endHeader_phase_cases (s : State) : (endHeader s).phase = .done ∨ (endHeader s).phase = .decBlocks := by
  rw [endHeader_phase]
  exact ite_eq_or_eq ..

theorem endPair_phase_cases (s : State) : (endPair s).phase = .done ∨ (endPair s).phase = s.phase := by
  rw [endPair_phase]
  exact ite_eq_or_eq ..

/-! ## The buffers -/

/-- Outside the phases of an encode nothing is said of the buffers. -/
theorem State.EncodeOk.of_phase {s : State} (h : s.phase ∉ [.encCollect, .encReady, .encBlocks]) :
    s.EncodeOk := by
  simp only [List.mem_cons, List.not_mem_nil, or_false, not_or] at h
  obtain ⟨hcollect, hready, hblocks⟩ := h
  exact ⟨fun hp => absurd hp hcollect, fun hp => absurd hp (not_or.2 ⟨hready, hblocks⟩)⟩

theorem legalPairs_append {ps : List Pair} {p : Pair} (hps : legalPairs ps) (hp : legalPair p = true) :
    legalPairs (ps ++ [p]) := by
  intro q hq
  rcases List.mem_append.1 hq with hq | hq
  · exact hps q hq
  · exact List.mem_singleton.1 hq ▸ hp

/-- `ENC_START` begins with empty buffers. -/
theorem beginEncode_encodeOk {s : State} (hcap : s.nblk.toNat ≤ s.cbufBlocks) : (beginEncode s).EncodeOk :=
  ⟨fun _ => ⟨rfl, fun _ hp => absurd hp List.not_mem_nil, hcap⟩, fun h => by simp at h⟩

/-- `ENC_PUSH` appends one pair and advances the cursor by one. -/
theorem advance_push_encodeOk {s : State} (hs : s.SequencerOk) (he : s.EncodeOk) (hp : s.phase = .encCollect)
    (hend : s.atEnd = false) (hco : legalPair s.co = true) :
    (advance { s with cbuf := s.cbuf ++ [s.co] }).EncodeOk := by
  have hf : s.phase ≠ .fault := by simp [hp]
  obtain ⟨hlen, hlegal, hcap⟩ := he.collect hp
  have hindex : (advance { s with cbuf := s.cbuf ++ [s.co] }).pairIndex = s.pairIndex + 1 :=
    advance_pairIndex (hs.channel hf) (hs.blk_lt_nblk hf hend)
  refine ⟨fun _ => ⟨?_, ?_, ?_⟩, fun h => by simp [hp] at h⟩
  · simp [hindex, hlen]
  · simpa using legalPairs_append hlegal hco
  · simpa using hcap

/-- `ENC_BUILD` counts the pairs of the image, which are all that `CBUF` holds. -/
theorem build_encodeOk {s : State} (hs : s.SequencerOk) (he : s.EncodeOk) (hp : s.phase = .encCollect)
    (hend : s.atEnd = true) :
    { rewind s with
      freq := frequencies s.imagePairs, etab := buildTables (frequencies s.imagePairs),
      phase := .encReady }.EncodeOk := by
  obtain ⟨hlen, hlegal, _⟩ := he.collect hp
  have hall : s.cbuf.length = 3 * s.nblk.toNat := hlen.trans (hs.pairIndex_of_atEnd (by simp [hp]) hend)
  have himage : s.imagePairs = s.cbuf := by rw [State.imagePairs, ← hall, List.take_length]
  exact ⟨fun h => by simp at h, fun _ => ⟨hall, hlegal, congrArg frequencies himage, rfl⟩⟩

/-- Every command keeps the encode direction's buffers. -/
theorem exec_keeps_encodeOk {i : Instr} {s t : State} (hi : isCommand i = true) (hs : s.SequencerOk)
    (he : s.EncodeOk) (h : exec i s = .next t) (ht : t.phase ≠ .fault) : t.EncodeOk := by
  cases i with
  | nop => cases h; exact he
  | reset => cases h; exact .of_phase (by simp)
  | encStart =>
    obtain ⟨_, rfl⟩ := execEncStart_eq_next ht h
    exact beginEncode_encodeOk (execEncStart_within_capacity ht h)
  | encPush =>
    have hco := execEncPush_legalPair ht h
    obtain ⟨hp, hend, rfl⟩ := execEncPush_eq_next ht h
    exact advance_push_encodeOk hs he hp hend hco
  | encBuild =>
    obtain ⟨hp, hend, rfl⟩ := execEncBuild_eq_next ht h
    exact build_encodeOk hs he hp hend
  | encWriteHdr =>
    obtain ⟨hp, o, w, f, rfl⟩ := execEncWriteHdr_eq_next ht h
    exact ⟨fun h => by simp at h, fun _ => he.built (.inl hp)⟩
  | encWritePair =>
    obtain ⟨hp, _, o, w, f, rfl⟩ := execEncWritePair_eq_next ht h
    exact ⟨fun h => by simp [hp] at h, fun _ => by simpa using he.built (.inr hp)⟩
  | encFinish =>
    obtain ⟨_, _, rfl⟩ := execEncFinish_eq_next ht h
    exact .of_phase (by simp)
  | decStart =>
    obtain ⟨_, rfl⟩ := execDecStart_eq_next ht h
    exact .of_phase (by simp)
  | decReadHdr =>
    obtain ⟨_, d, n, r, f, rfl⟩ := execDecReadHdr_eq_next ht h
    rcases endHeader_phase_cases { s with dtab := d, nblk := n, rpos := r, framer := f } with hq | hq <;>
      exact .of_phase (by rw [hq]; simp)
  | decReadPair =>
    obtain ⟨hp, c, r, f, rfl⟩ := execDecReadPair_eq_next ht h
    rcases endPair_phase_cases { s with co := c, rpos := r, framer := f } with hq | hq <;>
      exact .of_phase (by rw [hq]; simp [hp])
  | _ => cases hi

/-- A host access that runs no command keeps the encode direction's buffers: `NBLK` can be written in IDLE only (R23). -/
theorem AccessStep.keeps_encodeOk {u t : State} (h : AccessStep u t) (he : u.EncodeOk) (ht : t.phase ≠ .fault) :
    t.EncodeOk := by
  cases h with
  | ignored => exact he
  | undefinedCommand e => simp at ht
  | regWrite offset v =>
    rcases writeReg_cases offset v u with ⟨i, _, hw⟩ | ⟨hp, hw | ⟨n, hw⟩⟩ | hw <;> rw [hw]
    · exact ⟨he.collect, he.built⟩
    · exact .of_phase (by simp [hp])
    · exact ⟨he.collect, he.built⟩
    · exact he
  | regRead offset =>
    have hu : u.phase ≠ .fault := fun hu => ht (by simp [hostRead, hu])
    rw [hostRead_of_ne_fault hu]
    exact ⟨he.collect, he.built⟩
  | bsRead w _ => exact ⟨he.collect, he.built⟩
  | bsWrite a b _ _ => exact ⟨he.collect, he.built⟩
  | reset => exact .of_phase (by simp)

/-- Settles O52: a fault leaves the encode; outside FAULT, a command or another access of the host keeps its buffers. -/
theorem stepKeepsEncodeBuffers : Obligations.StepKeepsEncodeBuffers := by
  intro s t hs he h
  by_cases ht : t.phase = .fault
  · exact .of_phase (by simp [ht])
  · rcases step_cases_of_rest hs.atRest h with rfl | ⟨rest, ⟨i, hi, hx⟩ | ha⟩
    · exact he
    · exact exec_keeps_encodeOk (s := { s with bus := rest }) hi { hs with } ⟨he.collect, he.built⟩ hx ht
    · exact ha.keeps_encodeOk ⟨he.collect, he.built⟩ ht

end Sys2Proof.Machine
end

section
/-! The command words (`spec/30_encoding.md` section 6, R105, R110, R111). -/

namespace Sys2Proof.Machine

open Sys2Proof.Claims

/-- The remainder modulo 256 of a word is its field [7:0]. -/
theorem ofNat_mod_eq_lowByte (w : Word) : BitVec.ofNat 8 (w.toNat % 256) = w.extractLsb' 0 8 := by
  apply BitVec.eq_of_toNat_eq
  simp

/-- A byte that is the code of no row of R110 is looked up in vain. -/
theorem lookup_commandTable_eq_none {c : BitVec 8} (h : ∀ p ∈ commandTable, c.toNat ≠ p.1.toNat) :
    commandTable.lookup c = none :=
  List.lookup_eq_none_iff.2 fun p hp => bne_iff_ne.2 fun hc => h p hp (congrArg BitVec.toNat hc)

/-- Settles O13, by the decoder's cases: each code it knows stands in the row of R110 for its command, and no row has
another code. -/
theorem commandWordsDecode : Obligations.CommandWordsDecode := by
  intro w
  rw [ofNat_mod_eq_lowByte, decodeCommand]
  generalize w.extractLsb' 0 8 = c
  split
  case h_12 =>
    have hnone : commandTable.lookup c = none := lookup_commandTable_eq_none fun p hp => by
      fin_cases hp <;> assumption
    rw [hnone]
  all_goals
    obtain ⟨-, rfl⟩ := BitVec.toNat_eq_nat.1 ‹c.toNat = _›
    rfl

end Sys2Proof.Machine
end

section
/-! The BitString codec (`spec/40_bitstring.md`, R130 to R136). -/

namespace Sys2Proof

/-! ## Widths of magnitudes -/

@[simp] theorem bitsRequired_zero : bitsRequired 0 = 0 := rfl

@[simp] theorem bitsRequired_neg (v : Int) : bitsRequired (-v) = bitsRequired v := by
  simp [bitsRequired]

/-- R130: the width that `bitsRequired` counts is the least one that holds the magnitude. -/
theorem bitsRequired_le_iff (v : Int) (w : Nat) : bitsRequired v ≤ w ↔ v.natAbs < 2 ^ w := by
  by_cases hv : v = 0
  · simp [hv]
  · rw [bitsRequired, if_neg hv, Nat.succ_le_iff, Nat.log2_lt (Int.natAbs_ne_zero.2 hv)]

/-- The values of category `w + 1` (R136). -/
theorem bitsRequired_eq_succ_iff (v : Int) (w : Nat) :
    bitsRequired v = w + 1 ↔ 2 ^ w ≤ v.natAbs ∧ v.natAbs < 2 ^ (w + 1) := by
  rw [← not_lt, ← bitsRequired_le_iff, ← bitsRequired_le_iff]
  omega

/-- Settles O1: `bitsRequired_le_iff` and the category of 0. -/
theorem bitsRequiredIsLeastWidth : Obligations.BitsRequiredIsLeastWidth :=
  ⟨bitsRequired_zero, bitsRequired_le_iff⟩

/-! ## Unsigned fields -/

theorem ubitsChecked_of_lt {v w : Nat} (h : v < 2 ^ w) : ubitsChecked v w = .ok (ubits v w) := if_pos h

theorem ubitsChecked_of_le {v w : Nat} (h : 2 ^ w ≤ v) : ubitsChecked v w = .error .eWidth := if_neg h.not_gt

/-- `ubits` writes the most significant bit first (R131). -/
theorem ubits_getElem? (v : Nat) {w j : Nat} (h : j < w) : (ubits v w)[j]? = some (v.testBit (w - 1 - j)) := by
  induction w generalizing j with
  | zero => omega
  | succ w ih =>
    cases j with
    | zero => rfl
    | succ j =>
      have hbit : w + 1 - 1 - (j + 1) = w - 1 - j := by omega
      rw [ubits, List.getElem?_cons_succ, ih (by omega), hbit]

/-- Settles O2: a value that fits is written as `ubits`, whose reading and bits are known; any other is refused. -/
theorem ubitsWritesExactWidth : Obligations.UbitsWritesExactWidth := fun v w =>
  ⟨fun h => ⟨ubits v w, ubitsChecked_of_lt h, ubits_length v w, uval_ubits h, fun _ => ubits_getElem? v⟩,
    ubitsChecked_of_le⟩

/-! ## Signed values

Complementing a string negates its value, in both directions, so every fact about signed values is proved for strings
that start with 1 (the positive values) and carried over to those that start with 0. -/

@[simp] theorem readInt_nil : readInt [] = 0 := rfl

theorem readInt_true_cons (b : Bits) : readInt (true :: b) = uval (true :: b) := rfl

@[simp] theorem cpl_cons (x : Bool) (b : Bits) : cpl (x :: b) = (!x) :: cpl b := rfl

theorem readInt_cpl (b : Bits) : readInt (cpl b) = -readInt b := by
  match b with
  | [] => rfl
  | true :: b => simp [readInt]
  | false :: b => simp [readInt]

theorem readInt_false_cons (b : Bits) : readInt (false :: b) = -readInt (true :: cpl b) := by
  simpa using readInt_cpl (true :: cpl b)

@[simp] theorem ibits_zero : ibits 0 = [] := rfl

theorem ibits_natCast (n : Nat) : ibits n = ubits n (bitsRequired n) := by
  simp [ibits]

@[simp] theorem ibits_length (v : Int) : (ibits v).length = bitsRequired v := by
  rw [ibits]
  split <;> simp

theorem ibits_neg (v : Int) : ibits (-v) = cpl (ibits v) := by
  rcases lt_trichotomy v 0 with h | rfl | h
  · simp [ibits, h.le, h.not_ge]
  · rfl
  · simp [ibits, h.le, h.not_ge]

/-! ## The round trip -/

theorem two_pow_le_uval_true_cons (b : Bits) : 2 ^ b.length ≤ uval (true :: b) := by
  simp [uval_cons]

/-- A string that starts with 1 has as many bits as its value needs. -/
theorem bitsRequired_uval_true_cons (b : Bits) : bitsRequired (uval (true :: b)) = b.length + 1 :=
  (bitsRequired_eq_succ_iff _ _).2 ⟨two_pow_le_uval_true_cons b, uval_lt (true :: b)⟩

theorem ibits_readInt_true_cons (b : Bits) : ibits (readInt (true :: b)) = true :: b := by
  rw [readInt_true_cons, ibits_natCast, bitsRequired_uval_true_cons]
  exact ubits_uval (true :: b)

theorem ibits_readInt (b : Bits) : ibits (readInt b) = b := by
  match b with
  | [] => rfl
  | true :: b => exact ibits_readInt_true_cons b
  | false :: b => rw [readInt_false_cons, ibits_neg, ibits_readInt_true_cons]; simp

theorem bitsRequired_readInt (b : Bits) : bitsRequired (readInt b) = b.length := by
  rw [← ibits_length, ibits_readInt]

/-- The first bit of a nonzero magnitude is 1, so it is read back as written. -/
theorem readInt_ibits_natCast (n : Nat) : readInt (ibits n) = n := by
  by_cases hn : n = 0
  · simp [hn]
  · have hwidth : bitsRequired n = n.log2 + 1 := by simp [bitsRequired, hn]
    have hlead : ibits n = true :: ubits n n.log2 := by
      rw [ibits_natCast, hwidth, ubits, Nat.testBit_log2 hn]
    have hfit : n < 2 ^ bitsRequired n := (bitsRequired_le_iff n _).1 le_rfl
    rw [hlead, readInt_true_cons, ← hlead, ibits_natCast, uval_ubits hfit]

theorem readInt_ibits (v : Int) : readInt (ibits v) = v := by
  obtain ⟨n, rfl | rfl⟩ := v.eq_nat_or_neg
  · exact readInt_ibits_natCast n
  · rw [ibits_neg, readInt_cpl, readInt_ibits_natCast]

/-- Settles O3: both round trips, each with its width. -/
theorem signedValueRoundTrip : Obligations.SignedValueRoundTrip :=
  ⟨fun v => ⟨readInt_ibits v, ibits_length v⟩, fun b => ⟨ibits_readInt b, bitsRequired_readInt b⟩⟩

/-! ## The range of a category -/

/-- A string and its complement add up to the string of ones. -/
theorem uval_add_uval_cpl (b : Bits) : uval b + uval (cpl b) + 1 = 2 ^ b.length := by
  induction b with
  | nil => rfl
  | cons x b ih =>
    rw [cpl_cons, uval_cons, uval_cons, cpl_length, List.length_cons, pow_succ]
    cases x <;> simp <;> omega

theorem readInt_true_cons_bounds (b : Bits) :
    2 ^ b.length ≤ readInt (true :: b) ∧ readInt (true :: b) ≤ 2 ^ (b.length + 1) - 1 := by
  have hlow := two_pow_le_uval_true_cons b
  have hhigh := uval_lt (true :: b)
  rw [readInt_true_cons, Int.le_sub_one_iff]
  exact ⟨mod_cast hlow, mod_cast hhigh⟩

theorem readInt_false_cons_eq_sub (b : Bits) :
    readInt (false :: b) = uval (false :: b) - (2 ^ (b.length + 1) - 1) := by
  have hsum : (uval (false :: b) : Int) + uval (true :: cpl b) + 1 = 2 ^ (b.length + 1) :=
    mod_cast uval_add_uval_cpl (false :: b)
  rw [readInt_false_cons, readInt_true_cons]
  omega

/-- Exactly one string of `w` bits is read as a value of category `w` (R136): the one `ibits` writes. -/
theorem existsUnique_readInt_eq {v : Int} {w : Nat} (h : bitsRequired v = w) :
    ∃! b : Bits, b.length = w ∧ readInt b = v :=
  ⟨ibits v, ⟨(ibits_length v).trans h, readInt_ibits v⟩, fun b ⟨_, hb⟩ => by rw [← hb, ibits_readInt]⟩

/-- Settles O4: the first bit says which half of the range a string is read into, and every value of the category has
exactly the string `ibits` writes. -/
theorem readIntCoversCategory : Obligations.ReadIntCoversCategory := by
  intro w hw
  obtain ⟨w, rfl⟩ := Nat.exists_eq_add_of_le' hw
  rw [Nat.add_sub_cancel]
  refine ⟨fun b hb => ?_, fun v hlow hhigh => existsUnique_readInt_eq ?_⟩
  · match b with
    | true :: b =>
      obtain rfl : b.length = w := by simpa using hb
      exact ⟨fun _ => ⟨readInt_true_cons b, readInt_true_cons_bounds b⟩, by simp⟩
    | false :: b =>
      obtain rfl : b.length = w := by simpa using hb
      obtain ⟨hlow, hhigh⟩ := readInt_true_cons_bounds (cpl b)
      rw [cpl_length] at hlow hhigh
      refine ⟨by simp, fun _ => ⟨readInt_false_cons_eq_sub b, ?_⟩⟩
      rw [readInt_false_cons]
      exact ⟨neg_le_neg hhigh, neg_le_neg hlow⟩
  · rw [Int.le_sub_one_iff] at hhigh
    rw [bitsRequired_eq_succ_iff]
    zify
    exact ⟨hlow, hhigh⟩

end Sys2Proof
end

section
/-! The glue around the block (`spec/41_glue_zigzag_quant.md`, R150 to R157). -/

namespace Sys2Proof.Machine

open Sys2Proof.Claims

/-! ## The zigzag order -/

theorem mem_diagonal {rows cols s r c : Nat} :
    (r, c) ∈ diagonal rows cols s ↔ r < rows ∧ c < cols ∧ r + c = s := by
  simp only [diagonal, List.mem_filterMap, List.mem_range, Option.ite_none_right_eq_some, Option.some.injEq,
    Prod.mk.injEq]
  constructor
  · rintro ⟨_, hr, ⟨hs, hc⟩, rfl, rfl⟩
    omega
  · rintro ⟨hr, hc, rfl⟩
    exact ⟨r, hr, by omega, rfl, by omega⟩

/-- The traversal visits exactly the positions of the matrix (R151). -/
theorem mem_zigzagPoints {rows cols r c : Nat} : (r, c) ∈ zigzagPoints rows cols ↔ r < rows ∧ c < cols := by
  have hdirection (s : Nat) : (r, c) ∈ (if s % 2 = 0 then (diagonal rows cols s).reverse else diagonal rows cols s) ↔
      (r, c) ∈ diagonal rows cols s := by split <;> simp
  simp only [zigzagPoints, List.mem_flatMap, List.mem_range, hdirection, mem_diagonal]
  constructor
  · rintro ⟨_, _, hr, hc, _⟩
    exact ⟨hr, hc⟩
  · rintro ⟨hr, hc⟩
    exact ⟨r + c, by omega, hr, hc, rfl⟩

/-- R152: `ZZ` lists the traversal as `8·row + col`. -/
theorem map_zigzagPoints_eight : (zigzagPoints 8 8).map (fun p => 8 * p.1 + p.2) = zz := by decide

/-- R152: `ZZ_row(k) = ZZ(k) div 8`, `ZZ_col(k) = ZZ(k) mod 8`. -/
theorem zigzagPoints_eight : zigzagPoints 8 8 = zz.map fun k => (k / 8, k % 8) := by
  have hdecode : ∀ p ∈ zigzagPoints 8 8, ((8 * p.1 + p.2) / 8, (8 * p.1 + p.2) % 8) = p := by
    rintro ⟨r, c⟩ hp
    obtain ⟨-, hc⟩ := mem_zigzagPoints.1 hp
    exact Prod.ext (by simp only; omega) (by simp only; omega)
  rw [← map_zigzagPoints_eight, List.map_map]
  exact (List.map_id _).symm.trans (List.map_congr_left fun p hp => (hdecode p hp).symm)

theorem mem_zz_of_lt {k : Nat} (hk : k < 64) : k ∈ zz := by
  have hmem : (k / 8, k % 8) ∈ zigzagPoints 8 8 := mem_zigzagPoints.2 ⟨by omega, by omega⟩
  rw [← map_zigzagPoints_eight]
  exact List.mem_map.2 ⟨_, hmem, Nat.div_add_mod k 8⟩

/-- `ZZ` has 64 entries, and every number below 64 is one of them. -/
theorem nodup_zz : zz.Nodup := by
  have hsub : List.range 64 ⊆ zz := fun k hk => mem_zz_of_lt (List.mem_range.1 hk)
  exact ((List.subperm_of_subset List.nodup_range hsub).perm_of_length_le le_rfl).nodup_iff.1 List.nodup_range

/-- Settles O58: the order is computed; `ZZ` has no room for a second occurrence. -/
theorem zigzagOrderOfEightByEight : Obligations.ZigzagOrderOfEightByEight :=
  ⟨map_zigzagPoints_eight, nodup_zz⟩

/-! ## Matrices of one shape -/

section Shape

variable {α β γ : Type} {b : List (List α)} {t : List (List β)}

theorem length_eq_of_shape (h : b.map List.length = t.map List.length) : b.length = t.length := by
  simpa using congrArg List.length h

theorem length_row_eq (h : b.map List.length = t.map List.length) (i : Nat) :
    (b.getD i []).length = (t.getD i []).length :=
  calc (b.getD i []).length = (b.map List.length).getD i 0 := (List.getD_map b [] List.length).symm
    _ = (t.map List.length).getD i 0 := by rw [h]
    _ = (t.getD i []).length := List.getD_map t [] List.length

theorem length_getElem_eq (h : b.map List.length = t.map List.length) {i : Nat} (hb : i < b.length) (ht : i < t.length) :
    b[i].length = t[i].length := by
  have hi := List.getElem_of_eq h (by rwa [List.length_map] : i < (b.map List.length).length)
  rwa [List.getElem_map, List.getElem_map] at hi

theorem getD_zipWith {f : α → β → γ} {x : α} {y : β} {z : γ} (hz : f x y = z) :
    ∀ {l : List α} {l' : List β}, l.length = l'.length → ∀ i,
      (List.zipWith f l l').getD i z = f (l.getD i x) (l'.getD i y)
  | [], [], _, _ => hz.symm
  | _ :: _, _ :: _, _, 0 => rfl
  | _ :: _, _ :: _, h, i + 1 => getD_zipWith hz (Nat.succ.inj h) i

theorem shape_zipWith (f : α → β → γ) : ∀ {b : List (List α)} {t : List (List β)},
    b.map List.length = t.map List.length → (List.zipWith (List.zipWith f) b t).map List.length = t.map List.length
  | [], [], _ => rfl
  | r :: b, s :: t, h => by
    obtain ⟨hrow, hrows⟩ := List.cons.inj h
    have hlength : (List.zipWith f r s).length = s.length := by rw [List.length_zipWith, hrow, min_self]
    exact congrArg₂ List.cons hlength (shape_zipWith f hrows)

/-- Two operands of one shape are combined element by element, outside the matrix too. -/
theorem getD_getD_zipWith (h : b.map List.length = t.map List.length) {f : α → β → γ} {x : α} {y : β} {z : γ}
    (hz : f x y = z) (i j : Nat) :
    ((List.zipWith (List.zipWith f) b t).getD i []).getD j z = f ((b.getD i []).getD j x) ((t.getD i []).getD j y) := by
  rw [getD_zipWith List.zipWith_nil_left (length_eq_of_shape h), getD_zipWith hz (length_row_eq h i)]

end Shape

theorem Block.at_eq_getElem {m : Block} {i j : Nat} (hi : i < m.length) (hj : j < m[i].length) : m.at (i, j) = m[i][j] := by
  rw [Block.at, List.getD_eq_getElem _ _ hi, List.getD_eq_getElem _ _ hj]

/-- A matrix is determined by its shape and the elements inside it. -/
theorem Block.ext_at {a b : Block} (h : a.map List.length = b.map List.length)
    (hat : ∀ i j (hi : i < b.length), j < b[i].length → a.at (i, j) = b.at (i, j)) : a = b := by
  refine List.ext_getElem (length_eq_of_shape h) fun i hia hib =>
    List.ext_getElem (length_getElem_eq h hia hib) fun j hja hjb => ?_
  rw [← Block.at_eq_getElem hia hja, ← Block.at_eq_getElem hib hjb]
  exact hat i j hib hjb

theorem eight_rows_of_shape {α : Type} {b : List (List α)} (h : b.map List.length = List.replicate 8 8) :
    b.length = 8 ∧ ∀ r ∈ b, r.length = 8 := by
  obtain ⟨hrows, hcols⟩ := List.eq_replicate_iff.1 h
  exact ⟨(List.length_map _).symm.trans hrows, fun r hr => hcols _ (List.mem_map_of_mem hr)⟩

/-! ## Reading a matrix out in zigzag order and back -/

theorem squareSide_mul_self (n : Nat) : squareSide (n * n) = some n := by
  rw [squareSide, List.find?_range_eq_some]
  refine ⟨by simp, by simpa using Nat.lt_succ_of_le (Nat.le_mul_self n), fun k hk => ?_⟩
  simpa using (Nat.mul_self_lt_mul_self hk).ne

theorem squareSide_eq_none {n : Nat} (h : ∀ k, k * k ≠ n) : squareSide n = none := by
  rw [squareSide, List.find?_range_eq_none]
  simpa using fun k _ => h k

theorem zigzagToBlock_of_square {seq : List Int} {n : Nat} (h : seq.length = n * n) :
    zigzagToBlock seq = .ok ((List.range n).map fun r => (List.range n).map fun c =>
      seq.getD ((zigzagPoints n n).idxOf (r, c)) 0) := by
  rw [zigzagToBlock, h, squareSide_mul_self]

/-- R153: the value at the place of a position in the traversal is the element there. -/
theorem getD_idxOf_map_at {m : Block} {points : List (Nat × Nat)} {p : Nat × Nat} (hp : p ∈ points) :
    (points.map m.at).getD (points.idxOf p) 0 = m.at p := by
  simp [List.getElem?_idxOf hp]

/-- An 8×8 matrix is read out at the positions of `ZZ` (R152, R153). -/
theorem blockToZigzag_of_eight {m : Block} (hrows : m.length = 8) (hcols : ∀ r ∈ m, r.length = 8) :
    blockToZigzag m = (zigzagPoints 8 8).map m.at := by
  have hfirst : (m.getD 0 []).length = 8 := hcols _ (by simp [hrows])
  rw [blockToZigzag, hrows, hfirst]

theorem blockToZigzag_length {m : Block} (hrows : m.length = 8) (hcols : ∀ r ∈ m, r.length = 8) :
    (blockToZigzag m).length = 64 := by
  rw [blockToZigzag_of_eight hrows hcols, zigzagPoints_eight, List.length_map, List.length_map]
  rfl

theorem zigzagToBlock_blockToZigzag {m : Block} (hrows : m.length = 8) (hcols : ∀ r ∈ m, r.length = 8) :
    zigzagToBlock (blockToZigzag m) = .ok m := by
  rw [zigzagToBlock_of_square (n := 8) (blockToZigzag_length hrows hcols), blockToZigzag_of_eight hrows hcols]
  refine congrArg _ (List.ext_getElem (by rw [List.length_map, List.length_range, hrows]) fun r _ hr => ?_)
  have hcol := hcols _ (List.getElem_mem hr)
  rw [List.getElem_map, List.getElem_range]
  refine List.ext_getElem (by rw [List.length_map, List.length_range, hcol]) fun c _ hc => ?_
  have hmem : (r, c) ∈ zigzagPoints 8 8 := mem_zigzagPoints.2 ⟨hrows ▸ hr, hcol ▸ hc⟩
  rw [List.getElem_map, List.getElem_range, getD_idxOf_map_at hmem, Block.at_eq_getElem hr hc]

/-- Settles O59: a position is found again at its place in the traversal. -/
theorem zigzagRoundTrip : Obligations.ZigzagRoundTrip :=
  ⟨fun _ => zigzagToBlock_blockToZigzag, fun seq h => by rw [zigzagToBlock, squareSide_eq_none h]⟩

/-! ## Rounding -/

/-- R155: `round` goes to the integer below or to the one above, and to neither from further than one half. -/
theorem roundQuotient_cases (q : Rat) :
    (roundQuotient q = q.floor ∧ q - q.floor ≤ 1 / 2) ∨ (roundQuotient q = q.floor + 1 ∧ 1 / 2 ≤ q - q.floor) := by
  rw [roundQuotient]
  split_ifs with hbelow habove
  · exact .inl ⟨rfl, hbelow.le⟩
  · exact .inr ⟨rfl, habove.le⟩
  · exact .inr ⟨rfl, not_lt.1 hbelow⟩
  · exact .inl ⟨rfl, not_lt.1 habove⟩

/-- `round` answers a nearest integer, whatever `ROUND_TIES` is (R155). -/
theorem abs_roundQuotient_sub_le (q : Rat) : |(roundQuotient q : Rat) - q| ≤ 1 / 2 := by
  obtain ⟨hround, hdist⟩ | ⟨hround, hdist⟩ := roundQuotient_cases q
  · rwa [hround, abs_sub_comm, abs_of_nonneg (sub_nonneg.2 (Rat.floor_le q))]
  · rw [hround, abs_of_nonneg (sub_nonneg.2 (Rat.lt_floor_add_one q).le)]
    push_cast
    linarith

@[simp] theorem roundQuotient_intCast (n : Int) : roundQuotient n = n := by
  simp [roundQuotient, Rat.floor_intCast]

@[simp] theorem roundQuotient_zero : roundQuotient 0 = 0 := mod_cast roundQuotient_intCast 0

/-- Rounding does not leave a range with integer ends. -/
theorem abs_roundQuotient_le {q : Rat} {n : Int} (h : |q| ≤ n) : |roundQuotient q| ≤ n := by
  have hnear := abs_roundQuotient_sub_le q
  have htriangle := abs_sub_abs_le_abs_sub (roundQuotient q : Rat) q
  have hlt : ((|roundQuotient q| : Int) : Rat) < (n + 1 : Int) := by push_cast; linarith
  exact Int.lt_add_one_iff.1 (mod_cast hlt)

/-- The loss of rounding a quotient and multiplying it back: half the divisor. -/
theorem abs_roundQuotient_mul_sub_le (x : Rat) {t : Rat} (ht : 0 < t) : |roundQuotient (x / t) * t - x| ≤ t / 2 := by
  have hfactor : roundQuotient (x / t) * t - x = (roundQuotient (x / t) - x / t) * t := by
    rw [sub_mul, div_mul_cancel₀ x ht.ne']
  rw [hfactor, abs_mul, abs_of_pos ht, ← one_div_mul_eq_div 2 t]
  exact mul_le_mul_of_nonneg_right (abs_roundQuotient_sub_le (x / t)) ht.le

/-! ## Quantizer -/

/-- R155: for one shape, `round(block / table)` in that shape; 0 outside it. -/
theorem quantize_spec {b : List (List Rat)} {t : Block} (h : b.map List.length = t.map List.length) :
    ∃ q, quantize b t = .ok q ∧ q.map List.length = t.map List.length ∧
      ∀ i j, q.at (i, j) = roundQuotient (elementAt b i j / t.at (i, j)) :=
  ⟨_, quantize_of_sameShape h, shape_zipWith _ h, getD_getD_zipWith h (by simp)⟩

/-- R156: for one shape, the product in that shape. -/
theorem dequantize_spec {q t : Block} (h : q.map List.length = t.map List.length) :
    (dequantize q t).map List.length = t.map List.length ∧ ∀ i j, (dequantize q t).at (i, j) = q.at (i, j) * t.at (i, j) := by
  rw [dequantize_of_sameShape h]
  exact ⟨shape_zipWith _ h, getD_getD_zipWith h (mul_zero 0)⟩

theorem elementAt_map_intCast (b : Block) (i j : Nat) :
    elementAt (List.map (List.map fun x : Int => (x : Rat)) b) i j = b.at (i, j) := by
  have hrow := List.getD_map b [] (n := i) (List.map fun x : Int => (x : Rat))
  have helement := List.getD_map (b.getD i []) 0 (n := j) (fun x : Int => (x : Rat))
  rw [List.map_nil] at hrow
  rw [Int.cast_zero] at helement
  rw [elementAt, hrow, helement, Block.at]

/-- R156: with an all-ones table nothing is lost. -/
theorem dequantize_quantize_of_ones {b t : Block} (h : b.map List.length = t.map List.length)
    (hones : ∀ r ∈ t, ∀ x ∈ r, x = 1) :
    (quantize (List.map (List.map fun x : Int => (x : Rat)) b) t).map (fun q => dequantize q t) = .ok b := by
  have hcast : (List.map (List.map fun x : Int => (x : Rat)) b).map List.length = t.map List.length := by
    simpa [Function.comp_def] using h
  obtain ⟨q, hq, hqshape, hqat⟩ := quantize_spec hcast
  obtain ⟨hdshape, hdat⟩ := dequantize_spec hqshape
  rw [hq]
  refine congrArg _ (Block.ext_at (hdshape.trans h.symm) fun i j hi hj => ?_)
  have hit : i < t.length := length_eq_of_shape h ▸ hi
  have hjt : j < t[i].length := length_getElem_eq h hi hit ▸ hj
  have hone : t.at (i, j) = 1 :=
    Block.at_eq_getElem hit hjt ▸ hones _ (List.getElem_mem hit) _ (List.getElem_mem hjt)
  rw [hdat, hqat, hone, elementAt_map_intCast, Int.cast_one, div_one, roundQuotient_intCast, mul_one]

/-! ## Through the glue and the port -/

/-- R153: `seq[k] = block[ZZ_row(k)][ZZ_col(k)]`. -/
theorem blockToZigzag_getD {m : Block} (hrows : m.length = 8) (hcols : ∀ r ∈ m, r.length = 8) (k : Fin 64) :
    (blockToZigzag m).getD k 0 = m.at (zz.getD k 0 / 8, zz.getD k 0 % 8) := by
  have hk : k < zz.length := k.isLt
  rw [blockToZigzag_of_eight hrows hcols, zigzagPoints_eight]
  simp [hk]

theorem zigzagOfPair_getD (p : Pair) (k : Fin 64) : (zigzagOfPair p).getD k 0 = p[k].toInt := by
  simp [zigzagOfPair]

/-! An 8×8 matrix whose elements lie in the port's range. -/

section Port

variable {m : Block} (hshape : m.map List.length = List.replicate 8 8) (hrange : ∀ i j : Fin 8, |m.at (i, j)| ≤ 32767)

include hshape hrange

theorem mem_blockToZigzag_bounds {x : Int} (hx : x ∈ blockToZigzag m) : -32767 ≤ x ∧ x ≤ 32767 := by
  obtain ⟨hrows, hcols⟩ := eight_rows_of_shape hshape
  rw [blockToZigzag_of_eight hrows hcols] at hx
  obtain ⟨⟨r, c⟩, hmem, rfl⟩ := List.mem_map.1 hx
  obtain ⟨hr, hc⟩ := mem_zigzagPoints.1 hmem
  exact abs_le.1 (hrange ⟨r, hr⟩ ⟨c, hc⟩)

/-- The port gives back what was written to it (R22, R150). -/
theorem zigzagOfPair_of_eight : zigzagOfPair (pairOfZigzag (blockToZigzag m)) = blockToZigzag m := by
  obtain ⟨hrows, hcols⟩ := eight_rows_of_shape hshape
  exact zigzagOfPair_pairOfZigzag (blockToZigzag_length hrows hcols) fun _ => mem_blockToZigzag_bounds hshape hrange

/-- `CO[k]` holds the element at zigzag position `k`, which is one the format can hold (R150, R264). -/
theorem pairOfZigzag_blockToZigzag_toInt (k : Fin 64) :
    (pairOfZigzag (blockToZigzag m))[k].toInt ≠ -32768 ∧
      (pairOfZigzag (blockToZigzag m))[k].toInt = m.at (zz.getD k 0 / 8, zz.getD k 0 % 8) := by
  obtain ⟨hrows, hcols⟩ := eight_rows_of_shape hshape
  have hk : k < (blockToZigzag m).length := by simp [blockToZigzag_length hrows hcols]
  have hmem : (blockToZigzag m).getD k 0 ∈ blockToZigzag m := by simp [hk]
  have hbounds := mem_blockToZigzag_bounds hshape hrange hmem
  rw [← zigzagOfPair_getD, zigzagOfPair_of_eight hshape hrange, ← blockToZigzag_getD hrows hcols]
  exact ⟨by omega, rfl⟩

theorem decodeGlue_of_eight (ch : BitVec 2) :
    decodeGlue ch (pairOfZigzag (blockToZigzag m)) = .ok (dequantize m (quantTable ch)) := by
  obtain ⟨hrows, hcols⟩ := eight_rows_of_shape hshape
  rw [decodeGlue, zigzagOfPair_of_eight hshape hrange, zigzagToBlock_blockToZigzag hrows hcols]
  rfl

end Port

theorem quantTable_at_cast_pos (ch : BitVec 2) (i j : Fin 8) : (0 : Rat) < (quantTable ch).at (i, j) :=
  mod_cast quantTable_at_pos ch i j

/-- The encode glue puts the rounded quotients of an 8×8 block into the pair, and they stay in the range of the quotients
(R150, R155). -/
theorem encodeGlue_spec {ch : BitVec 2} {b : List (List Rat)} (hshape : b.map List.length = List.replicate 8 8)
    (hrange : ∀ i j : Fin 8, |elementAt b i j| ≤ 32767 * (quantTable ch).at (i, j)) :
    ∃ q : Block, encodeGlue ch b = .ok (pairOfZigzag (blockToZigzag q)) ∧
      q.map List.length = (quantTable ch).map List.length ∧
      (∀ i j, q.at (i, j) = roundQuotient (elementAt b i j / (quantTable ch).at (i, j))) ∧
      ∀ i j : Fin 8, |q.at (i, j)| ≤ 32767 := by
  obtain ⟨q, hq, hqshape, hqat⟩ := quantize_spec (hshape.trans (quantTable_shape ch).symm)
  refine ⟨q, by rw [encodeGlue, hq]; rfl, hqshape, hqat, fun i j => ?_⟩
  have hpos := quantTable_at_cast_pos ch i j
  rw [hqat]
  refine abs_roundQuotient_le ?_
  rw [abs_div, abs_of_pos hpos, div_le_iff₀ hpos, Int.cast_ofNat]
  exact hrange i j

/-- Settles O60: clause by clause; on the way through the port every rounded quotient stays in its range, so the decode glue
multiplies back exactly what the encode glue rounded, and the loss is that of the rounding. -/
theorem quantizerIsNearest : Obligations.QuantizerIsNearest := by
  refine ⟨abs_roundQuotient_sub_le, fun _ _ => quantize_of_mismatch, fun _ _ h _ => quantize_spec h,
    fun _ _ => dequantize_spec, fun _ _ => dequantize_quantize_of_ones,
    fun ch => ⟨quantTable_shape ch, fun i j => ⟨quantTable_at_pos ch i j, quantTable_at ch i j⟩⟩, ?_⟩
  intro ch b hshape hrange
  obtain ⟨q, hencode, hqshape, hqat, hqrange⟩ := encodeGlue_spec hshape hrange
  obtain ⟨hdshape, hdat⟩ := dequantize_spec hqshape
  rw [quantTable_shape] at hqshape hdshape
  refine ⟨_, _, hencode, decodeGlue_of_eight hqshape hqrange ch, hdshape, fun k => ?_, fun i j => ?_⟩
  · rw [← hqat]
    exact pairOfZigzag_blockToZigzag_toInt hqshape hqrange k
  · rw [hdat, hqat, Int.cast_mul]
    apply abs_roundQuotient_mul_sub_le
    exact quantTable_at_cast_pos ch i j

end Sys2Proof.Machine
end

section
/-! Proofs about the run-length coder (`spec/42_runlength.md` section 1, R170 to R180). -/

namespace Sys2Proof

/-! ## The scan as a relation -/

/-- The end-of-block item (R174). -/
abbrev RunItem.eob : RunItem := ⟨0, 0, []⟩

/-- The item of sixteen zeros (R173). -/
abbrev RunItem.zrl : RunItem := ⟨15, 0, []⟩

/-- The item of the element `a` after `run` zeros (R172). -/
abbrev RunItem.ofValue (run : Nat) (a : Int) : RunItem := ⟨run, bitsRequired a, ibits a⟩

/-- The items the scan of R172 emits for the elements that are left, `run` zeros being counted: nothing at the end, one end of
block where only zeros are left; before a later nonzero element a zero is counted, or emitted at the cap. -/
inductive RunScan : Nat → List Int → List RunItem → Prop
  | done : RunScan 0 [] []
  | zeros (n : Nat) : RunScan 0 (List.replicate (n + 1) 0) [.eob]
  | absorb {run : Nat} {as : List Int} {its : List RunItem} (hrun : run < 15) (hlater : ∃ a ∈ as, a ≠ 0)
      (hscan : RunScan (run + 1) as its) : RunScan run (0 :: as) its
  | cap {as : List Int} {its : List RunItem} (hlater : ∃ a ∈ as, a ≠ 0) (hscan : RunScan 0 as its) :
      RunScan 15 (0 :: as) (.zrl :: its)
  | value {run : Nat} {a : Int} {as : List Int} {its : List RunItem} (hrun : run ≤ 15) (ha : a ≠ 0)
      (hscan : RunScan 0 as its) : RunScan run (a :: as) (.ofValue run a :: its)

theorem nonzeroEnd_eq_zero_iff {as : List Int} : nonzeroEnd as = 0 ↔ ∀ a ∈ as, a = 0 := by
  induction as with
  | nil => simp [nonzeroEnd]
  | cons a as ih =>
    rw [nonzeroEnd, List.forall_mem_cons, ← ih]
    by_cases hrest : nonzeroEnd as = 0 <;> simp [hrest]

theorem nonzeroEnd_ne_zero_iff {as : List Int} : nonzeroEnd as ≠ 0 ↔ ∃ a ∈ as, a ≠ 0 := by
  simp [nonzeroEnd_eq_zero_iff]

/-- The index of the last nonzero element moves with the head (R171). -/
theorem nonzeroEnd_cons_of_ne_zero {a : Int} {as : List Int} (h : nonzeroEnd (a :: as) ≠ 0) :
    nonzeroEnd (a :: as) = nonzeroEnd as + 1 := by
  rw [nonzeroEnd] at h ⊢
  split_ifs at h ⊢ <;> simp_all

/-- R174: past the last nonzero element the scan emits the end of block and stops. -/
theorem rleScan_at_stop (i run : Nat) (a : Int) (as : List Int) : rleScan i i run (a :: as) = [.eob] := by
  simp [rleScan]

/-- The scan arrives at the end of block, or at the end, with no zero counted (R174). -/
theorem runScan_rleScan (i : Nat) {run : Nat} {as : List Int} (hrun : run ≤ 15) (hpending : nonzeroEnd as = 0 → run = 0) :
    RunScan run as (rleScan (i + nonzeroEnd as) i run as) := by
  induction as generalizing i run with
  | nil =>
    obtain rfl := hpending rfl
    exact .done
  | cons a as ih =>
    by_cases hend : nonzeroEnd (a :: as) = 0
    · obtain rfl := hpending hend
      have hzeros : a :: as = List.replicate (as.length + 1) 0 :=
        List.eq_replicate_iff.2 ⟨rfl, nonzeroEnd_eq_zero_iff.1 hend⟩
      rw [hend, Nat.add_zero, rleScan_at_stop, hzeros]
      exact .zeros as.length
    · have hstop : i + nonzeroEnd (a :: as) = i + 1 + nonzeroEnd as := by
        rw [nonzeroEnd_cons_of_ne_zero hend]; omega
      rw [hstop, rleScan, if_neg (by omega)]
      have hrest : RunScan 0 as (rleScan (i + 1 + nonzeroEnd as) (i + 1) 0 as) := ih (i + 1) (by omega) fun _ => rfl
      by_cases ha : a = 0
      · subst ha
        have hlater : nonzeroEnd as ≠ 0 := by simpa [nonzeroEnd_eq_zero_iff] using hend
        by_cases hcap : run < 15
        · rw [if_pos ⟨rfl, hcap⟩]
          exact .absorb hcap (nonzeroEnd_ne_zero_iff.1 hlater) (ih (i + 1) (by omega) fun h => absurd h hlater)
        · obtain rfl : run = 15 := by omega
          rw [if_neg (by omega)]
          exact .cap (nonzeroEnd_ne_zero_iff.1 hlater) hrest
      · rw [if_neg fun h => ha h.1]
        exact .value hrun ha hrest

theorem runScan_rle (S : List Int) : RunScan 0 S (rle S) := by
  simpa [rle] using runScan_rleScan 0 (as := S) (by omega) fun _ => rfl

theorem rle_replicate_zero (n : Nat) : rle (List.replicate (n + 1) 0) = [.eob] := by
  have hend : nonzeroEnd (List.replicate (n + 1) 0) = 0 := nonzeroEnd_eq_zero_iff.2 fun _ => List.eq_of_mem_replicate
  rw [rle, hend]
  exact rleScan_at_stop ..

/-! ## Decoding -/

/-- R177: an item other than end of block that does not pass slot 62. -/
theorem rldFrom_cons {k run size : Nat} {val : Bits} (its : List RunItem) (hitem : ¬(run = 0 ∧ size = 0))
    (hfits : k + run + 1 ≤ 63) :
    rldFrom k (⟨run, size, val⟩ :: its) =
      (rldFrom (k + run + 1) its).map (List.replicate run 0 ++ readInt val :: ·) := by
  rw [rldFrom, if_neg (by rw [nac]; omega), if_neg hitem, if_neg (by rw [nac]; exact hfits.not_gt)]

theorem rldFrom_eob {k : Nat} (hk : k < 63) : rldFrom k [.eob] = some (List.replicate (63 - k) 0) := by
  simp [rldFrom, nac, hk.not_ge]

theorem bitsRequired_ne_zero {a : Int} (ha : a ≠ 0) : bitsRequired a ≠ 0 := by
  simp [bitsRequired, ha]

/-- Decoding from slot `k` gives the zeros counted so far and the elements that are left. -/
theorem RunScan.rldFrom_eq {run k : Nat} {as : List Int} {its : List RunItem} (h : RunScan run as its)
    (hk : k + run + as.length = 63) : rldFrom k its = some (List.replicate run 0 ++ as) := by
  induction h generalizing k with
  | done =>
    obtain rfl : k = 63 := hk
    rfl
  | zeros n =>
    rw [List.length_replicate] at hk
    obtain rfl : k = 62 - n := by omega
    have hleft : 63 - (62 - n) = n + 1 := by omega
    rw [rldFrom_eob (by omega), hleft]
    rfl
  | absorb _ _ _ ih =>
    rw [List.length_cons] at hk
    rw [ih (by omega), List.replicate_succ', List.append_assoc, List.singleton_append]
  | cap _ _ ih =>
    rw [List.length_cons] at hk
    rw [rldFrom_cons _ (by omega) (by omega), ih (by omega)]
    rfl
  | value _ ha _ ih =>
    rw [List.length_cons] at hk
    rw [rldFrom_cons _ (by simp [bitsRequired_ne_zero ha]) (by omega), ih (by omega), readInt_ibits]
    rfl

/-- Settles O5: by induction on the scan, every item gives back the elements it was emitted for. -/
theorem runLengthRoundTrip : Obligations.RunLengthRoundTrip :=
  ⟨fun S hS => (runScan_rle S).rldFrom_eq (k := 0) (by rw [hS]), rle_replicate_zero 62⟩

/-! ## The shape of the items -/

section Shape

variable {run : Nat} {as : List Int} {its : List RunItem}

/-- R175 (c), (d): the three kinds of items. -/
theorem RunScan.item_cases (h : RunScan run as its) {it : RunItem} (hit : it ∈ its) :
    it = .eob ∨ it = .zrl ∨ ∃ r a, r ≤ 15 ∧ a ∈ as ∧ a ≠ 0 ∧ it = .ofValue r a := by
  have hwiden {a : Int} {as : List Int} :
      (it = .eob ∨ it = .zrl ∨ ∃ r x, r ≤ 15 ∧ x ∈ as ∧ x ≠ 0 ∧ it = .ofValue r x) →
      (it = .eob ∨ it = .zrl ∨ ∃ r x, r ≤ 15 ∧ x ∈ a :: as ∧ x ≠ 0 ∧ it = .ofValue r x) :=
    .imp_right (.imp_right fun ⟨r, x, hr, hx, h⟩ => ⟨r, x, hr, List.mem_cons_of_mem _ hx, h⟩)
  induction h with
  | done => cases hit
  | zeros n => exact .inl (List.mem_singleton.1 hit)
  | absorb _ _ _ ih => exact hwiden (ih hit)
  | cap _ _ ih =>
    obtain rfl | hit := List.mem_cons.1 hit
    · exact .inr (.inl rfl)
    · exact hwiden (ih hit)
  | value hrun ha _ ih =>
    obtain rfl | hit := List.mem_cons.1 hit
    · exact .inr (.inr ⟨_, _, hrun, List.mem_cons_self, ha, rfl⟩)
    · exact hwiden (ih hit)

/-- R175 (e): a nonzero element left is emitted. -/
theorem RunScan.exists_value (h : RunScan run as its) (hleft : ∃ a ∈ as, a ≠ 0) : ∃ it ∈ its, 1 ≤ it.size := by
  induction h with
  | done => simp at hleft
  | zeros n => simp at hleft
  | absorb _ hlater _ ih => exact ih hlater
  | cap hlater _ ih =>
    obtain ⟨it, hit, hsize⟩ := ih hlater
    exact ⟨it, List.mem_cons_of_mem _ hit, hsize⟩
  | value _ ha _ _ => exact ⟨_, List.mem_cons_self, Nat.pos_of_ne_zero (bitsRequired_ne_zero ha)⟩

/-- R175 (b), (e): nothing follows the end of block, and after sixteen zeros a value follows. -/
theorem RunScan.after_item (h : RunScan run as its) {it : RunItem} {back : List RunItem} (hback : it :: back <:+ its) :
    (it = .eob → back = []) ∧ (it = .zrl → ∃ x ∈ back, 1 ≤ x.size) := by
  induction h with
  | done => simp at hback
  | zeros n => simp_all [List.suffix_cons_iff]
  | absorb _ _ _ ih => exact ih hback
  | cap hlater hscan ih =>
    obtain heq | hback := List.suffix_cons_iff.1 hback
    · obtain ⟨rfl, rfl⟩ := List.cons.inj heq
      exact ⟨by simp, fun _ => hscan.exists_value hlater⟩
    · exact ih hback
  | value _ ha _ ih =>
    obtain heq | hback := List.suffix_cons_iff.1 hback
    · obtain ⟨rfl, rfl⟩ := List.cons.inj heq
      simp [bitsRequired_ne_zero ha]
    · exact ih hback

/-- An element in front does not change that the last one is 0, if it is not a last 0 itself. -/
theorem getLast?_cons_eq_zero_iff {a : Int} (h : a = 0 → as ≠ []) :
    (a :: as).getLast? = some 0 ↔ as.getLast? = some 0 := by
  cases as with
  | nil => simpa using h
  | cons b bs => rw [List.getLast?_cons_cons]

/-- R175 (b): the end of block is there exactly when the last element is 0. -/
theorem RunScan.eob_mem_iff (h : RunScan run as its) : .eob ∈ its ↔ as.getLast? = some 0 := by
  induction h with
  | done => simp
  | zeros n => simp [List.getLast?_replicate]
  | absorb _ hlater _ ih =>
    obtain ⟨a, ha, _⟩ := hlater
    rw [getLast?_cons_eq_zero_iff fun _ => List.ne_nil_of_mem ha, ih]
  | cap hlater _ ih =>
    obtain ⟨a, ha, _⟩ := hlater
    rw [getLast?_cons_eq_zero_iff fun _ => List.ne_nil_of_mem ha, ← ih]
    simp
  | value _ ha _ ih =>
    rw [getLast?_cons_eq_zero_iff fun h => absurd h ha, ← ih]
    simp [(bitsRequired_ne_zero ha).symm]

/-- The elements that the items cover, `run + 1` each; the end of block counts as one (R175 (f)). -/
def covered (its : List RunItem) : Nat := (its.map fun it => it.run + 1).sum

theorem covered_cons (r size : Nat) (val : Bits) (its : List RunItem) :
    covered (⟨r, size, val⟩ :: its) = r + 1 + covered its := rfl

/-- R175 (f): the items cover the zeros counted and all elements left, the end of block at least one. -/
def Covers (its : List RunItem) (n : Nat) : Prop := covered its ≤ n ∧ (.eob ∉ its → covered its = n)

theorem Covers.cons {n : Nat} (h : Covers its (0 + n)) (r size : Nat) (val : Bits) :
    Covers (⟨r, size, val⟩ :: its) (r + (n + 1)) := by
  obtain ⟨hle, heq⟩ := h
  rw [Covers, covered_cons]
  refine ⟨by omega, fun hmem => ?_⟩
  rw [heq fun h => hmem (List.mem_cons_of_mem _ h)]
  omega

theorem RunScan.covers (h : RunScan run as its) : Covers its (run + as.length) := by
  induction h with
  | done => exact ⟨le_rfl, fun _ => rfl⟩
  | zeros n => exact ⟨by simp [covered], by simp⟩
  | absorb _ _ _ ih => rwa [List.length_cons, Nat.add_left_comm, Nat.add_comm]
  | cap _ _ ih => exact ih.cons ..
  | value _ _ _ ih => exact ih.cons ..

theorem RunScan.item_of_size_zero (h : RunScan run as its) {it : RunItem} (hit : it ∈ its) (hsize : it.size = 0) :
    it = .eob ∨ it = .zrl := by
  obtain rfl | rfl | ⟨r, a, _, _, ha, rfl⟩ := h.item_cases hit
  · exact .inl rfl
  · exact .inr rfl
  · exact absurd hsize (bitsRequired_ne_zero ha)

/-- R175 (a). -/
theorem Covers.length_bounds {n : Nat} (h : Covers its n) (hn : 1 ≤ n) : 1 ≤ its.length ∧ its.length ≤ n := by
  obtain ⟨hle, heq⟩ := h
  constructor
  · cases its with
    | nil => exact absurd (heq List.not_mem_nil) (Nat.ne_of_lt hn)
    | cons it its => exact Nat.succ_pos _
  · have hone := List.length_le_sum_of_one_le (its.map fun it => it.run + 1) (by simp)
    rw [List.length_map] at hone
    exact hone.trans hle

/-- R175 (b). -/
theorem RunScan.ne_eob_of_mem_dropLast (h : RunScan run as its) {it : RunItem} (hit : it ∈ its.dropLast) : it ≠ .eob := by
  rintro rfl
  obtain ⟨front, back, hsplit⟩ := List.append_of_mem hit
  have hne : its ≠ [] := List.ne_nil_of_mem (List.mem_of_mem_dropLast hit)
  have hsuffix : .eob :: (back ++ [its.getLast hne]) <:+ its :=
    ⟨front, by rw [← List.cons_append, ← List.append_assoc, ← hsplit, List.dropLast_append_getLast]⟩
  simpa using (h.after_item hsuffix).1 rfl

/-- R175 (f): with an end of block the other items do not cover all elements. -/
theorem RunScan.covered_dropLast_lt (h : RunScan run as its) (heob : .eob ∈ its) :
    covered its.dropLast < run + as.length := by
  obtain ⟨front, back, rfl⟩ := List.append_of_mem heob
  obtain rfl : back = [] := (h.after_item (List.suffix_append front _)).1 rfl
  have hle := h.covers.1
  rw [covered, List.map_append, List.sum_append] at hle
  rw [List.dropLast_concat]
  exact hle

/-- R175 (c): the last item is not the one of sixteen zeros. -/
theorem RunScan.run_of_getLast? (h : RunScan run as its) {it : RunItem} (hlast : its.getLast? = some it)
    (hsize : it.size = 0) : it.run = 0 := by
  obtain ⟨front, rfl⟩ := List.getLast?_eq_some_iff.1 hlast
  obtain rfl | rfl := h.item_of_size_zero (by simp) hsize
  · rfl
  · simpa using (h.after_item (List.suffix_append front _)).2 rfl

end Shape

/-- Settles O6: clause by clause from the kinds of the items, what may follow an item, and the elements covered. -/
theorem runLengthShape : Obligations.RunLengthShape := by
  intro S hS
  have hscan := runScan_rle S
  have hcovers : Covers (rle S) 63 := by simpa [hS] using hscan.covers
  refine ⟨hcovers.length_bounds (by omega), fun it hit hzero => ?_, hscan.eob_mem_iff, fun it hit => ?_,
    fun it hit hsize => ?_, fun it => hscan.run_of_getLast?, fun front it back hsplit hrun hsize => ?_,
    fun hlast => hcovers.2 (mt hscan.eob_mem_iff.1 hlast), fun hlast => ?_⟩
  · obtain ⟨hrun, hsize⟩ := hzero
    obtain rfl | rfl := hscan.item_of_size_zero (List.mem_of_mem_dropLast hit) hsize
    · exact hscan.ne_eob_of_mem_dropLast hit rfl
    · cases hrun
  · obtain rfl | rfl | ⟨r, a, hr, _, ha, rfl⟩ := hscan.item_cases hit
    · simp
    · simp
    · exact ⟨hr, ibits_length a, fun h => absurd h (bitsRequired_ne_zero ha)⟩
  · obtain rfl | rfl | ⟨r, a, _, ha, hne, rfl⟩ := hscan.item_cases hit
    · cases hsize
    · cases hsize
    · exact ⟨a, ha, hne, rfl, rfl⟩
  · have hsuffix : it :: back <:+ rle S := ⟨front, hsplit.symm⟩
    obtain rfl | rfl := hscan.item_of_size_zero (hsuffix.mem List.mem_cons_self) hsize
    · cases hrun
    · exact (hscan.after_item hsuffix).2 rfl
  · have hlt := hscan.covered_dropLast_lt (hscan.eob_mem_iff.2 hlast)
    rwa [hS] at hlt

end Sys2Proof
end

section
/-! Reading an AC symbol (`spec/42_runlength.md` section 2, R177 to R179). -/

namespace Sys2Proof.Machine

/-! ## The coefficient registers -/

theorem zeroCo_getElem (co : Pair) (i n : Nat) {j : Nat} (hj : j < 64) :
    (zeroCo co i n)[j] = if i ≤ j ∧ j < i + n then 0 else co[j] := by
  induction n generalizing co i with
  | zero => rw [zeroCo, if_neg (by omega)]
  | succ n ih =>
    rw [zeroCo, ih, Vector.getElem_setIfInBounds]
    by_cases hi : i = j
    · simp [hi]
    · have hrange : (i + 1 ≤ j ∧ j < i + 1 + n) ↔ (i ≤ j ∧ j < i + (n + 1)) := by omega
      rw [if_neg hi, if_congr hrange rfl rfl]

theorem putRun_getElem (co : Pair) (k run : Nat) (v : Int) {j : Nat} (hj : j < 64) :
    (putRun co k run v)[j] =
      if k + 1 ≤ j ∧ j < k + run + 1 then 0 else if j = k + run + 1 then BitVec.ofInt 16 v else co[j] := by
  rw [putRun, Vector.getElem_setIfInBounds, zeroCo_getElem, Nat.add_right_comm k 1 run]
  by_cases hlast : k + run + 1 = j
  · simp [hlast]
  · rw [if_neg hlast, if_neg (Ne.symm hlast)]

/-! ## The symbols -/

theorem overruns_iff {k sym : Nat} (hsym : sym ≠ 0) : overruns k sym = true ↔ 63 < k + sym / 16 + 1 := by
  simp [overruns, hsym, nac, symRun]

theorem afterSlot_eq {ch : BitVec 2} {k : Nat} (hk : k ≤ 63) :
    afterSlot ch k = if k = 63 then .rest else .reading (.acSymbol ch k) := by
  have hnext : k < 63 ↔ ¬k = 63 := by omega
  rw [afterSlot, nac, if_congr hnext rfl rfl, ite_not]

section AcSymbol

variable {s : State} {ch : BitVec 2} {k : Nat} {e : Entry} {h v : Bits}
  (hf : s.framer = .reading (.acSymbol ch k)) (he : entryWith (s.dtab.get (acClass ch)) h = some e)
include hf he

theorem exec_acsym_eob (hsym : e.sym = 0) :
    exec (.acsym h []) s = .next { take (.acsym h []) .rest s with co := zeroCo s.co (k + 1) (63 - k) } := by
  simp [exec, execAcsym, element, hf, he, hsym, nac]

theorem exec_acsym_overrun (hsym : e.sym ≠ 0) (hover : 63 < k + e.sym / 16 + 1) :
    exec (.acsym h v) s = .next (raise .eAcOverrun s) := by
  simp [exec, execAcsym, element, hf, he, hsym, (overruns_iff hsym).2 hover]

theorem exec_acsym_value (hsym : e.sym ≠ 0) (hfits : k + e.sym / 16 + 1 ≤ 63) (hv : v.length = e.sym % 16) :
    exec (.acsym h v) s = .next { take (.acsym h v) (afterSlot ch (k + e.sym / 16 + 1)) s with
      co := putRun s.co k (e.sym / 16) (readInt v) } := by
  have hover : overruns k e.sym = false := Bool.eq_false_iff.2 fun h => hfits.not_gt ((overruns_iff hsym).1 h)
  simp [exec, execAcsym, element, hf, he, hsym, hover, hv, symSize, symRun]

end AcSymbol

/-- Settles O36: clause by clause, one equation of the reader for each. -/
theorem readerTakesAcSymbol : Obligations.ReaderTakesAcSymbol := by
  intro s ch k e v hf hk he _
  have he : entryWith (s.dtab.get (acClass ch)) e.code = some e := he
  have hlength : (encode (.acsym e.code v)).length = e.code.length + v.length := Laws.EncodingLength.acsym e.code v
  refine ⟨fun hsym hv => ⟨zeroCo s.co (k + 1) (63 - k), ?_, fun j => ?_⟩,
    fun hsym hover => ⟨_, exec_acsym_overrun hf he hsym hover, rfl, rfl⟩,
    fun hsym hfits hv => ⟨putRun s.co k (e.sym / 16) (readInt v), ?_, fun j => putRun_getElem _ _ _ _ j.isLt⟩⟩
  · subst hv
    rw [exec_acsym_eob hf he hsym, take, skipBits, hlength]
    rfl
  · have hzero : (k + 1 ≤ j.val ∧ j.val < k + 1 + (63 - k)) ↔ k + 1 ≤ j.val := by omega
    exact (zeroCo_getElem s.co _ _ j.isLt).trans (if_congr hzero rfl rfl)
  · rw [exec_acsym_value hf he hsym hfits hv, take, skipBits, hlength, afterSlot_eq hfits]

end Sys2Proof.Machine
end

section
/-! The frequency tables (`spec/43_huffman.md` section 1, R190). -/

namespace Sys2Proof

open Sys2Proof.Claims

@[simp] theorem PerClass.get_of {α : Type} (f : SymClass → α) (c : SymClass) : (PerClass.of f).get c = f c := by
  cases c <;> rfl

/-! ## A table of counts -/

/-- The table of a function on the given symbols, without the zeros (R33). -/
def nonzeroEntries (f : Nat → Nat) (keys : List Nat) : FreqTable :=
  keys.filterMap fun s => if 0 < f s then some (s, f s) else none

theorem countSymbols_eq (syms : List Nat) : countSymbols syms = nonzeroEntries syms.count (List.range 256) := rfl

section NonzeroEntries

variable {f : Nat → Nat} {k : Nat} (keys : List Nat)

theorem nonzeroEntries_cons_of_zero (h : f k = 0) : nonzeroEntries f (k :: keys) = nonzeroEntries f keys := by
  simp [nonzeroEntries, h]

theorem nonzeroEntries_cons_of_pos (h : 0 < f k) :
    nonzeroEntries f (k :: keys) = (k, f k) :: nonzeroEntries f keys := by
  simp [nonzeroEntries, h]

theorem FreqTable.at_cons (t : FreqTable) (k w s : Nat) : FreqTable.at ((k, w) :: t) s = if s = k then w else t.at s := by
  by_cases h : s = k
  · simp [FreqTable.at, h]
  · simp [FreqTable.at, h, List.lookup_cons, beq_eq_false_iff_ne.2 h]

theorem nonzeroEntries_at (f : Nat → Nat) (s : Nat) :
    (nonzeroEntries f keys).at s = if s ∈ keys then f s else 0 := by
  induction keys with
  | nil => rfl
  | cons k keys ih =>
    rcases Nat.eq_zero_or_pos (f k) with h | h
    · rw [nonzeroEntries_cons_of_zero _ h, ih]
      by_cases hs : s = k <;> simp [hs, h]
    · rw [nonzeroEntries_cons_of_pos _ h, FreqTable.at_cons, ih]
      by_cases hs : s = k <;> simp [hs]

theorem sum_nonzeroEntries (f : Nat → Nat) : ((nonzeroEntries f keys).map Prod.snd).sum = (keys.map f).sum := by
  induction keys with
  | nil => rfl
  | cons k keys ih =>
    rcases Nat.eq_zero_or_pos (f k) with h | h
    · simp [nonzeroEntries_cons_of_zero _ h, ih, h]
    · simp [nonzeroEntries_cons_of_pos _ h, ih]

end NonzeroEntries

theorem countSymbols_at (syms : List Nat) {s : Nat} (hs : s < 256) : (countSymbols syms).at s = syms.count s :=
  (nonzeroEntries_at _ _ s).trans (if_pos (List.mem_range.2 hs))

theorem sum_count_range {syms : List Nat} {n : Nat} (h : ∀ s ∈ syms, s < n) :
    ((List.range n).map syms.count).sum = syms.length := by
  rw [← List.sum_toFinset _ List.nodup_range, List.toFinset_range]
  simpa using Multiset.sum_count_eq_card (m := (syms : Multiset Nat)) fun s hs => Finset.mem_range.2 (h s hs)

/-- The counts of a table add up to the number of symbols counted. -/
theorem sum_countSymbols {syms : List Nat} (h : ∀ s ∈ syms, s < 256) :
    ((countSymbols syms).map Prod.snd).sum = syms.length := by
  rw [countSymbols_eq, sum_nonzeroEntries, sum_count_range h]

/-! ## The symbols of the pairs -/

theorem channel_eq_zero_iff (i : Nat) : BitVec.ofNat 2 (i % 3) = 0 ↔ i % 3 = 0 := by
  have hlt : i % 3 < 4 := by omega
  rw [← BitVec.toNat_inj, BitVec.toNat_ofNat, Nat.mod_eq_of_lt hlt]
  rfl

theorem dcClass_channel (i : Nat) : dcClass (BitVec.ofNat 2 (i % 3)) = if i % 3 = 0 then .dcLuma else .dcChroma :=
  if_congr (channel_eq_zero_iff i) rfl rfl

theorem acClass_channel (i : Nat) : acClass (BitVec.ofNat 2 (i % 3)) = if i % 3 = 0 then .acLuma else .acChroma :=
  if_congr (channel_eq_zero_iff i) rfl rfl

theorem pairSymbols_eq_symbolsOf (c : SymClass) (i : Nat) (p : Pair) : pairSymbols c i p = symbolsOf c i p := by
  rw [pairSymbols, symbolsOf]
  simp only [dcClass_channel, acClass_channel]
  split_ifs <;> simp_all [Pair.dc, Pair.ac, symIndex]

theorem count_classSymbols (c : SymClass) (i : Nat) (ps : List Pair) (s : Nat) :
    (classSymbols c i ps).count s = ((ps.zipIdx i).map fun x => (symbolsOf c x.2 x.1).count s).sum := by
  induction ps generalizing i with
  | nil => rfl
  | cons p ps ih => simp [classSymbols, pairSymbols_eq_symbolsOf, ih]

theorem bitsRequired_coef_le (a : Coef) : bitsRequired a.toInt ≤ 16 := by
  have hlow := a.le_toInt
  have hhigh := a.toInt_lt
  rw [bitsRequired_le_iff]
  omega

theorem symbolsOf_dc {c : SymClass} (hc : c.isDc = true) (i : Nat) (p : Pair) :
    symbolsOf c i p = if c = (if i % 3 = 0 then .dcLuma else .dcChroma) then [bitsRequired p[0].toInt] else [] := by
  have hac : c ≠ if i % 3 = 0 then .acLuma else .acChroma := by
    rintro rfl
    split at hc <;> cases hc
  rw [symbolsOf, if_neg hac, List.append_nil]

/-- A DC symbol is a category of a 16-bit value. -/
theorem lt_of_mem_classSymbols_dc {c : SymClass} (hc : c.isDc = true) {i : Nat} {ps : List Pair} {s : Nat}
    (h : s ∈ classSymbols c i ps) : s < 256 := by
  induction ps generalizing i with
  | nil => simp [classSymbols] at h
  | cons p ps ih =>
    rcases List.mem_append.1 h with h | h
    · rw [pairSymbols_eq_symbolsOf, symbolsOf_dc hc, List.mem_ite_nil_right, List.mem_singleton] at h
      have := bitsRequired_coef_le p[0]
      omega
    · exact ih h

/-- Every pair adds one symbol to the DC class of its channel: of three pairs, one to luma and two to chroma. -/
theorem length_classSymbols_dc {i : Nat} (hi : i % 3 = 0) {n : Nat} {ps : List Pair} (h : ps.length = 3 * n) :
    (classSymbols .dcLuma i ps).length = n ∧ (classSymbols .dcChroma i ps).length = 2 * n := by
  induction n generalizing i ps with
  | zero => simp_all [classSymbols]
  | succ n ih =>
    match ps with
    | a :: b :: c :: ps =>
      obtain ⟨hluma, hchroma⟩ := ih (i := i + 1 + 1 + 1) (by omega) (ps := ps) (by simp at h; omega)
      have h1 : (i + 1) % 3 = 1 := by omega
      have h2 : (i + 1 + 1) % 3 = 2 := by omega
      simp [classSymbols, pairSymbols_eq_symbolsOf, symbolsOf_dc (c := .dcLuma) rfl,
        symbolsOf_dc (c := .dcChroma) rfl, hi, h1, h2, hluma, hchroma]
      omega

/-- Settles O7: the table counts the symbols of its class, and each pair adds one to one DC class. -/
theorem frequenciesCountSymbols : Obligations.FrequenciesCountSymbols := by
  refine ⟨fun ps c s hs => ?_, fun ps n hlen => ?_⟩
  · rw [frequencies, PerClass.get_of, countSymbols_at _ hs, count_classSymbols]
  · obtain ⟨hluma, hchroma⟩ := length_classSymbols_dc (i := 0) rfl hlen
    have htotal : ∀ c : SymClass, c.isDc = true →
        ((countSymbols (classSymbols c 0 ps)).map Prod.snd).sum = (classSymbols c 0 ps).length := fun c hc =>
      sum_countSymbols fun s => lt_of_mem_classSymbols_dc hc
    exact ⟨(htotal .dcLuma rfl).trans hluma, (htotal .dcChroma rfl).trans hchroma⟩

end Sys2Proof
end

section
/-! The construction of the Huffman code (`spec/43_huffman.md` section 2, R191 to R197). -/

namespace Sys2Proof

open Sys2Proof.Claims

/-! ## The leaves of a tree and their paths -/

/-- The symbols of the leaves, from left to right. -/
def HuffTree.symbols : HuffTree → List Nat
  | .leaf s => [s]
  | .node l r => l.symbols ++ r.symbols

theorem HuffTree.map_fst_codes (tree : HuffTree) (p : Bits) : (tree.codes p).map Prod.fst = tree.symbols := by
  induction tree generalizing p with
  | leaf s => rfl
  | node l r ihl ihr => simp [codes, symbols, ihl, ihr]

theorem HuffTree.symbols_length_pos (tree : HuffTree) : 0 < tree.symbols.length := by
  induction tree with
  | leaf s => simp [symbols]
  | node l r ihl ihr => simp [symbols, ihl]

theorem symbolAt_leaf_iff {x s : Nat} {p : Bits} : symbolAt (.leaf x) p = some s ↔ p = [] ∧ x = s := by
  cases p <;> simp [symbolAt]

@[simp] theorem symbolAt_node_nil (l r : HuffTree) : symbolAt (.node l r) [] = none := rfl

/-- `Assign` gives each leaf its path (R193), behind the path of the tree's root. -/
theorem HuffTree.mem_codes {tree : HuffTree} {p h : Bits} {s : Nat} :
    (s, h) ∈ tree.codes p ↔ ∃ q, h = p ++ q ∧ symbolAt tree q = some s := by
  induction tree generalizing p with
  | leaf x => simp [codes, symbolAt_leaf_iff, and_comm, eq_comm (a := s)]
  | node l r ihl ihr =>
    rw [codes, List.mem_append, ihl, ihr]
    constructor
    · rintro (⟨q, rfl, hs⟩ | ⟨q, rfl, hs⟩)
      · exact ⟨false :: q, by simp, hs⟩
      · exact ⟨true :: q, by simp, hs⟩
    · rintro ⟨_ | ⟨_ | _, q⟩, rfl, hs⟩
      · simp at hs
      · exact .inl ⟨q, by simp, hs⟩
      · exact .inr ⟨q, by simp, hs⟩

theorem HuffTree.mem_codes_nil {tree : HuffTree} {h : Bits} {s : Nat} :
    (s, h) ∈ tree.codes [] ↔ symbolAt tree h = some s := by
  simp [mem_codes]

/-- Below a leaf there is no other: no path to a leaf is a beginning of another (R191). -/
theorem symbolAt_prefix_free {tree : HuffTree} {p q : Bits} {s s' : Nat} (hp : symbolAt tree p = some s)
    (hq : symbolAt tree q = some s') (h : p <+: q) : s = s' := by
  induction tree generalizing p q with
  | leaf x => exact (symbolAt_leaf_iff.1 hp).2.symm.trans (symbolAt_leaf_iff.1 hq).2
  | node l r ihl ihr =>
    obtain ⟨t, rfl⟩ := h
    obtain _ | ⟨_ | _, p⟩ := p
    · simp at hp
    · exact ihl hp hq (List.prefix_append p t)
    · exact ihr hp hq (List.prefix_append p t)

/-- A path takes at least one other leaf away at each of its steps (R196). -/
theorem symbolAt_length_lt {tree : HuffTree} {p : Bits} {s : Nat} (h : symbolAt tree p = some s) :
    p.length < tree.symbols.length := by
  induction tree generalizing p with
  | leaf x => simp [(symbolAt_leaf_iff.1 h).1, HuffTree.symbols]
  | node l r ihl ihr =>
    have hl := l.symbols_length_pos
    have hr := r.symbols_length_pos
    rw [HuffTree.symbols, List.length_append]
    obtain _ | ⟨_ | _, p⟩ := p
    · simp [hl]
    · have := ihl h
      rw [List.length_cons]; omega
    · have := ihr h
      rw [List.length_cons]; omega

/-- The path is empty at the root of a lone leaf only. -/
theorem symbolAt_ne_nil {tree : HuffTree} {p : Bits} {s : Nat} (h : symbolAt tree p = some s)
    (htwo : 2 ≤ tree.symbols.length) : p ≠ [] := by
  rintro rfl
  cases tree with
  | leaf x => simp [HuffTree.symbols] at htwo
  | node l r => simp at h

/-- A full tree's code is complete (R197). -/
theorem HuffTree.kraft_sum_codes (tree : HuffTree) (p : Bits) :
    ((tree.codes p).map fun e => (1 / 2 : Rat) ^ e.2.length).sum = (1 / 2) ^ p.length := by
  induction tree generalizing p with
  | leaf s => simp [codes]
  | node l r ihl ihr =>
    rw [codes, List.map_append, List.sum_append, ihl, ihr]
    simp only [List.length_append, List.length_singleton, pow_succ]
    ring

/-! ## The merge loop -/

theorem firstOf_of_not_before {x : HuffNode} {q : List HuffNode} (h : ∀ z ∈ q, z.before x = false) : FirstOf x q :=
  fun z hz => HuffNode.not_before_iff.1 (h z hz)

/-- With enough merges the loop of the model ends as the loop of R192 does. -/
theorem mergeLoop_merges {n next : Nat} {q : List HuffNode} (hne : q ≠ []) (hn : q.length ≤ n + 1) :
    ∃ root, mergeLoop n next q = [root] ∧ Merges next q root.tree := by
  induction n generalizing next q with
  | zero =>
    obtain ⟨x, rfl⟩ := List.length_eq_one_iff.1 (le_antisymm hn (List.length_pos_iff.2 hne))
    exact ⟨x, rfl, .root next x⟩
  | succ n ih =>
    match q, hne with
    | [x], _ => exact ⟨x, rfl, .root next x⟩
    | a :: b :: q, _ =>
      obtain ⟨x, y, rest, hperm, hx, hy, hstep⟩ := mergeLoop_step n next a b q
      have hlen := hperm.length_eq
      obtain ⟨root, hroot, hmerges⟩ :=
        ih (next := next + 1) (q := ⟨.node x.tree y.tree, x.w + y.w, next⟩ :: rest) (by simp)
          (by simp only [List.length_cons] at hn hlen ⊢; omega)
      exact ⟨root, hstep.trans hroot, .merge hperm (firstOf_of_not_before hx) (firstOf_of_not_before hy) hmerges⟩

/-- Merging keeps the leaves. -/
theorem merges_symbols_perm {next : Nat} {q : List HuffNode} {tree : HuffTree} (h : Merges next q tree) :
    tree.symbols.Perm (q.flatMap fun x => x.tree.symbols) := by
  induction h with
  | root next x => simp
  | merge hperm _ _ _ ih =>
    refine ih.trans ?_
    refine .trans ?_ (hperm.flatMap_right _).symm
    simp [HuffTree.symbols]

theorem leaves_eq_map_zipIdx (j : Nat) (t : FreqTable) :
    leaves j t = (t.zipIdx j).map fun x => ⟨.leaf x.1.1, x.1.2, x.2⟩ := by
  induction t generalizing j with
  | nil => rfl
  | cons e t ih => simp [leaves, ih]

theorem flatMap_symbols_leaves (j : Nat) (t : FreqTable) :
    ((leaves j t).flatMap fun x => x.tree.symbols) = t.map Prod.fst := by
  induction t generalizing j with
  | nil => rfl
  | cons e t ih => simp [leaves, HuffTree.symbols, ih]

/-! ## The lookup -/

theorem lookup_eq_some_of_mem {c : CodeTable} (hc : (c.map Prod.fst).Nodup) {k : Nat} {h : Bits} (hmem : (k, h) ∈ c) :
    c.lookup k = some h := by
  obtain ⟨front, back, rfl⟩ := List.append_of_mem hmem
  rw [List.map_append, List.map_cons, List.nodup_middle, List.nodup_cons] at hc
  refine List.lookup_eq_some_iff.2 ⟨front, back, rfl, fun p hp => bne_iff_ne.2 ?_⟩
  rintro rfl
  exact hc.1 (List.mem_append_left _ (List.mem_map.2 ⟨p, hp, rfl⟩))

/-- The table that lists the given keys with the codes that `c` has for them. -/
def pickCodes (c : CodeTable) (keys : List Nat) : CodeTable := keys.filterMap fun k => (c.lookup k).map (k, ·)

/-- Picking every key of a table without repeated keys reorders the table. -/
theorem pickCodes_perm {c : CodeTable} {keys : List Nat} (hc : (c.map Prod.fst).Nodup)
    (hkeys : keys.Perm (c.map Prod.fst)) : (pickCodes c keys).Perm c := by
  have hself : pickCodes c (c.map Prod.fst) = c := by
    rw [pickCodes, List.filterMap_map]
    calc c.filterMap _ = c.filterMap some :=
          List.filterMap_congr fun e he => by simp [lookup_eq_some_of_mem hc he]
      _ = c := List.filterMap_some
  exact (hkeys.filterMap _).trans (.of_eq hself)

theorem map_fst_pickCodes {c : CodeTable} {keys : List Nat} (hc : (c.map Prod.fst).Nodup)
    (hkeys : keys.Perm (c.map Prod.fst)) : (pickCodes c keys).map Prod.fst = keys := by
  rw [pickCodes, List.map_filterMap]
  calc keys.filterMap _ = keys.filterMap some := by
        refine List.filterMap_congr fun k hk => ?_
        obtain ⟨e, he, rfl⟩ := List.mem_map.1 (hkeys.mem_iff.1 hk)
        simp [lookup_eq_some_of_mem hc he]
    _ = keys := List.filterMap_some

/-! ## The built table -/

section TwoSymbols

variable {t : FreqTable} (hnodup : (t.map Prod.fst).Nodup) (htwo : 2 ≤ t.length)

include htwo in
theorem huffBuild_of_root {root : HuffNode} (h : mergeLoop (t.length - 1) t.length (leaves 0 t) = [root]) :
    huffBuild t = pickCodes (root.tree.codes []) (t.map Prod.fst) := by
  match t, htwo with
  | _ :: _ :: _, _ =>
    simp only [huffBuild, h, pickCodes, List.filterMap_map, Function.comp_def]

include hnodup htwo in
/-- What `HuffBuild` answers for two or more symbols: the leaves of the tree of R192, in the order of the alphabet, each
with its path. -/
theorem huffBuild_spec : ∃ tree, Merges t.length (leafNodes t) tree ∧ tree.symbols.length = t.length ∧
    (huffBuild t).map Prod.fst = t.map Prod.fst ∧ (huffBuild t).Perm (tree.codes []) := by
  have hlength : (leaves 0 t).length = t.length := by simp [leaves_eq_map_zipIdx]
  obtain ⟨root, hroot, hmerges⟩ := mergeLoop_merges (n := t.length - 1) (next := t.length) (q := leaves 0 t)
    (List.length_pos_iff.1 (by omega)) (by omega)
  have hperm : root.tree.symbols.Perm (t.map Prod.fst) := flatMap_symbols_leaves 0 t ▸ merges_symbols_perm hmerges
  have hkeys : (t.map Prod.fst).Perm ((root.tree.codes []).map Prod.fst) := root.tree.map_fst_codes [] ▸ hperm.symm
  have hcodes := hkeys.nodup hnodup
  rw [huffBuild_of_root htwo hroot]
  refine ⟨root.tree, ?_, by simpa using hperm.length_eq, map_fst_pickCodes hcodes hkeys, pickCodes_perm hcodes hkeys⟩
  rwa [leafNodes, ← leaves_eq_map_zipIdx]

end TwoSymbols

/-- Settles O8: one-symbol tables by the definition, larger ones by the paths of the tree. -/
theorem builtCodesArePrefixFree : Obligations.BuiltCodesArePrefixFree := by
  intro t hnodup
  match t with
  | [] => simp [huffBuild]
  | [(s, w)] => simp [huffBuild]
  | x :: y :: t' =>
    have htwo : 2 ≤ (x :: y :: t').length := by simp
    generalize x :: y :: t' = t at hnodup htwo ⊢
    obtain ⟨tree, -, hsize, hkeys, hperm⟩ := huffBuild_spec hnodup htwo
    have hpath : ∀ e ∈ huffBuild t, symbolAt tree e.2 = some e.1 := fun e he =>
      HuffTree.mem_codes_nil.1 (hperm.mem_iff.1 he)
    refine ⟨hkeys, fun e he => List.length_pos_iff.2 (symbolAt_ne_nil (hpath e he) (hsize ▸ htwo)), ?_⟩
    exact fun a ha b hb hne hpre => hne (symbolAt_prefix_free (hpath a ha) (hpath b hb) hpre)

/-- Settles O9: the built table lists the leaves of the merged tree, so its sum and its lengths are those of the paths. -/
theorem builtTreeIsFull : Obligations.BuiltTreeIsFull := by
  intro t hnodup htwo
  obtain ⟨tree, hmerges, hsize, -, hperm⟩ := huffBuild_spec hnodup htwo
  have hpath : ∀ s h, (s, h) ∈ huffBuild t ↔ symbolAt tree h = some s := fun s h =>
    hperm.mem_iff.trans HuffTree.mem_codes_nil
  refine ⟨⟨tree, hmerges, hpath⟩, ?_, fun e he => ?_⟩
  · simpa using (hperm.map _).sum_eq.trans (tree.kraft_sum_codes [])
  · have := symbolAt_length_lt ((hpath _ _).1 he)
    omega

end Sys2Proof
end

section
/-! The prefix matcher (`spec/43_huffman.md` section 4, R205 to R207). -/

namespace Sys2Proof

section Matcher

variable {tab : List Entry} {acc b r : Bits} {x : Bool} {e : Entry}

theorem huffMatch_cons_of_entry (h : entryWith tab (acc ++ [x]) = some e) : huffMatch tab acc (x :: b) = some (e, b) := by
  simp [huffMatch, h]

theorem huffMatch_cons_of_no_entry (h : entryWith tab (acc ++ [x]) = none) :
    huffMatch tab acc (x :: b) = huffMatch tab (acc ++ [x]) b := by
  simp [huffMatch, h]

/-- The matcher fails exactly when no nonempty beginning of the remaining bits completes a code (R207). -/
theorem huffMatch_eq_none_iff :
    huffMatch tab acc b = none ↔ ∀ h : Bits, h ≠ [] → h <+: b → entryWith tab (acc ++ h) = none := by
  induction b generalizing acc with
  | nil => simpa [huffMatch] using fun h hne he => absurd he hne
  | cons x b ih =>
    cases hx : entryWith tab (acc ++ [x]) with
    | some e => simpa [huffMatch_cons_of_entry hx] using ⟨[x], by simp, by simp, by simp [hx]⟩
    | none =>
      rw [huffMatch_cons_of_no_entry hx, ih]
      constructor
      · intro hrest h hne hpre
        obtain ⟨p, rfl, hp⟩ := (List.prefix_cons_iff.1 hpre).resolve_left hne
        rcases eq_or_ne p [] with rfl | hpne
        · exact hx
        · simpa using hrest p hpne hp
      · intro hall h _ hpre
        simpa using hall (x :: h) (by simp) (by simpa using hpre)

/-- A match is made at the first bit that completes a code (R205). -/
theorem huffMatch_eq_some_iff :
    huffMatch tab acc b = some (e, r) ↔
      ∃ p x, b = p ++ x :: r ∧ huffMatch tab acc p = none ∧ entryWith tab (acc ++ (p ++ [x])) = some e := by
  induction b generalizing acc with
  | nil => simp [huffMatch]
  | cons y b ih =>
    cases hy : entryWith tab (acc ++ [y]) with
    | some f =>
      rw [huffMatch_cons_of_entry hy]
      constructor
      · rintro ⟨⟩
        exact ⟨[], y, rfl, rfl, hy⟩
      · rintro ⟨p, x, hb, hp, he⟩
        cases p with
        | nil => cases hb; simpa [hy] using he
        | cons z p => cases hb; simp [huffMatch_cons_of_entry hy] at hp
    | none =>
      rw [huffMatch_cons_of_no_entry hy, ih]
      constructor
      · rintro ⟨p, x, rfl, hp, he⟩
        exact ⟨y :: p, x, rfl, by rwa [huffMatch_cons_of_no_entry hy], by simpa using he⟩
      · rintro ⟨p, x, hb, hp, he⟩
        cases p with
        | nil => cases hb; simp [hy] at he
        | cons z p =>
          cases hb
          exact ⟨p, x, rfl, by rwa [huffMatch_cons_of_no_entry hy] at hp, by simpa using he⟩

end Matcher

/-- Settles O10: the bits before the one that completes the code are a string on which the matcher fails. -/
theorem matcherFindsShortestCode : Obligations.MatcherFindsShortestCode := by
  refine fun tab b => ⟨fun e r => huffMatch_eq_some_iff.trans ⟨?_, ?_⟩, huffMatch_eq_none_iff⟩
  · rintro ⟨p, x, rfl, hp, he⟩
    have hcode : e.code = p ++ [x] := (entryWith_code he).2
    rw [hcode]
    refine ⟨by simp, by simp, he, fun h hne hpre hproper => ?_⟩
    exact huffMatch_eq_none_iff.1 hp h hne ((List.prefix_concat_iff.1 hpre).resolve_left hproper)
  · rintro ⟨rfl, hne, he, hmin⟩
    obtain ⟨p, x, hcode⟩ := List.eq_nil_or_concat' e.code |>.resolve_left hne
    rw [hcode] at he hmin ⊢
    refine ⟨p, x, by simp, huffMatch_eq_none_iff.2 fun h hne hpre => hmin h hne (hpre.trans (by simp)) ?_, he⟩
    rintro rfl
    simpa using hpre.length_le

end Sys2Proof
end

section
/-! What the decoder answers, and how many bits it takes (`spec/30_encoding.md` sections 3 to 5, R67, R92 to R97). -/

namespace Sys2Proof

theorem except_bind_eq_ok {ε α β : Type} {x : Except ε α} {f : α → Except ε β} {r : β} (h : x >>= f = .ok r) :
    ∃ a, x = .ok a ∧ f a = .ok r := by
  cases x with
  | error e => cases h
  | ok a => exact ⟨a, rfl, h⟩

section Fields

variable {n v : Nat} {b c r : Bits} {i : Instr}

theorem splitBits_length (h : splitBits n b = .ok (c, r)) : c.length = n ∧ n + r.length = b.length := by
  obtain ⟨rfl, rfl⟩ := splitBits_eq_ok h
  simp

theorem readField_length (h : readField n b = .ok (v, r)) : n + r.length = b.length := by
  cases hs : splitBits n b with
  | error e => simp [readField, hs, Except.map] at h
  | ok x =>
    obtain ⟨-, rfl⟩ : uval x.1 = v ∧ x.2 = r := by simpa [readField, hs, Except.map] using h
    exact (splitBits_length hs).2

theorem readCode_length (h : readCode n b = .ok (c, r)) : c.length = n ∧ n + r.length = b.length := by
  rw [readCode] at h
  split at h
  · cases h
  · exact splitBits_length h

theorem decodeTcount_eq_ok (h : decodeTcount b = .ok (i, r)) :
    ∃ n, i = .tcount n ∧ 16 + r.length = b.length := by
  obtain ⟨⟨n, _⟩, hn, ⟨⟩⟩ := except_bind_eq_ok h
  exact ⟨_, rfl, readField_length hn⟩

theorem decodeBcount_eq_ok (h : decodeBcount b = .ok (i, r)) :
    ∃ n, i = .bcount n ∧ 32 + r.length = b.length := by
  obtain ⟨⟨n, _⟩, hn, ⟨⟩⟩ := except_bind_eq_ok h
  exact ⟨_, rfl, readField_length hn⟩

theorem decodeDcent_eq_ok (h : decodeDcent b = .ok (i, r)) :
    ∃ n c, i = .dcent n c ∧ 8 + c.length + r.length = b.length := by
  obtain ⟨⟨n, b₁⟩, hn, h⟩ := except_bind_eq_ok h
  obtain ⟨⟨l, b₂⟩, hl, h⟩ := except_bind_eq_ok h
  obtain ⟨⟨c, _⟩, hc, ⟨⟩⟩ := except_bind_eq_ok h
  have hn := readField_length hn
  have hl := readField_length hl
  obtain ⟨hlen, hc⟩ := readCode_length hc
  exact ⟨_, c, rfl, by omega⟩

theorem decodeAcent_eq_ok (h : decodeAcent b = .ok (i, r)) :
    ∃ run size c, i = .acent run size c ∧ 16 + c.length + r.length = b.length := by
  obtain ⟨⟨run, b₁⟩, hrun, h⟩ := except_bind_eq_ok h
  obtain ⟨⟨size, b₂⟩, hsize, h⟩ := except_bind_eq_ok h
  obtain ⟨⟨l, b₃⟩, hl, h⟩ := except_bind_eq_ok h
  obtain ⟨⟨c, _⟩, hc, ⟨⟩⟩ := except_bind_eq_ok h
  have hrun := readField_length hrun
  have hsize := readField_length hsize
  have hl := readField_length hl
  obtain ⟨hlen, hc⟩ := readCode_length hc
  exact ⟨_, _, c, rfl, by omega⟩

end Fields

section Symbols

variable {tab : List Entry} {b r : Bits} {e : Entry} {i : Instr}

/-- A match is an entry of the table, and takes the bits of its code, at least one (R205). -/
theorem huffMatch_entry (h : huffMatch tab [] b = some (e, r)) :
    entryWith tab e.code = some e ∧ e.code.length + r.length = b.length ∧ 0 < e.code.length := by
  obtain ⟨p, x, rfl, -, he⟩ := huffMatch_eq_some_iff.1 h
  obtain hcode : e.code = p ++ [x] := (entryWith_code he).2
  exact ⟨hcode ▸ he, by simp [hcode]; omega, by simp [hcode]⟩

theorem decodeDcsym_eq_ok (h : decodeDcsym tab b = .ok (i, r)) :
    ∃ e v, i = .dcsym e.code v ∧ entryWith tab e.code = some e ∧ v.length = e.sym ∧
      e.code.length + v.length + r.length = b.length ∧ 0 < e.code.length := by
  rw [decodeDcsym] at h
  split at h
  · cases h
  · next e b₁ hmatch =>
    obtain ⟨⟨v, _⟩, hv, ⟨⟩⟩ := except_bind_eq_ok h
    obtain ⟨he, hcode, hpos⟩ := huffMatch_entry hmatch
    obtain ⟨hlen, hv⟩ := splitBits_length hv
    exact ⟨e, v, rfl, he, hlen, by omega, hpos⟩

theorem decodeAcsym_eq_ok {k : Nat} (h : decodeAcsym tab k b = .ok (i, r)) :
    ∃ e v, i = .acsym e.code v ∧ entryWith tab e.code = some e ∧ overruns k e.sym = false ∧
      v.length = symSize e.sym ∧ e.code.length + v.length + r.length = b.length ∧ 0 < e.code.length := by
  rw [decodeAcsym] at h
  split at h
  · cases h
  · next e b₁ hmatch =>
    split at h
    · cases h
    · next hover =>
      obtain ⟨⟨v, _⟩, hv, ⟨⟩⟩ := except_bind_eq_ok h
      obtain ⟨he, hcode, hpos⟩ := huffMatch_entry hmatch
      obtain ⟨hlen, hv⟩ := splitBits_length hv
      exact ⟨e, v, rfl, he, by simpa using hover, hlen, by omega, hpos⟩

end Symbols

end Sys2Proof
end

section
/-! The reader ends (`spec/45_commands.md` section 1, R260; `spec/70_reset_and_hazards.md` section 4, R356). -/

namespace Sys2Proof.Machine

/-! ## One element -/

/-- A decoded element takes as many bits as its encoding has, at least one (R260). -/
theorem decode_consumes {p : ReadPos} {d : PerClass (List Entry)} {b r : Bits} {i : Instr}
    (h : decode (p.position d) b = .ok (i, r)) :
    (encode i).length + r.length = b.length ∧ 0 < (encode i).length := by
  cases p with
  | tableCount c =>
    obtain ⟨n, rfl, hlen⟩ := decodeTcount_eq_ok h
    have : (encode (.tcount n)).length = 16 := Laws.EncodingLength.tcount n
    omega
  | tableEntry c left =>
    rw [ReadPos.position] at h
    split at h
    · obtain ⟨n, code, rfl, hlen⟩ := decodeDcent_eq_ok h
      have : (encode (.dcent n code)).length = 8 + code.length := Laws.EncodingLength.dcent n code
      omega
    · obtain ⟨run, size, code, rfl, hlen⟩ := decodeAcent_eq_ok h
      have : (encode (.acent run size code)).length = 16 + code.length := Laws.EncodingLength.acent run size code
      omega
  | blockCount =>
    obtain ⟨n, rfl, hlen⟩ := decodeBcount_eq_ok h
    have : (encode (.bcount n)).length = 32 := Laws.EncodingLength.bcount n
    omega
  | dcSymbol ch =>
    obtain ⟨e, v, rfl, -, -, hlen, hpos⟩ := decodeDcsym_eq_ok h
    have : (encode (.dcsym e.code v)).length = e.code.length + v.length := Laws.EncodingLength.dcsym e.code v
    omega
  | acSymbol ch k =>
    obtain ⟨e, v, rfl, -, -, -, hlen, hpos⟩ := decodeAcsym_eq_ok h
    have : (encode (.acsym e.code v)).length = e.code.length + v.length := Laws.EncodingLength.acsym e.code v
    omega

/-- The reader has taken `i` and stands at another place, or it is at rest: at its end, or after a fault. -/
def ReadOn (i : Instr) (s t : State) : Prop :=
  t.framer = .rest ∨ ∃ q d n c, t = { take i (.reading q) s with dtab := d, nblk := n, co := c }

theorem element_of_reading {i : Instr} {s : State} {p : ReadPos} {read : ReadPos → Result}
    (hf : s.framer = .reading p) : element i s read = read p := by
  simp [element, hf]

theorem readEntry_readOn (i : Instr) (c : SymClass) (left : Nat) (e : Entry) (s : State) :
    ∃ t, readEntry i c left e s = .next t ∧ ReadOn i s t := by
  unfold readEntry
  split
  · exact ⟨_, rfl, .inl rfl⟩
  · split
    · exact ⟨_, rfl, .inl rfl⟩
    · exact ⟨_, rfl, .inr ⟨_, _, s.nblk, s.co, rfl⟩⟩

theorem execDcsym_of_entry {s : State} {ch : BitVec 2} {e : Entry} {v : Bits}
    (hf : s.framer = .reading (.dcSymbol ch)) (he : entryWith (s.dtab.get (dcClass ch)) e.code = some e)
    (hv : v.length = e.sym) : execDcsym e.code v s =
      .next { take (.dcsym e.code v) (.reading (.acSymbol ch 0)) s with
        co := s.co.setIfInBounds 0 (BitVec.ofInt 16 (readInt v)) } := by
  simp [execDcsym, element, hf, he, hv]

theorem execAcsym_readOn {s : State} {ch : BitVec 2} {k : Nat} {e : Entry} {v : Bits}
    (hf : s.framer = .reading (.acSymbol ch k)) (he : entryWith (s.dtab.get (acClass ch)) e.code = some e)
    (hover : overruns k e.sym = false) (hv : v.length = symSize e.sym) :
    ∃ t, exec (.acsym e.code v) s = .next t ∧ ReadOn (.acsym e.code v) s t := by
  by_cases hsym : e.sym = 0
  · obtain rfl : v = [] := List.length_eq_zero_iff.1 (by rw [hv, hsym]; rfl)
    exact ⟨_, exec_acsym_eob hf he hsym, .inl rfl⟩
  · have hfits : k + e.sym / 16 + 1 ≤ 63 := not_lt.1 fun h => by simp [(overruns_iff hsym).2 h] at hover
    refine ⟨_, exec_acsym_value hf he hsym hfits hv, ?_⟩
    unfold afterSlot
    split
    · exact .inr ⟨_, s.dtab, s.nblk, _, rfl⟩
    · exact .inl rfl

/-- The element that the decoder finds at the reader's place has a meaning there. -/
theorem runElement_readOn {s : State} {p : ReadPos} {i : Instr} {r : Bits} (hf : s.framer = .reading p)
    (h : decode (p.position s.dtab) s.unread = .ok (i, r)) : ∃ t, runElement i s = .next t ∧ ReadOn i s t := by
  cases p with
  | tableCount c =>
    obtain ⟨n, rfl, -⟩ := decodeTcount_eq_ok h
    exact ⟨_, element_of_reading hf, .inr ⟨_, _, s.nblk, s.co, rfl⟩⟩
  | tableEntry c left =>
    rw [ReadPos.position] at h
    split at h
    · next hc =>
      obtain ⟨n, code, rfl, -⟩ := decodeDcent_eq_ok h
      simpa [runElement, execDcent, element, hf, hc] using readEntry_readOn ..
    · next hc =>
      obtain ⟨run, size, code, rfl, -⟩ := decodeAcent_eq_ok h
      simpa [runElement, execAcent, element, hf, hc] using readEntry_readOn ..
  | blockCount =>
    obtain ⟨n, rfl, -⟩ := decodeBcount_eq_ok h
    exact ⟨_, element_of_reading hf, .inl rfl⟩
  | dcSymbol ch =>
    obtain ⟨e, v, rfl, he, hv, -⟩ := decodeDcsym_eq_ok h
    exact ⟨_, execDcsym_of_entry hf he hv, .inr ⟨_, s.dtab, s.nblk, _, rfl⟩⟩
  | acSymbol ch k =>
    obtain ⟨e, v, rfl, he, hover, hv, -⟩ := decodeAcsym_eq_ok h
    exact execAcsym_readOn hf he hover hv

/-! ## The loop -/

/-- Taking bits that are there leaves that many fewer: the read cursor stays inside the stream (R29, R67). -/
theorem unreadCount_take {i : Instr} {s t : State} {q : ReadPos} {d : PerClass (List Entry)} {n : Word} {c : Pair}
    (ht : t = { take i (.reading q) s with dtab := d, nblk := n, co := c }) (hend : s.streamEnd < 2 ^ 64)
    (hi : (encode i).length ≤ s.unreadCount) (hpos : 0 < (encode i).length) : t.unreadCount < s.unreadCount := by
  have hbslen : t.streamEnd = s.streamEnd := by rw [ht]; rfl
  have hrpos : t.rpos.toNat = s.rpos.toNat + (encode i).length := by
    rw [State.unreadCount] at hi
    rw [ht, take_rpos, BitVec.toNat_add, BitVec.toNat_ofNat, Nat.add_mod_mod]
    exact Nat.mod_eq_of_lt (by omega)
  rw [State.unreadCount, State.unreadCount, hbslen, hrpos]
  rw [State.unreadCount] at hi
  omega

theorem nextElement_of_reading {s : State} {p : ReadPos} (hf : s.framer = .reading p) :
    nextElement s = some ((decode (p.position s.dtab) s.unread).map Prod.fst) := by
  simp [nextElement, hf]

/-- With more turns than unread bits the reader ends: each element takes at least one bit (R260). -/
theorem runElements_of_reading {m : Nat} {s : State} {p : ReadPos} (hf : s.framer = .reading p)
    (hend : s.streamEnd < 2 ^ 64) (hm : s.unreadCount < m) : ∃ t, runElements m s = .next t := by
  induction m generalizing s p with
  | zero => exact absurd hm (Nat.not_lt_zero _)
  | succ m ih =>
    cases hd : decode (p.position s.dtab) s.unread with
    | error e => exact ⟨raise e.errCode s, by simp [runElements, nextElement_of_reading hf, hd, Except.map]⟩
    | ok x =>
      obtain ⟨i, r⟩ := x
      obtain ⟨t, ht, hon⟩ := runElement_readOn hf hd
      have hturn : runElements (m + 1) s = runElements m t := by
        simp [runElements, nextElement_of_reading hf, hd, Except.map, ht]
      rw [hturn]
      rcases hon with hrest | ⟨q, d, n, c, hon⟩
      · exact ⟨t, runElements_of_rest hrest m⟩
      · obtain ⟨hlen, hpos⟩ := decode_consumes hd
        rw [State.unread_length] at hlen
        have hless := unreadCount_take hon hend (by omega) hpos
        exact ih (p := q) (by rw [hon]; rfl) (by rw [hon]; exact hend) (by omega)

theorem readElements_ends (p : ReadPos) {s : State} (hend : s.streamEnd < 2 ^ 64) :
    ∃ t, readElements p s = .next t :=
  runElements_of_reading rfl hend (Nat.lt_succ_self _)

end Sys2Proof.Machine
end

section
/-! The symbols of the image have codes (`spec/43_huffman.md` section 3, R199). -/

namespace Sys2Proof

/-! ## The symbols of a pair are counted -/

theorem mem_classSymbols {c : SymClass} {ps : List Pair} {p : Pair} {j i x : Nat} (hp : ps[i]? = some p)
    (hx : x ∈ pairSymbols c (j + i) p) : x ∈ classSymbols c j ps := by
  induction ps generalizing j i with
  | nil => simp at hp
  | cons q ps ih =>
    rw [classSymbols, List.mem_append]
    cases i with
    | zero =>
      obtain rfl : q = p := by simpa using hp
      exact .inl hx
    | succ i => exact .inr (ih (i := i) (by simpa using hp) (by rwa [Nat.add_assoc, Nat.add_comm 1]))

theorem pairSymbols_dc {ch : BitVec 2} {i : Nat} (hi : BitVec.ofNat 2 (i % 3) = ch) (p : Pair) :
    pairSymbols (dcClass ch) i p = [bitsRequired (Pair.dc p)] := by
  simp [pairSymbols, hi]

theorem acClass_ne_dcClass (ch : BitVec 2) : acClass ch ≠ dcClass ch := by
  unfold acClass dcClass
  split <;> simp

theorem pairSymbols_ac {ch : BitVec 2} {i : Nat} (hi : BitVec.ofNat 2 (i % 3) = ch) (p : Pair) :
    pairSymbols (acClass ch) i p = (rle (Pair.ac p)).map fun it => symIndex it.run it.size := by
  simp [pairSymbols, hi, acClass_ne_dcClass]

/-! ## A counted symbol has a code -/

theorem map_fst_countSymbols (syms : List Nat) :
    (countSymbols syms).map Prod.fst = (List.range 256).filter fun s => 0 < syms.count s := by
  rw [countSymbols, List.map_filterMap, ← List.filterMap_eq_filter]
  refine List.filterMap_congr fun s _ => ?_
  by_cases hs : 0 < syms.count s <;> simp [hs, Option.guard]

/-- R199: every symbol of the image has a code in the table built for its class. -/
theorem code_of_mem_classSymbols {ps : List Pair} {c : SymClass} {x : Nat} (hx : x ∈ classSymbols c 0 ps)
    (hlt : x < 256) : ∃ h, ((buildTables (frequencies ps)).get c).code x = some h := by
  have hkeys := map_fst_countSymbols (classSymbols c 0 ps)
  have hnodup : ((countSymbols (classSymbols c 0 ps)).map Prod.fst).Nodup := hkeys ▸ List.nodup_range.filter _
  have hbuilt := (builtCodesArePrefixFree _ hnodup).1
  have hmem : x ∈ (huffBuild (countSymbols (classSymbols c 0 ps))).map Prod.fst := by
    rw [hbuilt, hkeys]
    simp [hlt, hx]
  obtain ⟨⟨_, h⟩, hentry, rfl⟩ := List.mem_map.1 hmem
  refine ⟨h, ?_⟩
  rw [buildTables, frequencies, PerClass.get_of, PerClass.get_of]
  exact lookup_eq_some_of_mem (hbuilt ▸ hnodup) hentry

/-! ## The symbols of a legal pair are below 256 -/

theorem bitsRequired_le_of_legal {p : Pair} (hp : Machine.legalPair p = true) {a : Int} (ha : a ∈ Pair.ac p) :
    bitsRequired a ≤ 15 := by
  obtain ⟨v, hv, rfl⟩ := List.mem_map.1 ha
  have hne : v ≠ 0x8000 := by simpa using List.all_eq_true.1 hp v (List.mem_of_mem_drop hv)
  have hint : v.toInt ≠ -32768 := fun h => hne (BitVec.toInt_inj.1 h)
  have hlow := v.le_toInt
  have hhigh := v.toInt_lt
  rw [bitsRequired_le_iff]
  omega

/-- The run is at most 15 and the size at most 15 (R13, R175). -/
theorem symIndex_lt_of_legal {p : Pair} (hp : Machine.legalPair p = true) {it : RunItem} (hit : it ∈ rle (Pair.ac p)) :
    symIndex it.run it.size < 256 := by
  obtain rfl | rfl | ⟨r, a, hr, ha, -, rfl⟩ := (runScan_rle _).item_cases hit
  · decide
  · decide
  · have := bitsRequired_le_of_legal hp ha
    simp only [symIndex]
    omega

end Sys2Proof
end

section
/-! The writer ends (`spec/45_commands.md` sections 1 and 4, R266, R267; `spec/70_reset_and_hazards.md` section 4, R356). -/

namespace Sys2Proof.Machine

/-! ## The loop -/

/-- The writer takes one turn for each of its elements. -/
theorem runElements_of_writing {i : Instr} {is : List Instr} {s : State} (hf : s.framer = .writing i is)
    (helem : ∀ j ∈ i :: is, isCommand j = false) : ∃ t, runElements (is.length + 1) s = .next t := by
  induction is generalizing i s with
  | nil =>
    have hemit := runElement_writing (helem i List.mem_cons_self) hf
    exact ⟨emit i [] s, by simp [runElements, nextElement, hf, hemit, emit]⟩
  | cons j js ih =>
    obtain ⟨hi, hrest⟩ := List.forall_mem_cons.1 helem
    obtain ⟨t, ht⟩ := ih (s := emit i (j :: js) s) rfl hrest
    refine ⟨t, ?_⟩
    rw [runElements, nextElement, hf]
    simpa only [runElement_writing hi hf, List.length_cons] using ht

theorem writeElements_ends {i : Instr} {is : List Instr} (helem : ∀ j ∈ i :: is, isCommand j = false) (s : State) :
    ∃ t, writeElements i is s = .next t :=
  runElements_of_writing rfl helem

/-! ## What the writer is given -/

theorem entryElements_isElement {c : SymClass} {t : CodeTable} {is : List Instr} (h : entryElements c t = .ok is) :
    ∀ i ∈ is, isCommand i = false := by
  induction t generalizing is with
  | nil => cases h; simp
  | cons e t ih =>
    rw [entryElements] at h
    split at h
    · next hi his =>
      cases h
      exact List.forall_mem_cons.2 ⟨entryElement_isElement hi, ih his⟩
    · cases h
    · cases h

theorem tableElements_isElement {c : SymClass} {t : CodeTable} {is : List Instr} (h : tableElements c t = .ok is) :
    ∀ i ∈ is, isCommand i = false := by
  rw [tableElements] at h
  split at h
  · cases he : entryElements c t with
    | error e => simp [he, Except.map] at h
    | ok js =>
      rw [he] at h
      cases h
      exact List.forall_mem_cons.2 ⟨rfl, entryElements_isElement he⟩
  · cases h

theorem headerElements_isElement {etab : PerClass CodeTable} {n : Word} {is : List Instr}
    (h : headerElements etab n = .ok is) : ∀ i ∈ is, isCommand i = false := by
  obtain ⟨t0, h0, h⟩ := except_bind_eq_ok h
  obtain ⟨t1, h1, h⟩ := except_bind_eq_ok h
  obtain ⟨t2, h2, h⟩ := except_bind_eq_ok h
  obtain ⟨t3, h3, ⟨⟩⟩ := except_bind_eq_ok h
  have h0 := tableElements_isElement h0
  have h1 := tableElements_isElement h1
  have h2 := tableElements_isElement h2
  have h3 := tableElements_isElement h3
  simp only [List.forall_mem_append, List.forall_mem_singleton]
  exact ⟨⟨⟨⟨h0, h1⟩, h2⟩, h3⟩, rfl⟩

/-- If every symbol has a code, the items are written, as stream elements. -/
theorem acElements_of_codes {t : CodeTable} {its : List RunItem}
    (h : ∀ it ∈ its, ∃ code, t.code (symIndex it.run it.size) = some code) :
    ∃ is, acElements t its = some is ∧ ∀ i ∈ is, isCommand i = false := by
  induction its with
  | nil => exact ⟨[], rfl, by simp⟩
  | cons it its ih =>
    obtain ⟨⟨code, hcode⟩, hrest⟩ := List.forall_mem_cons.1 h
    obtain ⟨is, his, helem⟩ := ih hrest
    exact ⟨.acsym code it.val :: is, by simp [acElements, hcode, his], List.forall_mem_cons.2 ⟨rfl, helem⟩⟩

/-- R199: a pair of the image can be written with the image's own tables. -/
theorem pairElements_of_image {ps : List Pair} (hlegal : legalPairs ps) {i : Nat} {p : Pair} (hp : ps[i]? = some p)
    {ch : BitVec 2} (hi : BitVec.ofNat 2 (i % 3) = ch) :
    ∃ j js, pairElements (buildTables (frequencies ps)) ch p = some (j, js) ∧
      ∀ x ∈ j :: js, isCommand x = false := by
  have hpair : legalPair p = true := hlegal p (List.mem_of_getElem? hp)
  have hdc : bitsRequired (Pair.dc p) ∈ classSymbols (dcClass ch) 0 ps :=
    mem_classSymbols hp (by simp [pairSymbols_dc hi])
  have hsize : bitsRequired (Pair.dc p) ≤ 16 := bitsRequired_coef_le p[0]
  obtain ⟨code, hcode⟩ := code_of_mem_classSymbols hdc (by omega)
  have hac : ∀ it ∈ rle (Pair.ac p),
      ∃ code, ((buildTables (frequencies ps)).get (acClass ch)).code (symIndex it.run it.size) = some code := by
    intro it hit
    refine code_of_mem_classSymbols (mem_classSymbols hp ?_) (symIndex_lt_of_legal hpair hit)
    rw [Nat.zero_add, pairSymbols_ac hi]
    exact List.mem_map_of_mem hit
  obtain ⟨is, his, helem⟩ := acElements_of_codes hac
  exact ⟨.dcsym code (ibits (Pair.dc p)), is, by simp [pairElements, hcode, his], List.forall_mem_cons.2 ⟨rfl, helem⟩⟩

end Sys2Proof.Machine
end

section
/-! Every command ends (`spec/45_commands.md` section 1, R260; `spec/70_reset_and_hazards.md` section 4, R356). -/

namespace Sys2Proof.Machine

/-! ## How the parts of a command end -/

/-- A command that ends: a next state between two commands. -/
def EndsAtRest (r : Result) : Prop := ∃ t, r = .next t ∧ t.framer = .rest

theorem endsAtRest_next {t : State} (h : t.framer = .rest) : EndsAtRest (.next t) := ⟨t, rfl, h⟩

theorem endsAtRest_raise (e : ErrCode) (s : State) : EndsAtRest (.next (raise e s)) := endsAtRest_next rfl

/-- Where a command is not legal, the phase test ends it (R272, R274). -/
theorem whenLegal_endsAtRest {legal : Bool} {s : State} {effect : State → Result} (hs : s.framer = .rest)
    (h : s.phase ≠ .fault → legal = true → EndsAtRest (effect s)) : EndsAtRest (whenLegal legal s effect) := by
  rcases whenLegal_cases (rfl : whenLegal legal s effect = _) with ⟨_, hr⟩ | ⟨_, _, hr⟩ | ⟨hf, hl, hr⟩ <;> rw [hr]
  · exact endsAtRest_next hs
  · exact endsAtRest_raise _ s
  · exact h hf hl

theorem andThen_endsAtRest {r : Result} {k : State → State} (hr : EndsAtRest r) (hk : ∀ u, (k u).framer = u.framer) :
    EndsAtRest (andThen r k) := by
  obtain ⟨u, rfl, hu⟩ := hr
  rw [andThen]
  split
  · exact endsAtRest_next hu
  · exact endsAtRest_next ((hk u).trans hu)

theorem runElements_endsAtRest {n : Nat} {s : State} (h : ∃ t, runElements n s = .next t) :
    EndsAtRest (runElements n s) := by
  obtain ⟨t, ht⟩ := h
  exact ⟨t, ht, runElements_rest ht⟩

/-! ## What a safe state gives the element loops -/

/-- R71: while a decode runs, `RPOS` can count every bit of the stream without wrapping. -/
theorem State.Ok.streamEnd_lt {s : State} (h : s.Ok) (hp : s.phase = .decHdr ∨ s.phase = .decBlocks) :
    s.streamEnd < 2 ^ 64 := by
  have hcap := h.sequencer.capacity
  have hlen : s.bslen.toNat ≤ s.bsCap := h.decode.stored (hp.imp_right .inl)
  rw [State.streamEnd]
  omega

/-- R32: short of its end, the cursor points at a pair of `CBUF`. -/
theorem State.Ok.pair_at_cursor {s : State} (h : s.Ok) (hp : s.phase = .encBlocks) (he : s.atEnd = false) :
    ∃ p, s.cbuf[s.pairIndex]? = some p := by
  have hf : s.phase ≠ .fault := by simp [hp]
  obtain ⟨hlen, -⟩ := h.encode.built (.inr hp)
  have hblk := h.sequencer.blk_lt_nblk hf he
  have hch := h.sequencer.channel hf
  have hlt : s.pairIndex < s.cbuf.length := by rw [hlen, State.pairIndex]; omega
  exact ⟨_, List.getElem?_eq_getElem hlt⟩

/-- The channel of a pair is its place in `CBUF` modulo 3 (R27). -/
theorem channel_of_pairIndex {s : State} (hch : s.ch.toNat ≤ 2) : BitVec.ofNat 2 (s.pairIndex % 3) = s.ch := by
  have hmod : s.pairIndex % 3 = s.ch.toNat := by rw [State.pairIndex]; omega
  rw [hmod, BitVec.ofNat_toNat, BitVec.setWidth_eq]

/-! ## The commands -/

section Commands
variable {s : State} (h : s.Ok)
include h

theorem execEncStart_endsAtRest : EndsAtRest (execEncStart s) := by
  refine whenLegal_endsAtRest h.sequencer.atRest fun _ _ => ?_
  split
  · exact endsAtRest_raise _ s
  · exact endsAtRest_next h.sequencer.atRest

theorem execEncPush_endsAtRest : EndsAtRest (execEncPush s) := by
  refine whenLegal_endsAtRest h.sequencer.atRest fun _ _ => ?_
  split
  · exact endsAtRest_next (by simpa using h.sequencer.atRest)
  · exact endsAtRest_raise _ s

theorem execEncBuild_endsAtRest : EndsAtRest (execEncBuild s) :=
  whenLegal_endsAtRest h.sequencer.atRest fun _ _ => endsAtRest_next h.sequencer.atRest

theorem execEncWriteHdr_endsAtRest : EndsAtRest (execEncWriteHdr s) := by
  refine whenLegal_endsAtRest h.sequencer.atRest fun _ _ => ?_
  split
  · next hdr =>
    have hwrite := writeElements_ends (headerElements_isElement hdr) s
    exact andThen_endsAtRest (runElements_endsAtRest hwrite) fun _ => rfl
  · exact endsAtRest_next h.sequencer.atRest
  · exact endsAtRest_raise _ s

theorem execEncWritePair_endsAtRest : EndsAtRest (execEncWritePair s) := by
  refine whenLegal_endsAtRest h.sequencer.atRest fun hf hl => ?_
  obtain ⟨hp, he⟩ : s.phase = .encBlocks ∧ s.atEnd = false := by simpa using hl
  obtain ⟨-, hlegal, hfreq, hetab⟩ := h.encode.built (.inr hp)
  obtain ⟨p, hpair⟩ := h.pair_at_cursor hp he
  have hch := channel_of_pairIndex (h.sequencer.channel hf)
  obtain ⟨i, is, helems, helem⟩ := pairElements_of_image hlegal hpair hch
  rw [← hfreq, ← hetab] at helems
  simp only [hpair, helems]
  exact andThen_endsAtRest (runElements_endsAtRest (writeElements_ends helem s)) advance_framer

theorem execEncFinish_endsAtRest : EndsAtRest (execEncFinish s) := by
  refine whenLegal_endsAtRest h.sequencer.atRest fun _ _ => ?_
  dsimp only
  split
  · exact endsAtRest_next rfl
  · exact endsAtRest_next h.sequencer.atRest

theorem execDecStart_endsAtRest : EndsAtRest (execDecStart s) := by
  refine whenLegal_endsAtRest h.sequencer.atRest fun _ _ => ?_
  split
  · exact endsAtRest_raise _ s
  · exact endsAtRest_next h.sequencer.atRest

theorem execDecReadHdr_endsAtRest : EndsAtRest (execDecReadHdr s) := by
  refine whenLegal_endsAtRest h.sequencer.atRest fun _ hl => ?_
  have hend := h.streamEnd_lt (.inl (by simpa using hl))
  exact andThen_endsAtRest (runElements_endsAtRest (readElements_ends _ hend)) endHeader_framer

theorem execDecReadPair_endsAtRest : EndsAtRest (execDecReadPair s) := by
  refine whenLegal_endsAtRest h.sequencer.atRest fun _ hl => ?_
  have hend := h.streamEnd_lt (.inr (by simpa using hl))
  exact andThen_endsAtRest (runElements_endsAtRest (readElements_ends _ hend)) endPair_framer

end Commands

/-- Settles O49, command by command: the writer has as many turns as elements, and the image's own tables have a code for
each of its symbols; each element the reader decodes has a meaning at its place and takes a bit of a stream that ends. -/
theorem commandsAlwaysEnd : Obligations.CommandsAlwaysEnd := by
  intro i s hi h
  cases i with
  | nop => exact endsAtRest_next h.sequencer.atRest
  | reset => exact endsAtRest_next rfl
  | encStart => exact execEncStart_endsAtRest h
  | encPush => exact execEncPush_endsAtRest h
  | encBuild => exact execEncBuild_endsAtRest h
  | encWriteHdr => exact execEncWriteHdr_endsAtRest h
  | encWritePair => exact execEncWritePair_endsAtRest h
  | encFinish => exact execEncFinish_endsAtRest h
  | decStart => exact execDecStart_endsAtRest h
  | decReadHdr => exact execDecReadHdr_endsAtRest h
  | decReadPair => exact execDecReadPair_endsAtRest h
  | _ => cases hi

end Sys2Proof.Machine
end

section
/-! The decoder and the encoder agree (`spec/30_encoding.md` sections 2 to 6, R91 to R105). -/

namespace Sys2Proof

open Sys2Proof.Machine

/-- `x` is an instruction that `p` admits, and what follows its encoding in `b`. -/
structure Encodes (p : Position) (b : Bits) (x : Instr × Bits) : Prop where
  admits : p.admits x.1 = true
  bits : b = encode x.1 ++ x.2

theorem of_false_eq_true {P : Prop} (h : false = true) : P := absurd h Bool.false_ne_true

theorem of_error_eq_ok {α : Type} {e : DecodeError} {x : α} {P : Prop} (h : Except.error e = Except.ok x) : P := by
  cases h

theorem admits_command (i : Instr) : Position.command.admits i = isCommand i := by
  induction i <;> rfl

theorem dcCodeFits_iff {h : Bits} : dcCodeFits h = true ↔ 1 ≤ h.length ∧ h.length ≤ 15 :=
  Bool.and_eq_true_iff.trans (and_congr decide_eq_true_iff decide_eq_true_iff)

theorem acCodeFits_iff {h : Bits} : acCodeFits h = true ↔ 1 ≤ h.length ∧ h.length ≤ 255 :=
  Bool.and_eq_true_iff.trans (and_congr decide_eq_true_iff decide_eq_true_iff)

/-! ## Fields and codes, written and read -/

theorem ofNat_toNat_self {w : Nat} (x : BitVec w) : BitVec.ofNat w x.toNat = x :=
  (BitVec.ofNat_toNat w x).trans (BitVec.setWidth_eq x)

/-- A field takes the value modulo its width. -/
theorem ubits_toNat_ofNat (v n : Nat) : ubits (BitVec.ofNat n v).toNat n = ubits v n :=
  uval_inj ((ubits_length _ _).trans (ubits_length _ _).symm)
    ((uval_ubits_mod _ n).trans ((Nat.mod_mod v _).trans (uval_ubits_mod v n).symm))

section Fields

variable {α : Type} {P : Prop} {n v : Nat} {b c : Bits} {x : α}

theorem readField_ubits_bind {f : Nat × Bits → Except DecodeError α} (hv : v < 2 ^ n) :
    readField n (ubits v n ++ b) >>= f = f (v, b) :=
  congrArg (· >>= f) (readField_ubits hv b)

theorem splitBits_append_bind {f : Bits × Bits → Except DecodeError α} (hc : c.length = n) :
    splitBits n (c ++ b) >>= f = f (c, b) :=
  congrArg (· >>= f) (hc ▸ splitBits_append c b)

/-- A nonzero length field is followed by as many code bits (R104, R225). -/
theorem readCode_append_bind {f : Bits × Bits → Except DecodeError α} (hpos : 1 ≤ c.length) :
    readCode c.length (c ++ b) >>= f = f (c, b) :=
  (congrArg (· >>= f) (if_neg (Nat.ne_of_gt hpos))).trans (splitBits_append_bind rfl)

/-- A field that is read is the field of its value. -/
theorem of_readField_bind {f : Nat × Bits → Except DecodeError α} (h : readField n b >>= f = .ok x)
    (hP : ∀ v b', b = ubits v n ++ b' → f (v, b') = .ok x → P) : P := by
  obtain ⟨a, hread, hf⟩ := except_bind_eq_ok h
  obtain ⟨y, hs, hy⟩ : ∃ y, splitBits n b = .ok y ∧ Except.ok (uval y.1, y.2) = Except.ok a := except_bind_eq_ok hread
  obtain ⟨hb, rfl⟩ := splitBits_eq_ok hs
  exact hP _ _ (hb.trans (congrArg (· ++ y.2) (ubits_uval y.1).symm)) ((congrArg f (Except.ok.inj hy)).trans hf)

theorem of_splitBits_bind {f : Bits × Bits → Except DecodeError α} (h : splitBits n b >>= f = .ok x)
    (hP : ∀ c b', b = c ++ b' → c.length = n → f (c, b') = .ok x → P) : P := by
  obtain ⟨y, hread, hf⟩ := except_bind_eq_ok h
  obtain ⟨hb, hlen⟩ := splitBits_eq_ok hread
  exact hP y.1 y.2 hb hlen hf

/-- The length of a code that is read is not zero. -/
theorem of_readCode_bind {f : Bits × Bits → Except DecodeError α} (h : readCode n b >>= f = .ok x)
    (hP : splitBits n b >>= f = .ok x → P) : P := by
  cases n with
  | zero => exact of_error_eq_ok h
  | succ n => exact hP h

/-- A code is read after its length (R104, R225). -/
theorem of_readLength_bind {b : Bits} {f : Bits × Bits → Except DecodeError α}
    (h : (readField n b >>= fun y => readCode y.1 y.2 >>= f) = .ok x)
    (hP : ∀ c b', b = ubits c.length n ++ (c ++ b') → f (c, b') = .ok x → P) : P :=
  of_readField_bind h fun _ _ hl h => of_readCode_bind h fun h => of_splitBits_bind h fun c b' hc hlen h =>
    hP c b' (hlen ▸ hc ▸ hl) h

end Fields

section Matched

variable {tab : List Entry} {P : Prop} {b r : Bits} {e : Entry}

/-- A match takes the bits of the code, and needs no others (R206). -/
theorem huffMatch_eq_some_iff_code :
    huffMatch tab [] b = some (e, r) ↔ b = e.code ++ r ∧ huffMatch tab [] e.code = some (e, []) := by
  constructor
  · intro h
    obtain ⟨hb, hshortest⟩ := ((matcherFindsShortestCode tab b).1 e r).1 h
    exact ⟨hb, ((matcherFindsShortestCode tab e.code).1 e []).2 ⟨e.code.append_nil.symm, hshortest⟩⟩
  · rintro ⟨rfl, h⟩
    exact huffMatch_append r h

theorem code_of_huffMatch (h : huffMatch tab [] b = some (e, [])) : b = e.code :=
  (huffMatch_eq_some_iff_code.1 h).1.trans e.code.append_nil

/-- A symbol's code is the whole of a match. -/
theorem match_whole_eq_true_iff {Q : Entry → Bool} {m : Option (Entry × Bits)} :
    (match m with | some (e, []) => Q e | _ => false) = true ↔ ∃ e, m = some (e, []) ∧ Q e = true := by
  constructor
  · induction m with
    | none => exact of_false_eq_true
    | some p =>
      induction p with
      | mk e r =>
        induction r with
        | nil => exact fun h => ⟨e, rfl, h⟩
        | cons => exact of_false_eq_true
  · rintro ⟨e, rfl, h⟩
    exact h

theorem admits_dcsym {h v : Bits} : (Position.dcSymbol tab).admits (.dcsym h v) = true ↔
    ∃ e : Entry, huffMatch tab [] h = some (e, []) ∧ v.length = e.sym :=
  match_whole_eq_true_iff.trans (exists_congr fun _ => and_congr_right fun _ => decide_eq_true_iff)

theorem admits_acsym {k : Nat} {h v : Bits} : (Position.acSymbol tab k).admits (.acsym h v) = true ↔
    ∃ e : Entry, huffMatch tab [] h = some (e, []) ∧ v.length = symSize e.sym ∧ overruns k e.sym = false :=
  match_whole_eq_true_iff.trans (exists_congr fun _ => and_congr_right fun _ =>
    Bool.and_eq_true_iff.trans (and_congr decide_eq_true_iff (iff_of_eq (Bool.not_eq_true' _))))

variable {α : Type} {x : α} {f : Entry → Bits → Except DecodeError α}

/-- A symbol begins with a match. -/
theorem of_match (h : (match huffMatch tab [] b with | none => .error .noMatch | some (e, b) => f e b) = Except.ok x)
    (hP : ∀ e b', b = e.code ++ b' → huffMatch tab [] e.code = some (e, []) → f e b' = .ok x → P) : P := by
  have hcode := fun e r => (huffMatch_eq_some_iff_code (tab := tab) (b := b) (e := e) (r := r)).1
  revert h hcode
  generalize huffMatch tab [] b = m
  induction m with
  | none => exact fun h _ => of_error_eq_ok h
  | some p => exact fun h hcode => hP p.1 p.2 (hcode _ _ rfl).1 (hcode _ _ rfl).2 h

theorem match_eq (hm : huffMatch tab [] e.code = some (e, [])) :
    (match huffMatch tab [] (e.code ++ r) with | none => .error .noMatch | some (e, b) => f e b) = f e r := by
  rw [huffMatch_append r hm]
  rfl

end Matched

/-! ## Decoding an encoding -/

/-- At place `p` the encoding of a well-formed `i` is read back, whatever follows it. -/
def ReadsBack (p : Position) (i : Instr) : Prop := i.wf = true → ∀ rest, decode p (encode i ++ rest) = .ok (i, rest)

section ReadsBack

variable {i : Instr}

theorem readsBack_of_word (w : Word) (henc : encode i = ubits w.toNat 32) (hdec : decodeCommand w = .ok i) :
    ReadsBack .command i := fun _ rest =>
  (congrArg (fun b => decode .command (b ++ rest)) henc).trans ((readField_ubits_bind w.isLt).trans
    (congrArg (· >>= fun j => Except.ok (j, rest)) ((congrArg decodeCommand (ofNat_toNat_self w)).trans hdec)))

theorem readsBack_command : Position.command.admits i = true → ReadsBack .command i := by
  induction i with
  | nop => exact fun _ => readsBack_of_word 0x00 rfl rfl
  | reset => exact fun _ => readsBack_of_word 0x01 rfl rfl
  | encStart => exact fun _ => readsBack_of_word 0x10 rfl rfl
  | encPush => exact fun _ => readsBack_of_word 0x11 rfl rfl
  | encBuild => exact fun _ => readsBack_of_word 0x12 rfl rfl
  | encWriteHdr => exact fun _ => readsBack_of_word 0x13 rfl rfl
  | encWritePair => exact fun _ => readsBack_of_word 0x14 rfl rfl
  | encFinish => exact fun _ => readsBack_of_word 0x15 rfl rfl
  | decStart => exact fun _ => readsBack_of_word 0x20 rfl rfl
  | decReadHdr => exact fun _ => readsBack_of_word 0x21 rfl rfl
  | decReadPair => exact fun _ => readsBack_of_word 0x22 rfl rfl
  | _ => exact of_false_eq_true

theorem readsBack_tableCount : Position.tableCount.admits i = true → ReadsBack .tableCount i := by
  induction i with
  | tcount n =>
    exact fun _ _ rest => (readField_ubits_bind n.isLt).trans
      (congrArg (fun m => Except.ok (Instr.tcount m, rest)) (ofNat_toNat_self n))
  | _ => exact of_false_eq_true

theorem readsBack_blockCount : Position.blockCount.admits i = true → ReadsBack .blockCount i := by
  induction i with
  | bcount n =>
    exact fun _ _ rest => (readField_ubits_bind n.isLt).trans
      (congrArg (fun m => Except.ok (Instr.bcount m, rest)) (ofNat_toNat_self n))
  | _ => exact of_false_eq_true

theorem encode_dcent_append (c : BitVec 4) (h r : Bits) :
    encode (.dcent c h) ++ r = ubits c.toNat 4 ++ (ubits h.length 4 ++ (h ++ r)) :=
  (List.append_assoc _ h r).trans (List.append_assoc _ _ (h ++ r))

theorem encode_acent_append (z s : BitVec 4) (h r : Bits) : encode (.acent z s h) ++ r =
    ubits z.toNat 4 ++ (ubits s.toNat 4 ++ (ubits h.length 8 ++ (h ++ r))) :=
  (List.append_assoc _ h r).trans ((List.append_assoc _ _ (h ++ r)).trans (List.append_assoc _ _ _))

theorem readsBack_dcEntry : Position.dcEntry.admits i = true → ReadsBack .dcEntry i := by
  induction i with
  | dcent c h =>
    intro _ hfits rest
    obtain ⟨hpos, hmax⟩ := dcCodeFits_iff.1 hfits
    exact (congrArg decodeDcent (encode_dcent_append c h rest)).trans ((readField_ubits_bind c.isLt).trans
      ((readField_ubits_bind (Nat.lt_succ_of_le hmax)).trans ((readCode_append_bind hpos).trans
        (congrArg (fun m => Except.ok (Instr.dcent m h, rest)) (ofNat_toNat_self c)))))
  | _ => exact of_false_eq_true

theorem readsBack_acEntry : Position.acEntry.admits i = true → ReadsBack .acEntry i := by
  induction i with
  | acent r s h =>
    intro _ hfits rest
    obtain ⟨hpos, hmax⟩ := acCodeFits_iff.1 hfits
    exact (congrArg decodeAcent (encode_acent_append r s h rest)).trans ((readField_ubits_bind r.isLt).trans
      ((readField_ubits_bind s.isLt).trans ((readField_ubits_bind (Nat.lt_succ_of_le hmax)).trans
        ((readCode_append_bind hpos).trans (congrArg₂ (fun m n => Except.ok (Instr.acent m n h, rest))
          (ofNat_toNat_self r) (ofNat_toNat_self s))))))
  | _ => exact of_false_eq_true

variable {tab : List Entry}

theorem readsBack_dcSymbol : (Position.dcSymbol tab).admits i = true → ReadsBack (.dcSymbol tab) i := by
  induction i with
  | dcsym h v =>
    intro hp _ rest
    obtain ⟨e, hm, hv⟩ := admits_dcsym.1 hp
    obtain rfl := code_of_huffMatch hm
    exact (congrArg (decodeDcsym tab) (List.append_assoc e.code v rest)).trans
      ((match_eq hm).trans (splitBits_append_bind hv))
  | _ => exact of_false_eq_true

theorem readsBack_acSymbol {k : Nat} : (Position.acSymbol tab k).admits i = true → ReadsBack (.acSymbol tab k) i := by
  induction i with
  | acsym h v =>
    intro hp _ rest
    obtain ⟨e, hm, hv, hover⟩ := admits_acsym.1 hp
    obtain rfl := code_of_huffMatch hm
    exact (congrArg (decodeAcsym tab k) (List.append_assoc e.code v rest)).trans
      ((match_eq hm).trans ((if_neg (Bool.eq_false_iff.1 hover)).trans (splitBits_append_bind hv)))
  | _ => exact of_false_eq_true

end ReadsBack

/-- The table that holds one code matches it. -/
theorem huffMatch_singleton (sym : Nat) {h : Bits} (hpos : 1 ≤ h.length) :
    huffMatch [⟨sym, h⟩] [] h = some (⟨sym, h⟩, []) :=
  ((matcherFindsShortestCode _ _).1 _ _).2 ⟨h.append_nil.symm, List.ne_nil_of_length_pos hpos,
    List.find?_cons_of_pos (decide_eq_true rfl), fun _ _ _ hx => List.find?_cons_of_neg (by simpa using hx.symm)⟩

theorem not_overruns_zero {sym : Nat} (h : sym < 16) : overruns 0 sym = false := by
  rw [overruns, symRun, Nat.div_eq_of_lt h]
  exact Bool.and_false _

/-- Every well-formed instruction has a place: a symbol stands where its code is the only one of the table. -/
theorem exists_admits_of_wf {i : Instr} : i.wf = true → ∃ p : Position, p.admits i = true := by
  induction i with
  | tcount n => exact fun _ => ⟨.tableCount, rfl⟩
  | dcent c h => exact fun _ => ⟨.dcEntry, rfl⟩
  | acent r s h => exact fun _ => ⟨.acEntry, rfl⟩
  | bcount n => exact fun _ => ⟨.blockCount, rfl⟩
  | dcsym h v =>
    intro hwf
    have hcode := dcCodeFits_iff.1 (Bool.and_eq_true_iff.1 hwf).1
    exact ⟨_, admits_dcsym.2 ⟨_, huffMatch_singleton v.length hcode.1, rfl⟩⟩
  | acsym h v =>
    intro hwf
    have hcode := acCodeFits_iff.1 (Bool.and_eq_true_iff.1 hwf).1
    have hval := Nat.lt_succ_of_le (of_decide_eq_true (Bool.and_eq_true_iff.1 hwf).2)
    exact ⟨_, admits_acsym.2
      ⟨_, huffMatch_singleton v.length hcode.1, (Nat.mod_eq_of_lt hval).symm, not_overruns_zero hval⟩⟩
  | _ => exact fun _ => ⟨.command, rfl⟩

/-- Settles O11, place by place: each field is read back, and a code is matched whatever follows it. -/
theorem decodeOfEncode : Obligations.DecodeOfEncode := by
  refine fun i hwf => ⟨exists_admits_of_wf hwf, fun p rest hp => ?_⟩
  suffices h : p.admits i = true → ReadsBack p i from h hp hwf rest
  induction p with
  | command => exact readsBack_command
  | tableCount => exact readsBack_tableCount
  | dcEntry => exact readsBack_dcEntry
  | acEntry => exact readsBack_acEntry
  | blockCount => exact readsBack_blockCount
  | dcSymbol tab => exact readsBack_dcSymbol
  | acSymbol tab k => exact readsBack_acSymbol

/-! ## Encoding what was decoded -/

section Decoded

variable {b : Bits} {x : Instr × Bits}

theorem decodeTcount_encodes (h : decodeTcount b = .ok x) : Encodes .tableCount b x :=
  of_readField_bind h fun v b' hb h =>
    Except.ok.inj h ▸ ⟨rfl, hb.trans (congrArg (· ++ b') (ubits_toNat_ofNat v 16).symm)⟩

theorem decodeBcount_encodes (h : decodeBcount b = .ok x) : Encodes .blockCount b x :=
  of_readField_bind h fun v b' hb h =>
    Except.ok.inj h ▸ ⟨rfl, hb.trans (congrArg (· ++ b') (ubits_toNat_ofNat v 32).symm)⟩

theorem decodeDcent_encodes (h : decodeDcent b = .ok x) : Encodes .dcEntry b x :=
  of_readField_bind h fun _ _ hc h => of_readLength_bind h fun code r hl h => Except.ok.inj h ▸
    ⟨rfl, (hc.trans (congrArg₂ (· ++ ·) (ubits_toNat_ofNat _ 4).symm hl)).trans (encode_dcent_append _ code r).symm⟩

theorem decodeAcent_encodes (h : decodeAcent b = .ok x) : Encodes .acEntry b x :=
  of_readField_bind h fun _ _ hrun h => of_readField_bind h fun _ _ hsize h => of_readLength_bind h fun code r hl h =>
    have hsize := hsize.trans (congrArg₂ (· ++ ·) (ubits_toNat_ofNat _ 4).symm hl)
    have hrun := hrun.trans (congrArg₂ (· ++ ·) (ubits_toNat_ofNat _ 4).symm hsize)
    Except.ok.inj h ▸ ⟨rfl, hrun.trans (encode_acent_append _ _ code r).symm⟩

variable {tab : List Entry}

theorem decodeDcsym_encodes (h : decodeDcsym tab b = .ok x) : Encodes (.dcSymbol tab) b x :=
  of_match h fun e _ hb hm h => of_splitBits_bind h fun v r hv hlen h => Except.ok.inj h ▸
    ⟨admits_dcsym.2 ⟨e, hm, hlen⟩, hb.trans ((congrArg _ hv).trans (List.append_assoc e.code v r).symm)⟩

theorem decodeAcsym_encodes {k : Nat} (h : decodeAcsym tab k b = .ok x) : Encodes (.acSymbol tab k) b x := by
  refine of_match h fun e _ hb hm h => ?_
  by_cases hover : overruns k e.sym = true
  · exact of_error_eq_ok ((if_pos hover).symm.trans h)
  · refine of_splitBits_bind ((if_neg hover).symm.trans h) fun v r hv hlen h => Except.ok.inj h ▸
      ⟨admits_acsym.2 ⟨e, hm, hlen, Bool.eq_false_iff.2 hover⟩,
        hb.trans ((congrArg _ hv).trans (List.append_assoc e.code v r).symm)⟩

theorem decode_command_admits (h : decode .command b = .ok x) : Position.command.admits x.1 = true :=
  of_readField_bind h fun _ _ _ h => (except_bind_eq_ok h).elim fun _ h =>
    Except.ok.inj h.2 ▸ (admits_command _).trans (isCommand_of_decodeCommand h.1)

end Decoded

/-- Settles O12, place by place: each field that was read is written back, and a match is the code of its entry. -/
theorem encodeOfDecode : Obligations.EncodeOfDecode := by
  intro p b r i
  suffices h : decode p b = .ok (i, r) → p.admits i = true ∧ (p ≠ .command → Encodes p b (i, r)) from
    fun hd => (h hd).imp_right fun h hp => (h hp).bits
  have hencodes {p : Position} (h : Encodes p b (i, r)) : p.admits i = true ∧ (p ≠ .command → Encodes p b (i, r)) :=
    ⟨h.admits, fun _ => h⟩
  induction p with
  | command => exact fun h => ⟨decode_command_admits h, fun hne => absurd rfl hne⟩
  | tableCount => exact fun h => hencodes (decodeTcount_encodes h)
  | dcEntry => exact fun h => hencodes (decodeDcent_encodes h)
  | acEntry => exact fun h => hencodes (decodeAcent_encodes h)
  | blockCount => exact fun h => hencodes (decodeBcount_encodes h)
  | dcSymbol tab => exact fun h => hencodes (decodeDcsym_encodes h)
  | acSymbol tab k => exact fun h => hencodes (decodeAcsym_encodes h)

/-- Settles O14: the decoder computes each of them. -/
theorem sampleWordsDecode : Obligations.SampleWordsDecode := by
  unfold Obligations.SampleWordsDecode
  decide

end Sys2Proof
end

section
/-! What a step runs (`spec/30_encoding.md` sections 1, 4 to 6, R41, R104, R105; `spec/10_state.md` section 7). -/

namespace Sys2Proof.Machine

open Sys2Proof.Claims

/-! ## What is fetched -/

theorem step_of_run {s t : State} {i : Instr} (h : fetch s = .run i t) : step s = exec i t := by rw [step, h]

theorem step_of_settled {s : State} {r : Result} (h : fetch s = .settled r) : step s = r := by rw [step, h]

theorem fetchAccess_command {w : Word} {i : Instr} (hd : decodeCommand w = .ok i) (u : State) :
    fetchAccess (.regWrite cmdOffset w) u = .run i u := by
  rw [fetchAccess, if_pos rfl, fetchCommand, hd]

/-- Settles O15: with no access there is nothing to fetch; a write to `CMD` is fetched as the command it decodes to. -/
theorem stepRunsWrittenCommand : Obligations.StepRunsWrittenCommand := fun _ hr =>
  ⟨fun hb => step_of_settled (fetch_of_empty_bus hr hb),
    fun _ _ _ hb hd => step_of_run ((fetch_of_access hr hb).trans (fetchAccess_command hd _))⟩

/-- Settles O16: inside the stream the next element is fetched from the unread bits, or from the writer. -/
theorem stepRunsStreamElement : Obligations.StepRunsStreamElement := fun _ =>
  ⟨fun _ _ _ hf hd => step_of_run (by rw [fetch_of_reading hf, hd]),
    fun _ _ hf hd => step_of_settled (by rw [fetch_of_reading hf, hd]),
    fun _ _ hf => step_of_run (fetch_of_writing hf)⟩

/-! ## Elements out of their place -/

theorem of_true_eq_false {P : Prop} (h : true = false) : P := absurd h.symm Bool.false_ne_true

theorem runElement_of_rest (i : Instr) (s : State) :
    runElement i { s with framer := .rest } = .refused .elementOutOfPlace := by
  induction i <;> rfl

theorem runElement_of_other_writing {i j : Instr} (js : List Instr) (s : State) :
    j ≠ i → runElement i { s with framer := .writing j js } = .refused .elementOutOfPlace := by
  induction i with
  | tcount | dcent | acent | bcount | dcsym | acsym => exact fun hne => if_neg hne
  | _ => exact fun _ => rfl

/-- A reader has no meaning for an element where the grammar calls for another kind (log 4). -/
theorem runElement_of_unfit_place {i : Instr} {p : ReadPos} (s : State) :
    fitsPlace p i = false → runElement i { s with framer := .reading p } = .refused .elementOutOfPlace := by
  have hrefused : (.refused .elementOutOfPlace : Result) = .refused .elementOutOfPlace := rfl
  induction i with
  | tcount =>
    induction p with
    | tableCount => exact of_true_eq_false
    | _ => exact fun _ => hrefused
  | dcent =>
    induction p with
    | tableEntry k left =>
      induction k with
      | dcLuma | dcChroma => exact of_true_eq_false
      | acLuma | acChroma => exact fun _ => hrefused
    | _ => exact fun _ => hrefused
  | acent =>
    induction p with
    | tableEntry k left =>
      induction k with
      | acLuma | acChroma => exact of_true_eq_false
      | dcLuma | dcChroma => exact fun _ => hrefused
    | _ => exact fun _ => hrefused
  | bcount =>
    induction p with
    | blockCount => exact of_true_eq_false
    | _ => exact fun _ => hrefused
  | dcsym =>
    induction p with
    | dcSymbol => exact of_true_eq_false
    | _ => exact fun _ => hrefused
  | acsym =>
    induction p with
    | acSymbol => exact of_true_eq_false
    | _ => exact fun _ => hrefused
  | _ => exact fun _ => hrefused

/-- Settles O37: between commands, at a writer, and at a reader's place. -/
theorem elementOutOfPlaceIsRefused : Obligations.ElementOutOfPlaceIsRefused := by
  intro i s hi
  rw [← runElement_eq_exec s hi]
  have hstands {f : Framer} (hf : s.framer = f) : runElement i s = runElement i { s with framer := f } := hf ▸ rfl
  exact ⟨fun hf => (hstands hf).trans (runElement_of_rest i s),
    fun _ js hf hne => (hstands hf).trans (runElement_of_other_writing js s hne),
    fun _ hf hp => (hstands hf).trans (runElement_of_unfit_place s hp)⟩

/-! ## The reset state -/

/-- Settles O54: nothing is stored, and the cursor stands at its start in IDLE, where no buffer or table is spoken of. -/
theorem resetStateIsSafe : Obligations.ResetStateIsSafe where
  memory := State.reset_memory_wf
  sequencer :=
    { atRest := rfl
      capacity := by decide
      errFault := iff_of_false (by decide) (not_not_intro rfl)
      channel := fun _ => Nat.zero_le _
      cursor := fun _ => Nat.le_refl _
      cursorEnd := fun _ _ => rfl
      idleCursor := fun _ => ⟨rfl, rfl⟩
      pairsRemain := fun h => absurd h (by decide)
      written := fun _ => rfl }
  encode := .of_phase (by decide)
  decode :=
    { bytes := fun _ h => absurd h List.not_mem_nil
      stored := fun h => absurd h (by decide)
      start := fun _ => rfl
      inside := fun h => absurd h (by decide)
      tables := fun h => absurd h (by decide) }

end Sys2Proof.Machine
end

section
/-! The host's accesses (`spec/10_state.md` sections 2 and 3, `spec/20_memory.md` section 5, R22, R23, R37, R72, D26). -/

namespace Sys2Proof.Machine

open Sys2Proof.Claims

/-! ## The register map -/

theorem coIndex_eq_some_iff {o : BitVec 9} {i : Nat} : coIndex o = some i ↔ o.toNat = 0x100 + 4 * i := by
  unfold coIndex
  generalize o.toNat = k
  constructor
  · intro h
    obtain ⟨⟨hle, hmod⟩, hi⟩ := Option.ite_none_right_eq_some.1 h
    rw [← Option.some.inj hi, Nat.mul_div_cancel' (Nat.dvd_sub (Nat.dvd_of_mod_eq_zero hmod) (by decide)),
      Nat.add_sub_cancel' hle]
  · rintro rfl
    rw [if_pos ⟨Nat.le_add_right .., Nat.add_mul_mod_self_left ..⟩, Nat.add_sub_cancel_left,
      Nat.mul_div_cancel_left i (by decide)]

theorem coIndex_lt {o : BitVec 9} {i : Nat} (h : coIndex o = some i) : i < 64 := by
  have ho : 0x100 + 4 * i < 0x100 + 4 * 64 := coIndex_eq_some_iff.1 h ▸ o.isLt
  exact Nat.lt_of_mul_lt_mul_left (Nat.lt_of_add_lt_add_left ho)

theorem coIndex_eq_none {o : BitVec 9} (h : ∀ i : Fin 64, o.toNat ≠ 0x100 + 4 * i.val) : coIndex o = none :=
  Option.eq_none_iff_forall_ne_some.2 fun i hi => h ⟨i, coIndex_lt hi⟩ (coIndex_eq_some_iff.1 hi)

theorem status_eq_statusWord (s : State) : s.status = statusWord s := by
  unfold State.status State.busyFlag State.doneFlag State.faultFlag statusWord
  generalize s.phase = p
  induction p <;> rfl

theorem extractLsb'_eq_ofNat_div (w : Cursor) (k : Nat) : w.extractLsb' k 32 = BitVec.ofNat 32 (w.toNat / 2 ^ k) :=
  congrArg (BitVec.ofNat 32) (Nat.shiftRight_eq_div_pow w.toNat k)

/-- A row of R23 is one of the twelve below the coefficient registers, or that of a coefficient register. -/
theorem forall_mem_registerTable {s : State} {Q : Nat × Word → Prop} : (∀ p ∈ registerTable s, Q p) ↔
    (∀ p ∈ (registerTable s).take 12, Q p) ∧
      ∀ (i : Nat) (x : Coef), s.co.toList[i]? = some x → Q (0x100 + 4 * i, BitVec.ofInt 32 x.toInt) :=
  (List.forall_mem_append (l₁ := (registerTable s).take 12)).trans (and_congr_right' (List.forall_mem_map.trans
    ⟨fun h i x hx => h (x, i) (List.mk_mem_zipIdx_iff_getElem?.2 hx),
      fun h x hx => h x.2 x.1 (List.mem_zipIdx_iff_getElem?.1 hx)⟩))

/-- The low registers read as their rows say. -/
theorem readReg_of_low_row (s : State) : ∀ p ∈ (registerTable s).take 12, readReg (BitVec.ofNat 9 p.1) s = p.2 :=
  List.forall_iff_forall_mem.1 ⟨rfl, status_eq_statusWord s, (BitVec.ofNat_toNat ..).symm, rfl, rfl, (BitVec.ofNat_toNat ..).symm,
    rfl, extractLsb'_eq_ofNat_div _ 32, rfl, extractLsb'_eq_ofNat_div _ 32, rfl, extractLsb'_eq_ofNat_div _ 32⟩

theorem readReg_of_coIndex {s : State} {o : BitVec 9} {i : Nat} {x : Coef} (hi : coIndex o = some i)
    (hx : s.co.toList[i]? = some x) : readReg o s = BitVec.ofInt 32 x.toInt := by
  rw [readReg, hi]
  exact congrArg (BitVec.signExtend 32) (List.getD_eq_getElem?_getD.trans (congrArg (Option.getD · 0) hx))

theorem readReg_of_no_low_row (s : State) : ∀ k < 0x030, (∀ p ∈ (registerTable s).take 12, p.1 ≠ k) →
    readReg (BitVec.ofNat 9 k) s = 0 :=
  of_decide_eq_true (Eq.refl true)

/-- An offset that no row has reads as 0: from 0x030 on none has, and the ones below are looked at. -/
theorem readReg_of_no_row {s : State} {o : BitVec 9} (hi : coIndex o = none)
    (hlow : ∀ p ∈ (registerTable s).take 12, p.1 ≠ o.toNat) : readReg o s = 0 := by
  rcases Nat.lt_or_ge o.toNat 0x030 with hk | hk
  · exact ofNat_toNat_self o ▸ readReg_of_no_low_row s o.toNat hk hlow
  · obtain ⟨n, hn⟩ := Nat.exists_eq_add_of_le' hk
    rw [readReg, hi, hn]
    rfl

theorem lookup_getD_eq {l : List (Nat × Word)} {k : Nat} {w : Word} (hmem : ∀ p ∈ l, p.1 = k → w = p.2)
    (hnone : (∀ p ∈ l, p.1 ≠ k) → w = 0) : w = (l.lookup k).getD 0 := by
  cases h : l.lookup k with
  | none => exact hnone fun p hp he => bne_iff_ne.1 (List.lookup_eq_none_iff.1 h p hp) he.symm
  | some v =>
    obtain ⟨l₁, l₂, hl, -⟩ := List.lookup_eq_some_iff.1 h
    exact hmem (k, v) (hl ▸ List.mem_append_cons_self) rfl

/-- The register map of R23 lists what the model's `readReg` answers. -/
theorem readReg_eq_lookup (s : State) (o : BitVec 9) : readReg o s = ((registerTable s).lookup o.toNat).getD 0 :=
  lookup_getD_eq
    (forall_mem_registerTable.2 ⟨fun p hp ho => ofNat_toNat_self o ▸ ho ▸ readReg_of_low_row s p hp,
      fun _ _ hx ho => readReg_of_coIndex (coIndex_eq_some_iff.2 ho.symm) hx⟩)
    fun h => readReg_of_no_row
      (Option.eq_none_iff_forall_ne_some.2 fun i hi => (forall_mem_registerTable.1 h).2 i _
        (List.getElem?_eq_getElem (s.co.length_toList.symm ▸ coIndex_lt hi)) (coIndex_eq_some_iff.1 hi).symm)
      (forall_mem_registerTable.1 h).1

/-! ## Register accesses -/

section Accesses

variable {s : State} {o : BitVec 9} {v : Word}

theorem hostRead_of_running (hp : s.phase ≠ .fault) :
    hostRead o s = { s with rdata := ((registerTable s).lookup o.toNat).getD 0 } := by
  rw [hostRead_of_ne_fault hp, readReg_eq_lookup]

/-- In FAULT the unspecified elements are drawn first (R310). -/
theorem hostRead_of_fault (hp : s.phase = .fault) :
    hostRead o s = { scramble s with rdata := readReg o (scramble s) } :=
  congrArg (fun t : State => { t with rdata := readReg o t }) (if_pos hp)

theorem status_of_fault (hp : s.phase = .fault) : s.status = 0x1F := by
  rw [status_eq_statusWord, statusWord, hp]
  rfl

theorem setIfInBounds_eq_set (co : Pair) (i : Fin 64) (x : Coef) : co.setIfInBounds i x = co.set i x i.isLt :=
  Vector.ext fun _ hj => (Vector.getElem_setIfInBounds hj).trans (Vector.getElem_set i.isLt hj).symm

theorem writeReg_co {i : Fin 64} (ho : o.toNat = 0x100 + 4 * i.val) :
    writeReg o v s = { s with co := s.co.set i (BitVec.ofNat 16 v.toNat) i.isLt } := by
  rw [writeReg, coIndex_eq_some_iff.2 ho]
  exact congrArg (fun co : Pair => { s with co := co })
    (setIfInBounds_eq_set s.co i (v.extractLsb' 0 16))

/-- Two halves of a 64-bit register (R23). -/
theorem append_eq_ofNat (hi lo : Word) : hi ++ lo = BitVec.ofNat 64 (hi.toNat * 2 ^ 32 + lo.toNat) := by
  rw [← Nat.shiftLeft_eq, Nat.shiftLeft_add_eq_or_of_lt lo.isLt, ← BitVec.toNat_append, ofNat_toNat_self]

theorem toNat_extractLsb'_high (w : Cursor) : (w.extractLsb' 32 32).toNat = w.toNat / 2 ^ 32 := by
  rw [extractLsb'_eq_ofNat_div, BitVec.toNat_ofNat, Nat.mod_eq_of_lt]
  exact Nat.div_lt_of_lt_mul w.isLt

section Idle

variable (hp : s.phase = .idle)
include hp

theorem writeReg_nblk (ho : o = 0x00C) : writeReg o v s = { s with nblk := v } := by
  subst ho
  exact if_pos hp

theorem writeReg_bslen_low (ho : o = 0x028) : writeReg o v s =
    { s with bslen := BitVec.ofNat 64 (s.bslen.toNat / 2 ^ 32 * 2 ^ 32 + v.toNat) } := by
  subst ho
  rw [← toNat_extractLsb'_high, ← append_eq_ofNat]
  exact if_pos hp

theorem writeReg_bslen_high (ho : o = 0x02C) : writeReg o v s =
    { s with bslen := BitVec.ofNat 64 (v.toNat * 2 ^ 32 + s.bslen.toNat % 2 ^ 32) } := by
  subst ho
  exact (if_pos hp).trans (congrArg (fun n => { s with bslen := n }) (append_eq_ofNat v (s.bslen.extractLsb' 0 32)))

end Idle

omit s v in
theorem match_toNat_of_ne {α : Type} {a b c d : α} (h : o ≠ 0x00C ∧ o ≠ 0x028 ∧ o ≠ 0x02C) :
    (match o.toNat with | 0x00C => a | 0x028 => b | 0x02C => c | _ => d) = d := by
  split
  case h_1 hk => exact absurd (BitVec.eq_of_toNat_eq hk) h.1
  case h_2 hk => exact absurd (BitVec.eq_of_toNat_eq hk) h.2.1
  case h_3 hk => exact absurd (BitVec.eq_of_toNat_eq hk) h.2.2
  case h_4 => rfl

/-- A write changes nothing outside IDLE, or at an offset of neither `NBLK` nor a half of `BSLEN` (R23, D26). -/
theorem writeReg_ignored (hi : coIndex o = none)
    (h : s.phase ≠ .idle ∨ (o ≠ 0x00C ∧ o ≠ 0x028 ∧ o ≠ 0x02C)) : writeReg o v s = s := by
  rw [writeReg, hi]
  exact ite_eq_right_iff.2 fun hp => match_toNat_of_ne (h.resolve_left (not_not_intro hp))

variable {rest : List HostAccess} (hr : s.framer = .rest)
include hr

theorem step_of_regRead (hb : s.bus = .regRead o :: rest) : step s = .next (hostRead o { s with bus := rest }) :=
  step_of_settled (fetch_of_access hr hb)

theorem step_of_regWrite (hb : s.bus = .regWrite o v :: rest) (ho : o ≠ cmdOffset) :
    step s = .next (writeReg o v { s with bus := rest }) :=
  step_of_settled ((fetch_of_access hr hb).trans (if_neg ho))

end Accesses

/-- Settles O17: outside FAULT the read is `readReg`, which the map lists; in FAULT the unspecified elements are drawn first. -/
theorem hostReadReturnsRegister : Obligations.HostReadReturnsRegister := fun s _ rest hr hb =>
  ⟨fun hp => (step_of_regRead hr hb).trans (congrArg Host.Outcome.next
      (hostRead_of_running (s := { s with bus := rest }) hp)),
    fun hp => ⟨_, (step_of_regRead hr hb).trans (congrArg Host.Outcome.next
      (hostRead_of_fault (s := { s with bus := rest }) hp)), hp, rfl, rfl, rfl,
      fun ho => (congrArg (readReg · _) ho).trans (status_of_fault hp),
      fun ho => (congrArg (readReg · _) ho).trans (BitVec.ofNat_toNat 32 s.err).symm⟩⟩

/-- Settles O18, offset by offset. -/
theorem hostWriteChangesRegister : Obligations.HostWriteChangesRegister := fun s _ _ rest hr hb ho =>
  have hstep := step_of_regWrite hr hb ho
  ⟨fun _ hi => hstep.trans (congrArg Host.Outcome.next (writeReg_co (s := { s with bus := rest }) hi)),
    fun ho hp => hstep.trans (congrArg Host.Outcome.next (writeReg_nblk (s := { s with bus := rest }) hp ho)),
    fun ho hp => hstep.trans (congrArg Host.Outcome.next (writeReg_bslen_low (s := { s with bus := rest }) hp ho)),
    fun ho hp => hstep.trans (congrArg Host.Outcome.next (writeReg_bslen_high (s := { s with bus := rest }) hp ho)),
    fun hco h => hstep.trans (congrArg Host.Outcome.next
      (writeReg_ignored (s := { s with bus := rest }) (coIndex_eq_none hco) h))⟩

/-! ## Accesses to `BS` -/

section HostBs

variable {a : Nat} {s : State} {access : State → State}

theorem hostOwnsBs_iff : s.hostOwnsBs = true ↔ s.phase = .idle ∨ s.phase = .done :=
  Bool.or_eq_true_iff.trans (or_congr decide_eq_true_iff decide_eq_true_iff)

theorem hostBs_of_owner (hp : s.phase = .idle ∨ s.phase = .done) :
    hostBs a s access = if s.bsCap ≤ a then .fault .noSuchByte else .next (access s) := by
  rw [hostBs, hostOwnsBs_iff.2 hp]
  rfl

theorem hostBs_of_not_owner (hidle : s.phase ≠ .idle) (hdone : s.phase ≠ .done) :
    hostBs a s access = .refused .bsNotHosts := by
  rw [hostBs, Bool.eq_false_iff.2 fun h => (hostOwnsBs_iff.1 h).elim hidle hdone]
  rfl

variable {rest : List HostAccess} (hr : s.framer = .rest)
include hr

theorem step_of_bsRead (hb : s.bus = .bsRead a :: rest) : step s = hostBs a { s with bus := rest } fun t =>
    { t with rdata := BitVec.ofNat 32 (Memory.read t.bs a).toNat } := by
  simp only [BitVec.ofNat_toNat]
  exact step_of_settled (fetch_of_access hr hb)

theorem step_of_bsWrite {b : Byte} (hb : s.bus = .bsWrite a b :: rest) :
    step s = hostBs a { s with bus := rest } fun t => { t with bs := Memory.write t.bs a b } :=
  step_of_settled (fetch_of_access hr hb)

end HostBs

/-- Settles O19: an access within `BS` in the host's phases reads or writes one byte; the others stop by name. -/
theorem hostAccessesBitstreamMemory : Obligations.HostAccessesBitstreamMemory := by
  refine fun s a rest hr => ⟨fun hp ha => ?_, fun hb => ?_⟩
  · have hbs {access} : hostBs a { s with bus := rest } access = .next (access { s with bus := rest }) :=
      (hostBs_of_owner (s := { s with bus := rest }) hp).trans (if_neg (Nat.not_le.2 ha))
    exact ⟨fun hb => (step_of_bsRead hr hb).trans hbs, fun b hb hm => ⟨_, (step_of_bsWrite hr hb).trans hbs,
      Memory.read_write_same hm a b, fun x => Memory.read_write_other hm b⟩⟩
  · obtain ⟨access, hstep⟩ : ∃ access, step s = hostBs a { s with bus := rest } access := by
      obtain hb | ⟨_, hb⟩ := hb
      · exact ⟨_, step_of_bsRead hr hb⟩
      · exact ⟨_, step_of_bsWrite hr hb⟩
    exact ⟨fun hidle hdone => hstep.trans (hostBs_of_not_owner (s := { s with bus := rest }) hidle hdone),
      fun hp ha => hstep.trans ((hostBs_of_owner (s := { s with bus := rest }) hp).trans (if_pos ha))⟩

end Sys2Proof.Machine
end

section
/-! The next states of the parts of a command, and the form of the bitstream memory (`spec/45_commands.md` section 1,
`spec/20_memory.md` section 1, R9, R260). -/

namespace Sys2Proof.Machine

open Sys2Proof.Claims

/-! ## A property of every next state -/

/-- Whenever `r` is a next state, it has the property `P`. -/
def AllNext (P : State → Prop) (r : Result) : Prop := ∀ t, r = .next t → P t

section AllNext

variable {P Q : State → Prop} {s t : State}

theorem allNext_next (h : P t) : AllNext P (.next t) := fun _ ht => Host.Outcome.next.inj ht ▸ h

theorem allNext_fault {f : Fault} : AllNext P (.fault f) := fun _ h => by cases h

theorem AllNext.ite {c : Prop} [Decidable c] {a b : Result} (ha : c → AllNext P a) (hb : ¬c → AllNext P b) :
    AllNext P (if c then a else b) := by
  by_cases h : c
  · exact if_pos h ▸ ha h
  · exact if_neg h ▸ hb h

/-- Where a command is not legal, the phase test ends it (R272, R274). -/
theorem allNext_whenLegal {legal : Bool} {effect : State → Result} (hs : P s) (hraise : P (raise .eSeq s))
    (h : s.phase ≠ .fault → legal = true → AllNext P (effect s)) : AllNext P (whenLegal legal s effect) :=
  .ite (fun _ => allNext_next hs) fun hf => .ite (h hf) fun _ => allNext_next hraise

theorem allNext_andThen {r : Result} {k : State → State} (hr : AllNext Q r) (hfault : ∀ u, u.phase = .fault → Q u → P u)
    (hk : ∀ u, u.phase ≠ .fault → Q u → P (k u)) : AllNext P (andThen r k) := by
  intro t h
  obtain ⟨ht, htf⟩ | ⟨u, hu, huf, rfl⟩ := andThen_eq_next h
  · exact hfault t htf (hr t ht)
  · exact hk u huf (hr u hu)

theorem of_elementStep {i : Instr} (hraise : ∀ e, P (raise e s)) (hemit : ∀ is, P (emit i is s))
    (htake : ∀ f d n c, P { take i f s with dtab := d, nblk := n, co := c }) (h : ElementStep i s t) : P t := by
  obtain ⟨is, -, rfl⟩ | ⟨p, -, rfl | rfl | ⟨f, d, n, c, rfl⟩⟩ := h
  · exact hemit is
  · exact hraise _
  · exact hraise _
  · exact htake f d n c

theorem allNext_encWriteHdr (hs : P s) (hraise : ∀ e, P (raise e s))
    (hempty : s.phase = .encReady → P { s with phase := .encBlocks })
    (hloop : s.phase = .encReady → ∀ i is, AllNext P (andThen (writeElements i is s) fun t => { t with phase := .encBlocks })) :
    AllNext P (execEncWriteHdr s) := by
  refine allNext_whenLegal hs (hraise _) fun _ hl => ?_
  have hp := of_decide_eq_true hl
  split
  · exact hloop hp _ _
  · exact allNext_next (hempty hp)
  · exact allNext_next (hraise _)

theorem allNext_encWritePair (hs : P s) (hraise : ∀ e, P (raise e s))
    (hloop : s.phase = .encBlocks → s.atEnd = false → ∀ i is, AllNext P (andThen (writeElements i is s) advance)) :
    AllNext P (execEncWritePair s) := by
  refine allNext_whenLegal hs (hraise _) fun _ hl => ?_
  have hl := Bool.and_eq_true_iff.1 hl
  have hloop := hloop (of_decide_eq_true hl.1) ((Bool.not_eq_true' _).mp hl.2)
  split
  · exact allNext_fault
  · split
    · exact allNext_fault
    · exact hloop _ _

/-- What a host access other than a command makes of the state: a register write changes `CO`, or in IDLE `NBLK` or
`BSLEN` (R23); a read in FAULT draws the unspecified elements (R310). -/
theorem AccessStep.elim (h : AccessStep s t) (hraise : ∀ e, P (raise e s)) (hreset : P (resetState s))
    (hco : ∀ c r, P { s with co := c, rdata := r }) (hidle : s.phase = .idle → ∀ n l, P { s with nblk := n, bslen := l })
    (hfault : s.phase = .fault → ∀ r, P { scramble s with rdata := r })
    (hwrite : ∀ a b, a < s.bsCap → P { s with bs := Memory.write s.bs a b }) : P t := by
  induction h with
  | ignored => exact hco s.co s.rdata
  | undefinedCommand e => exact hraise _
  | regWrite o v =>
    obtain ⟨_, _, hw⟩ | ⟨hp, hw | ⟨_, hw⟩⟩ | hw := writeReg_cases o v s
    · exact hw.symm ▸ hco _ s.rdata
    · exact hw.symm ▸ hidle hp v s.bslen
    · exact hw.symm ▸ hidle hp s.nblk _
    · exact hw.symm ▸ hco s.co s.rdata
  | regRead o =>
    by_cases hp : s.phase = .fault
    · exact hostRead_of_fault (o := o) hp ▸ hfault hp _
    · exact hostRead_of_ne_fault (offset := o) hp ▸ hco s.co _
  | bsRead w _ => exact hco s.co w
  | bsWrite a b _ ha => exact hwrite a b ha
  | reset => exact hreset

/-- A step runs an instruction, or takes a fault, or is another access of the host. -/
theorem allNext_step (hs : P s) (hraise : ∀ e, P (raise e s)) (hexec : ∀ i rest, AllNext P (exec i { s with bus := rest }))
    (haccess : ∀ rest t, AccessStep { s with bus := rest } t → P t) : AllNext P (step s) := by
  cases hf : s.framer with
  | rest =>
    intro t h
    obtain ht | ⟨rest, ⟨i, _, hx⟩ | ha⟩ := step_cases_of_rest hf h
    · exact ht ▸ hs
    · exact hexec i rest t hx
    · exact haccess rest t ha
  | reading p =>
    rw [step, fetch_of_reading hf]
    generalize decode (p.position s.dtab) s.unread = x
    induction x with
    | ok x => exact hexec x.1 s.bus
    | error e => exact allNext_next (hraise _)
  | writing i is =>
    rw [step, fetch_of_writing hf]
    exact hexec i s.bus

end AllNext

/-! ## The form of the memory -/

section Memory

variable {s t : State} (hs : s.MemoryOk)
include hs

theorem memoryOk_raise (e : ErrCode) : (raise e s).MemoryOk := Memory.wf_scramble hs _ _

theorem memoryOk_advance : (advance s).MemoryOk := (congrArg (Memory.wf · = true) (advance_bs s)).mpr hs

theorem memoryOk_elementStep {i : Instr} (h : ElementStep i s t) : t.MemoryOk :=
  of_elementStep (memoryOk_raise hs) (fun _ => hs) (fun _ _ _ _ => hs) h

theorem allNext_memoryOk_elements (n : Nat) (f : Framer) : AllNext State.MemoryOk (runElements n { s with framer := f }) :=
  fun _ h => runElements_induction (P := State.MemoryOk) (s := { s with framer := f }) (fun _ e hu => memoryOk_raise hu e)
    (fun _ _ _ hu => memoryOk_elementStep hu) hs h

theorem allNext_memoryOk_exec (i : Instr) : AllNext State.MemoryOk (exec i s) := by
  have hraise := memoryOk_raise hs
  have hseq := hraise .eSeq
  have hloop {n : Nat} {f : Framer} {k : State → State} (hk : ∀ u, u.MemoryOk → (k u).MemoryOk) :
      AllNext State.MemoryOk (andThen (runElements n { s with framer := f }) k) :=
    allNext_andThen (allNext_memoryOk_elements hs n f) (fun _ _ hu => hu) fun u _ => hk u
  induction i with
  | nop => exact allNext_next hs
  | reset => exact allNext_next hs
  | encStart =>
    show AllNext State.MemoryOk (execEncStart s)
    exact allNext_whenLegal hs hseq fun _ _ => .ite (fun _ => allNext_next (hraise _)) fun _ => allNext_next hs
  | encPush =>
    show AllNext State.MemoryOk (execEncPush s)
    exact allNext_whenLegal hs hseq fun _ _ => .ite
      (fun _ => allNext_next (memoryOk_advance (s := { s with cbuf := s.cbuf ++ [s.co] }) hs))
      fun _ => allNext_next (hraise _)
  | encBuild =>
    show AllNext State.MemoryOk (execEncBuild s)
    exact allNext_whenLegal hs hseq fun _ _ => allNext_next hs
  | encWriteHdr => exact allNext_encWriteHdr hs hraise (fun _ => hs) fun _ _ _ => hloop fun _ hu => hu
  | encWritePair => exact allNext_encWritePair hs hraise fun _ _ _ _ => hloop fun _ hu => memoryOk_advance hu
  | encFinish =>
    show AllNext State.MemoryOk (execEncFinish s)
    exact allNext_whenLegal hs hseq fun _ _ => .ite (fun _ => allNext_next (Memory.wf_scramble hs _ _))
      fun _ => allNext_next (Memory.wf_store hs _ _)
  | decStart =>
    show AllNext State.MemoryOk (execDecStart s)
    exact allNext_whenLegal hs hseq fun _ _ => .ite (fun _ => allNext_next (hraise _)) fun _ => allNext_next hs
  | decReadHdr =>
    show AllNext State.MemoryOk (execDecReadHdr s)
    exact allNext_whenLegal hs hseq fun _ _ => hloop fun _ hu => hu
  | decReadPair =>
    show AllNext State.MemoryOk (execDecReadPair s)
    exact allNext_whenLegal hs hseq fun _ _ => hloop fun u hu => (congrArg (Memory.wf · = true) (endPair_bs u)).mpr hu
  | tcount | dcent | acent | bcount | dcsym | acsym =>
    exact fun _ h => memoryOk_elementStep hs (runElement_step ((runElement_eq_exec s rfl).trans h))

end Memory

/-- Settles O50: an access, a command and an element keep the form. -/
theorem stepKeepsMemoryForm : Obligations.StepKeepsMemoryForm := fun s t hs =>
  allNext_step hs (memoryOk_raise hs) (fun i rest => allNext_memoryOk_exec (s := { s with bus := rest }) hs i)
    (fun rest _ ha => ha.elim (memoryOk_raise (s := { s with bus := rest }) hs) hs (fun _ _ => hs) (fun _ _ _ => hs)
      (fun _ _ => hs) fun a b _ => Memory.wf_write hs a b) t

end Sys2Proof.Machine
end

section
/-! The sequencer's discipline is kept by every step (`spec/10_state.md` sections 3 and 5, R25, R27, R38, R71). -/

namespace Sys2Proof.Machine

open Sys2Proof.Claims

theorem errCode_ne_zero (e : ErrCode) : e.code ≠ 0 := by
  induction e <;> decide

/-! ## The discipline after each operation -/

section Operations

variable {s t : State}

/-- In FAULT the discipline asks for the code only (R310). -/
theorem State.SequencerOk.of_fault (hp : t.phase = .fault) (hr : t.framer = .rest) (hcap : t.bsCap < 2 ^ 61)
    (he : t.err ≠ 0) : t.SequencerOk where
  atRest := hr
  capacity := hcap
  errFault := iff_of_true hp he
  channel h := absurd hp h
  cursor h := absurd hp h
  cursorEnd h := absurd hp h
  idleCursor h := absurd h (hp.trans_ne (by decide))
  pairsRemain h := absurd h (hp.trans_ne (by decide))
  written h := absurd hp h

/-- The cursor at the first pair is a cursor of any image (R27). -/
theorem State.SequencerOk.at_start (p : Phase) (hp : p ≠ .fault) (hphase : t.phase = p) (hr : t.framer = .rest)
    (hcap : t.bsCap < 2 ^ 61) (he : t.err = 0) (hblk : t.blk = 0) (hch : t.ch = 0)
    (hw : t.wpos = BitVec.ofNat 64 t.out.length) (hremain : p = .decBlocks → t.nblk ≠ 0) : t.SequencerOk where
  atRest := hr
  capacity := hcap
  errFault := iff_of_false (hphase.trans_ne hp) (not_not_intro he)
  channel _ := hch ▸ Nat.zero_le 2
  cursor _ := hblk ▸ Nat.zero_le _
  cursorEnd _ _ := hch
  idleCursor _ := ⟨hblk, hch⟩
  pairsRemain h := hblk ▸ (hremain (hphase.symm.trans h)).symm
  written _ := hw

/-- Short of its end, the cursor advances to a cursor of the image (R27). -/
theorem cursor_advance (hlt : s.blk.toNat < s.nblk.toNat) : (advance s).ch.toNat ≤ 2 ∧
    (advance s).blk.toNat ≤ s.nblk.toNat ∧ ((advance s).blk = s.nblk → (advance s).ch = 0) := by
  rw [advance_ch, advance_blk]
  by_cases hch : s.ch.toNat < 2
  · rw [if_pos hch, if_pos hch]
    exact ⟨(Nat.mod_le ..).trans hch, hlt.le, fun h => absurd hlt (h ▸ Nat.lt_irrefl _)⟩
  · rw [if_neg hch, if_neg hch]
    exact ⟨Nat.zero_le 2, (Nat.mod_le ..).trans hlt, fun _ => rfl⟩

variable (hs : s.SequencerOk)
include hs

theorem State.SequencerOk.raise (e : ErrCode) : (raise e s).SequencerOk :=
  .of_fault rfl rfl hs.capacity (errCode_ne_zero e)

theorem State.SequencerOk.reset : (resetState s).SequencerOk :=
  .at_start .idle (by decide) rfl rfl hs.capacity rfl rfl rfl rfl fun h => absurd h (by decide)

variable (hf : s.phase ≠ .fault)
include hf

theorem State.SequencerOk.err_eq_zero : s.err = 0 := not_not.1 (mt hs.errFault.2 hf)

theorem State.SequencerOk.with_phase {p : Phase} (hp : p ≠ .fault) (hidle : p ≠ .idle) (hblocks : p ≠ .decBlocks) :
    { s with phase := p }.SequencerOk where
  atRest := hs.atRest
  capacity := hs.capacity
  errFault := iff_of_false hp (not_not_intro (hs.err_eq_zero hf))
  channel _ := hs.channel hf
  cursor _ := hs.cursor hf
  cursorEnd _ := hs.cursorEnd hf
  idleCursor h := absurd h hidle
  pairsRemain h := absurd h hblocks
  written _ := hs.written hf

/-- The cursor advances, and the phase may become one in which the cursor can stand where it then does. -/
theorem State.SequencerOk.advance_to (hlt : s.blk.toNat < s.nblk.toNat) {p : Phase} (hp : p ≠ .fault) (hidle : p ≠ .idle)
    (hremain : p = .decBlocks → (advance s).atEnd = false) : { advance s with phase := p }.SequencerOk := by
  obtain ⟨hch, hblk, hend⟩ := cursor_advance hlt
  exact
    { atRest := (advance_framer s).trans hs.atRest
      capacity := (advance_bsCap s).trans_lt hs.capacity
      errFault := iff_of_false hp (not_not_intro ((advance_err s).trans (hs.err_eq_zero hf)))
      channel := fun _ => hch
      cursor := fun _ => hblk.trans_eq (congrArg BitVec.toNat (advance_nblk s)).symm
      cursorEnd := fun _ h => hend (h.trans (advance_nblk s))
      idleCursor := fun h => absurd h hidle
      pairsRemain := fun h => of_decide_eq_false (hremain h)
      written := fun _ => (advance_wpos s).trans ((advance_out s).symm ▸ hs.written hf) }

omit hf in
theorem State.SequencerOk.advance_in_phase {p : Phase} (hphase : s.phase = p)
    (hlt : s.blk.toNat < s.nblk.toNat) (hp : p ≠ .fault) (hidle : p ≠ .idle) (hremain : p = .decBlocks → (advance s).atEnd = false) : (advance s).SequencerOk := by
  have hok := hs.advance_to (hphase.trans_ne hp) hlt hp hidle hremain
  rwa [← (advance_phase s).trans hphase] at hok

end Operations

/-! ## The element loops -/

/-- `WPOS` counts the bits of `OUT` (R38). -/
theorem ofNat_length_append {w : Cursor} {out b : Bits} (h : w = BitVec.ofNat 64 out.length) :
    w + BitVec.ofNat 64 b.length = BitVec.ofNat 64 (out ++ b).length := by
  rw [h, List.length_append, BitVec.ofNat_add]

/-- Inside a loop: the capacity, a code where a fault has been taken, and elsewhere `WPOS` as the length of `OUT`. -/
def LoopOk (cap : Nat) (u : State) : Prop :=
  u.bsCap = cap ∧ (u.phase = .fault → u.err ≠ 0) ∧ (u.phase ≠ .fault → u.wpos = BitVec.ofNat 64 u.out.length)

theorem LoopOk.raise {cap : Nat} {u : State} (h : LoopOk cap u) (e : ErrCode) : LoopOk cap (raise e u) :=
  ⟨h.1, fun _ => errCode_ne_zero e, fun hf => absurd rfl hf⟩

theorem LoopOk.of_elementStep {cap : Nat} {u v : State} {i : Instr} (h : LoopOk cap u) (hstep : ElementStep i u v) :
    LoopOk cap v := by
  obtain ⟨hcap, hcode, hwritten⟩ := h
  exact Machine.of_elementStep (LoopOk.raise ⟨hcap, hcode, hwritten⟩)
    (fun _ => ⟨hcap, hcode, fun hf => ofNat_length_append (hwritten hf)⟩) (fun _ _ _ _ => ⟨hcap, hcode, hwritten⟩) hstep

section Commands

variable {s u : State} (hs : s.SequencerOk)
include hs

theorem State.SequencerOk.loopOk (hf : s.phase ≠ .fault) {n : Nat} {f : Framer}
    (h : runElements n { s with framer := f } = .next u) : LoopOk s.bsCap u :=
  runElements_induction (P := LoopOk s.bsCap) (s := { s with framer := f }) (fun _ e hu => hu.raise e)
    (fun _ _ _ => .of_elementStep) ⟨rfl, fun h => absurd h hf, fun _ => hs.written hf⟩ h

theorem allNext_sequencerOk_elements (hf : s.phase ≠ .fault) {n : Nat} {f : Framer} {k : State → State}
    (hk : ∀ u, u.phase ≠ .fault → runElements n { s with framer := f } = .next u → (k u).SequencerOk) :
    AllNext State.SequencerOk (andThen (runElements n { s with framer := f }) k) := by
  refine allNext_andThen (Q := fun u => runElements n { s with framer := f } = .next u) (fun _ h => h) (fun u hu h => ?_) hk
  obtain ⟨hcap, hcode, -⟩ := hs.loopOk hf h
  exact .of_fault hu (runElements_rest h) (hcap ▸ hs.capacity) (hcode hu)

/-- A writer changes its place, `OUT` and `WPOS` (R66). -/
theorem allNext_sequencerOk_writeElements (hf : s.phase ≠ .fault) {i : Instr} {is : List Instr} {k : State → State}
    (hk : ∀ u, u.SequencerOk → u.phase = s.phase → u.atEnd = s.atEnd → (k u).SequencerOk) :
    AllNext State.SequencerOk (andThen (writeElements i is s) k) :=
  allNext_sequencerOk_elements hs hf fun u hu h => by
    have hrest := runElements_rest h
    obtain ⟨-, -, hwritten⟩ := hs.loopOk hf h
    obtain ⟨o, w, f, rfl⟩ := writeElements_frame hf h hu
    exact hk _ { hs with atRest := hrest, written := hwritten } rfl rfl

theorem allNext_sequencerOk_encWriteHdr : AllNext State.SequencerOk (execEncWriteHdr s) := by
  have hgo {u : State} (hu : u.SequencerOk) (hp : u.phase = .encReady) : { u with phase := .encBlocks }.SequencerOk :=
    hu.with_phase (hp.trans_ne (by decide)) (by decide) (by decide) (by decide)
  exact allNext_encWriteHdr hs hs.raise (hgo hs) fun hp _ _ =>
    allNext_sequencerOk_writeElements hs (hp.trans_ne (by decide)) fun u hu hup _ => hgo hu (hup.trans hp)

theorem allNext_sequencerOk_encWritePair : AllNext State.SequencerOk (execEncWritePair s) :=
  allNext_encWritePair hs hs.raise fun hp hend _ _ =>
    allNext_sequencerOk_writeElements hs (hp.trans_ne (by decide)) fun _ hu hup hue =>
      have hup := hup.trans hp
      hu.advance_in_phase hup (hu.blk_lt_nblk (hup.trans_ne (by decide)) (hue.trans hend)) (by decide) (by decide) fun h =>
        absurd h (by decide)

theorem allNext_sequencerOk_encFinish : AllNext State.SequencerOk (execEncFinish s) := by
  refine allNext_whenLegal hs (hs.raise _) fun hf _ => .ite
    (fun _ => allNext_next (.of_fault rfl rfl hs.capacity (errCode_ne_zero .eIo))) fun _ => allNext_next ?_
  have hpad : (writeBits (padding s.wpos.toNat) s).SequencerOk :=
    { hs with written := fun _ => ofNat_length_append (hs.written hf) }
  exact { hpad.with_phase hf (p := .done) (by decide) (by decide) (by decide) with }

theorem allNext_sequencerOk_decReadHdr : AllNext State.SequencerOk (execDecReadHdr s) := by
  refine allNext_whenLegal hs (hs.raise _) fun hf _ => allNext_sequencerOk_elements hs hf fun u hu h => ?_
  have hrest := runElements_rest h
  obtain ⟨d, n, r, f, rfl⟩ := readElements_header_frame hf h hu
  have herr := hs.err_eq_zero hf
  by_cases hn : n = 0
  · exact .at_start .done (by decide) (if_pos hn) hrest hs.capacity herr rfl rfl (hs.written hf) fun h => absurd h (by decide)
  · exact .at_start .decBlocks (by decide) (if_neg hn) hrest hs.capacity herr rfl rfl (hs.written hf) fun _ => hn

omit hs in
/-- After the last pair the operation is over (R271). -/
theorem State.SequencerOk.endPair (hu : u.SequencerOk) (hp : u.phase = .decBlocks) : (endPair u).SequencerOk := by
  have hf : u.phase ≠ .fault := hp.trans_ne (by decide)
  have hlt := hu.blk_lt_nblk hf (decide_eq_false (hu.pairsRemain hp))
  rw [Machine.endPair]
  by_cases hend : (advance u).atEnd = true
  · exact if_pos hend ▸ hu.advance_to hf hlt (by decide) (by decide) fun h => absurd h (by decide)
  · exact if_neg hend ▸ hu.advance_in_phase hp hlt (by decide) (by decide) fun _ => Bool.eq_false_iff.2 hend

theorem allNext_sequencerOk_decReadPair : AllNext State.SequencerOk (execDecReadPair s) := by
  refine allNext_whenLegal hs (hs.raise _) fun hf hl => allNext_sequencerOk_elements hs hf fun u hu h => ?_
  have hrest := runElements_rest h
  obtain ⟨c, r, f, rfl⟩ := readElements_pair_frame hf h hu
  have huok : { s with co := c, rpos := r, framer := f }.SequencerOk := { hs with atRest := hrest }
  exact huok.endPair (of_decide_eq_true hl)

/-- Every command keeps the sequencer's discipline. -/
theorem allNext_sequencerOk_exec {i : Instr} : isCommand i = true → AllNext State.SequencerOk (exec i s) := by
  induction i with
  | nop => exact fun _ => allNext_next hs
  | reset => exact fun _ => allNext_next hs.reset
  | encStart =>
    intro _
    show AllNext State.SequencerOk (execEncStart s)
    exact allNext_whenLegal hs (hs.raise _) fun hf _ => .ite (fun _ => allNext_next (hs.raise _)) fun _ => allNext_next
      (.at_start .encCollect (by decide) rfl hs.atRest hs.capacity (hs.err_eq_zero hf) rfl rfl rfl fun h =>
        absurd h (by decide))
  | encPush =>
    intro _
    show AllNext State.SequencerOk (execEncPush s)
    refine allNext_whenLegal hs (hs.raise _) fun hf hl => .ite (fun _ => allNext_next ?_) fun _ => allNext_next (hs.raise _)
    obtain ⟨hp, hend⟩ := Bool.and_eq_true_iff.1 hl
    have hpush : { s with cbuf := s.cbuf ++ [s.co] }.SequencerOk := { hs with }
    exact hpush.advance_in_phase (of_decide_eq_true hp) (hs.blk_lt_nblk hf ((Bool.not_eq_true' _).mp hend)) (by decide)
      (by decide) fun h => absurd h (by decide)
  | encBuild =>
    intro _
    show AllNext State.SequencerOk (execEncBuild s)
    exact allNext_whenLegal hs (hs.raise _) fun hf _ => allNext_next
      (.at_start .encReady (by decide) rfl hs.atRest hs.capacity (hs.err_eq_zero hf) rfl rfl (hs.written hf) fun h =>
        absurd h (by decide))
  | encWriteHdr => exact fun _ => allNext_sequencerOk_encWriteHdr hs
  | encWritePair => exact fun _ => allNext_sequencerOk_encWritePair hs
  | encFinish => exact fun _ => allNext_sequencerOk_encFinish hs
  | decStart =>
    intro _
    show AllNext State.SequencerOk (execDecStart s)
    exact allNext_whenLegal hs (hs.raise _) fun hf _ => .ite (fun _ => allNext_next (hs.raise _)) fun _ => allNext_next
      (.at_start .decHdr (by decide) rfl hs.atRest hs.capacity (hs.err_eq_zero hf) rfl rfl (hs.written hf) fun h =>
        absurd h (by decide))
  | decReadHdr => exact fun _ => allNext_sequencerOk_decReadHdr hs
  | decReadPair => exact fun _ => allNext_sequencerOk_decReadPair hs
  | _ => exact of_false_eq_true

/-- Another access of the host keeps it too: `NBLK` can be written in IDLE only, where the cursor is at its start (R23). -/
theorem AccessStep.sequencerOk {t : State} (h : AccessStep s t) : t.SequencerOk :=
  h.elim hs.raise hs.reset (fun _ _ => { hs with })
    (fun hp _ _ =>
      have hf : s.phase ≠ .fault := hp.trans_ne (by decide)
      have hstart := hs.idleCursor hp
      .at_start .idle (by decide) hp hs.atRest hs.capacity (hs.err_eq_zero hf) hstart.1 hstart.2 (hs.written hf) fun h =>
        absurd h (by decide))
    (fun hp _ => .of_fault hp hs.atRest hs.capacity (hs.errFault.1 hp)) fun _ _ _ => { hs with }

end Commands

/-- Settles O51: every command, and every other access of the host, keeps the discipline. -/
theorem stepKeepsSequencer : Obligations.StepKeepsSequencer := by
  intro s t hs h
  rcases step_cases_of_rest hs.atRest h with rfl | ⟨rest, ⟨i, hi, hx⟩ | ha⟩
  · exact hs
  · exact allNext_sequencerOk_exec (s := { s with bus := rest }) { hs with } hi t hx
  · exact AccessStep.sequencerOk (s := { s with bus := rest }) { hs with } ha

end Sys2Proof.Machine
end
